-- ==== Sys2Proof/Word.lean ====
section
/-! DEFINITION. The word types of the machine (00_scope.md R10, R75). -/

namespace Sys2Proof

/-- A 32-bit word: register contents, addresses, immediates, instruction words (R10).
`BitVec.toNat` is the spec's `u`, `BitVec.toInt` its `s`. -/
abbrev Word := BitVec 32

/-- A byte of data memory (R50). -/
abbrev Byte := BitVec 8

/-- A register number, 0 to 31 (R12, R20, R24). -/
abbrev Reg := Fin 32

end Sys2Proof
end

