-- ==== Sys2Proof/Decoded.lean ====
section
/-! DEFINITION. The types of the decoder's answer: formats, mnemonics and the decoded record
(30_encoding.md R72, R84, R91). The functions over them are in Decode.lean. -/

namespace Sys2Proof

/-- The six instruction formats (R72); an opcode outside the format map has none. -/
inductive Format where
  | R | I | S | B | U | J
deriving DecidableEq, Repr

/-- The closed enumeration of the 37 table mnemonics plus `unrecognized` (R84, R91). -/
inductive Mnemonic where
  | add | sub | sll | slt | sltu | xor | srl | sra | or | and
  | addi | slti | sltiu | xori | ori | andi | slli | srli | srai
  | lui | auipc
  | beq | bne | blt | bge | bltu | bgeu
  | jal | jalr
  | lw | sw | flw | fsw
  | fadd | fsub | fmul | fdiv
  | unrecognized
deriving DecidableEq, Repr

/-- The decoded instruction (R91). `none` is the spec's absent field, distinct from every present
value (R14). -/
structure DecodedInstruction where
  format   : Option Format
  opcode   : BitVec 7
  funct3   : Option (BitVec 3)
  funct7   : Option (BitVec 7)
  rs1      : Option (BitVec 5)
  rs2      : Option (BitVec 5)
  rd       : Option (BitVec 5)
  imm      : Option Word
  mnemonic : Mnemonic
deriving DecidableEq, Repr

end Sys2Proof
end

