-- ==== Sys2Proof/Config.lean ====
section
/-! DEFINITION. What an implementation fixes: the open parameters of 00_scope.md R8, as plain data,
and the free values, as constants with no body. -/

namespace Sys2Proof

/-- `FETCH_MODE` (R8, R211, R212). -/
inductive FetchMode where
  | linear | looping
deriving DecidableEq, Repr

/-- The four floating operations of `FP_OPS` (R170). -/
inductive FpOp where
  | add | sub | mul | div
deriving DecidableEq, Repr

/-- Which `FP_OPS` a run has (R170). `given k` is the uninterpreted quadruple `Config.fadd k`,
`Config.fsub k`, `Config.fmul k`, `Config.fdiv k`, of which nothing is known; `reference` is the
spec's reference instance (Machine/FloatReference.lean). DESIGN CHOICE, log 7. -/
inductive FpInstance where
  | given (k : Nat)
  | reference
deriving DecidableEq, Repr

/-- The parameters fixed for a run (R8, R43), but for the stream `PROG`. -/
structure Params where
  fetchMode    : FetchMode
  memCapacity  : Nat
  readLatency  : Nat
  writeLatency : Nat
  cycleLimit   : Nat
  /-- `EXT_SUPPORTED`: the extended mnemonics the dispatcher supports (R111). -/
  extSupported : List Mnemonic
  fpOps        : FpInstance
deriving DecidableEq, Repr

/-- `FP_OPS.fadd` (R170): any total function of the rounding mode and two patterns. Free value, log 7. -/
opaque Config.fadd : Nat → BitVec 3 → Word → Word → Word

/-- `FP_OPS.fsub` (R170). Free value, log 7. -/
opaque Config.fsub : Nat → BitVec 3 → Word → Word → Word

/-- `FP_OPS.fmul` (R170). Free value, log 7. -/
opaque Config.fmul : Nat → BitVec 3 → Word → Word → Word

/-- `FP_OPS.fdiv` (R170). Free value, log 7. -/
opaque Config.fdiv : Nat → BitVec 3 → Word → Word → Word

/-- The sign bit and the 22 payload bits of the quiet NaN that the host gives for an operation whose
result is not a number, under the reference instance: "default NaN results as the host produces
them" (R170). Free value, log 8. -/
opaque Config.hostNan : FpOp → Word → Word → BitVec 1 × BitVec 22

end Sys2Proof
end

