-- ==== Sys2Proof/Syntax.lean ====
section
/-! DEFINITION. The instructions: one constructor per row of spec/opcode_table.json (R84). -/

namespace Sys2Proof

/-- An instruction with its operands. Register numbers are of the file R87 names for the mnemonic.
An `imm` is the decoded, sign-extended immediate (R76 to R80): for `lui` and `auipc` the 20-bit
field before its shift (R79), for the shifts the whole I-immediate (R94). `rm` is the rounding-mode
field of the floating arithmetic instructions (R87, R170). -/
inductive Instr where
  | add (rd rs1 rs2 : Reg)
  | sub (rd rs1 rs2 : Reg)
  | sll (rd rs1 rs2 : Reg)
  | slt (rd rs1 rs2 : Reg)
  | sltu (rd rs1 rs2 : Reg)
  | xor (rd rs1 rs2 : Reg)
  | srl (rd rs1 rs2 : Reg)
  | sra (rd rs1 rs2 : Reg)
  | or (rd rs1 rs2 : Reg)
  | and (rd rs1 rs2 : Reg)
  | addi (rd rs1 : Reg) (imm : Word)
  | slti (rd rs1 : Reg) (imm : Word)
  | sltiu (rd rs1 : Reg) (imm : Word)
  | xori (rd rs1 : Reg) (imm : Word)
  | ori (rd rs1 : Reg) (imm : Word)
  | andi (rd rs1 : Reg) (imm : Word)
  | slli (rd rs1 : Reg) (imm : Word)
  | srli (rd rs1 : Reg) (imm : Word)
  | srai (rd rs1 : Reg) (imm : Word)
  | lui (rd : Reg) (imm : Word)
  | auipc (rd : Reg) (imm : Word)
  | beq (rs1 rs2 : Reg) (imm : Word)
  | bne (rs1 rs2 : Reg) (imm : Word)
  | blt (rs1 rs2 : Reg) (imm : Word)
  | bge (rs1 rs2 : Reg) (imm : Word)
  | bltu (rs1 rs2 : Reg) (imm : Word)
  | bgeu (rs1 rs2 : Reg) (imm : Word)
  | jal (rd : Reg) (imm : Word)
  | jalr (rd rs1 : Reg) (imm : Word)
  | lw (rd rs1 : Reg) (imm : Word)
  | sw (rs2 rs1 : Reg) (imm : Word)
  | flw (rd rs1 : Reg) (imm : Word)
  | fsw (rs2 rs1 : Reg) (imm : Word)
  | fadd (rd rs1 rs2 : Reg) (rm : BitVec 3)
  | fsub (rd rs1 rs2 : Reg) (rm : BitVec 3)
  | fmul (rd rs1 rs2 : Reg) (rm : BitVec 3)
  | fdiv (rd rs1 rs2 : Reg) (rm : BitVec 3)
deriving DecidableEq, Repr

end Sys2Proof
end

