-- ==== Sys2Proof/WellFormed.lean ====
section
/-! DEFINITION. Which instruction terms an encoding exists for: the range of each immediate
(30_encoding.md R76 to R80, R94) and the admitted rounding modes (R84, R89). -/

namespace Sys2Proof

/-- I- and S-immediates: -2048 to 2047 (R76, R77). -/
abbrev imm12Ok (imm : Word) : Prop := -2048 ≤ imm.toInt ∧ imm.toInt ≤ 2047

/-- B-immediates: even, -4096 to 4094 (R78). -/
abbrev imm13Ok (imm : Word) : Prop := -4096 ≤ imm.toInt ∧ imm.toInt ≤ 4094 ∧ imm.toInt % 2 = 0

/-- U-immediates, the field before its shift: -524288 to 524287 (R79). -/
abbrev imm20Ok (imm : Word) : Prop := -524288 ≤ imm.toInt ∧ imm.toInt ≤ 524287

/-- J-immediates: even, -1048576 to 1048574 (R80). -/
abbrev imm21Ok (imm : Word) : Prop :=
  -1048576 ≤ imm.toInt ∧ imm.toInt ≤ 1048574 ∧ imm.toInt % 2 = 0

/-- The immediate of `srli`: bits 31:25 of the word are 0, so it is the shift amount (R84, R129). -/
abbrev srliOk (imm : Word) : Prop := imm.toNat < 32

/-- The immediate of `srai`: 1024 plus the shift amount (R84, R94, R130). -/
abbrev sraiOk (imm : Word) : Prop := 1024 ≤ imm.toNat ∧ imm.toNat < 1056

/-- The rounding-mode fields that are table keys: not 101 and not 110 (R84, R89). -/
abbrev rmOk (rm : BitVec 3) : Prop := rm ≠ 5#3 ∧ rm ≠ 6#3

/-- The instruction terms that an encoding exists for, as a check that computes. -/
def Instr.wellFormed (i : Instr) : Bool :=
  match i with
  | .add _ _ _ | .sub _ _ _ | .sll _ _ _ | .slt _ _ _ | .sltu _ _ _ | .xor _ _ _ | .srl _ _ _
  | .sra _ _ _ | .or _ _ _ | .and _ _ _ => true
  | .addi _ _ imm | .slti _ _ imm | .sltiu _ _ imm | .xori _ _ imm | .ori _ _ imm
  | .andi _ _ imm | .slli _ _ imm | .jalr _ _ imm | .lw _ _ imm | .sw _ _ imm | .flw _ _ imm
  | .fsw _ _ imm => decide (imm12Ok imm)
  | .srli _ _ imm => decide (srliOk imm)
  | .srai _ _ imm => decide (sraiOk imm)
  | .lui _ imm | .auipc _ imm => decide (imm20Ok imm)
  | .beq _ _ imm | .bne _ _ imm | .blt _ _ imm | .bge _ _ imm | .bltu _ _ imm
  | .bgeu _ _ imm => decide (imm13Ok imm)
  | .jal _ imm => decide (imm21Ok imm)
  | .fadd _ _ _ rm | .fsub _ _ _ rm | .fmul _ _ _ rm | .fdiv _ _ _ rm => decide (rmOk rm)

end Sys2Proof
end

