-- ==== Sys2Proof/Decode.lean ====
section
/-! DEFINITION. The decoder (30_encoding.md): fields, immediates, formats, the two-level mnemonic
lookup, the decoded record, the instruction it stands for, and the encoder written from the same
tables. -/

namespace Sys2Proof

/-! ## Fields (R71) -/

def opcodeOf (w : Word) : BitVec 7 := w.extractLsb' 0 7
def rdOf (w : Word) : BitVec 5 := w.extractLsb' 7 5
def funct3Of (w : Word) : BitVec 3 := w.extractLsb' 12 3
def rs1Of (w : Word) : BitVec 5 := w.extractLsb' 15 5
def rs2Of (w : Word) : BitVec 5 := w.extractLsb' 20 5
def funct7Of (w : Word) : BitVec 7 := w.extractLsb' 25 7

/-- A 5-bit register field as a register number (R75). -/
def regOf (b : BitVec 5) : Reg := b.toFin

/-- A register number as its 5-bit field. -/
def regBits (r : Reg) : BitVec 5 := BitVec.ofFin r

/-! ## Immediates (R76 to R80): each is the sign extension of its assembled bits -/

/-- The 12 bits of the I-immediate (R76). -/
def iBits (w : Word) : BitVec 12 := w.extractLsb' 20 12

/-- The 12 bits of the S-immediate (R77). -/
def sBits (w : Word) : BitVec 12 := w.extractLsb' 25 7 ++ w.extractLsb' 7 5

/-- The 13 bits of the B-immediate, bit 0 forced to zero (R78). -/
def bBits (w : Word) : BitVec 13 :=
  w.extractLsb' 31 1 ++ w.extractLsb' 7 1 ++ w.extractLsb' 25 6 ++ w.extractLsb' 8 4 ++ 0#1

/-- The 20 bits of the U-immediate, unshifted (R79). -/
def uBits (w : Word) : BitVec 20 := w.extractLsb' 12 20

/-- The 21 bits of the J-immediate, bit 0 forced to zero (R80). -/
def jBits (w : Word) : BitVec 21 :=
  w.extractLsb' 31 1 ++ w.extractLsb' 12 8 ++ w.extractLsb' 20 1 ++ w.extractLsb' 21 10 ++ 0#1

def immI (w : Word) : Word := (iBits w).signExtend 32
def immS (w : Word) : Word := (sBits w).signExtend 32
def immB (w : Word) : Word := (bBits w).signExtend 32
def immU (w : Word) : Word := (uBits w).signExtend 32
def immJ (w : Word) : Word := (jBits w).signExtend 32

/-! ## Formats (R72) -/

/-- The format map, a function of the low 7 bits alone. -/
def formatMap : List (BitVec 7 × Format) :=
  [ (0b0110011#7, .R), (0b1010011#7, .R),
    (0b0010011#7, .I), (0b0000011#7, .I), (0b0000111#7, .I), (0b1100111#7, .I),
    (0b0100011#7, .S), (0b0100111#7, .S),
    (0b1100011#7, .B),
    (0b0110111#7, .U), (0b0010111#7, .U),
    (0b1101111#7, .J) ]

def formatOf (op : BitVec 7) : Option Format := formatMap.lookup op

/-! ## The mnemonic table (R83, R84) -/

/-- What an opcode and its key select: one mnemonic, or a second lookup by funct7. -/
inductive TableEntry where
  | direct (m : Mnemonic)
  | nested (byFunct7 : List (BitVec 7 × Mnemonic))
deriving DecidableEq, Repr

/-- The nested entry that all six OP-FP keys share (R84). -/
def opFpEntry : TableEntry :=
  .nested [ (0b0000000#7, .fadd), (0b0000100#7, .fsub), (0b0001000#7, .fmul), (0b0001100#7, .fdiv) ]

/-- The keys of each opcode of the table. The key is funct3, or the sentinel `none` for the U and J
formats, which have no funct3 (R83). -/
def mnemonicTable : List (BitVec 7 × List (Option (BitVec 3) × TableEntry)) :=
  [ (0b0110011#7,
      [ (some 0b000#3, .nested [(0b0000000#7, .add), (0b0100000#7, .sub)]),
        (some 0b001#3, .direct .sll),
        (some 0b010#3, .direct .slt),
        (some 0b011#3, .direct .sltu),
        (some 0b100#3, .direct .xor),
        (some 0b101#3, .nested [(0b0000000#7, .srl), (0b0100000#7, .sra)]),
        (some 0b110#3, .direct .or),
        (some 0b111#3, .direct .and) ]),
    (0b0010011#7,
      [ (some 0b000#3, .direct .addi),
        (some 0b001#3, .direct .slli),
        (some 0b010#3, .direct .slti),
        (some 0b011#3, .direct .sltiu),
        (some 0b100#3, .direct .xori),
        (some 0b101#3, .nested [(0b0000000#7, .srli), (0b0100000#7, .srai)]),
        (some 0b110#3, .direct .ori),
        (some 0b111#3, .direct .andi) ]),
    (0b0000011#7, [(some 0b010#3, .direct .lw)]),
    (0b0000111#7, [(some 0b010#3, .direct .flw)]),
    (0b0100011#7, [(some 0b010#3, .direct .sw)]),
    (0b0100111#7, [(some 0b010#3, .direct .fsw)]),
    (0b1100111#7, [(some 0b000#3, .direct .jalr)]),
    (0b1100011#7,
      [ (some 0b000#3, .direct .beq),
        (some 0b001#3, .direct .bne),
        (some 0b100#3, .direct .blt),
        (some 0b101#3, .direct .bge),
        (some 0b110#3, .direct .bltu),
        (some 0b111#3, .direct .bgeu) ]),
    (0b0110111#7, [(none, .direct .lui)]),
    (0b0010111#7, [(none, .direct .auipc)]),
    (0b1101111#7, [(none, .direct .jal)]),
    (0b1010011#7,
      [ (some 0b000#3, opFpEntry), (some 0b001#3, opFpEntry), (some 0b010#3, opFpEntry),
        (some 0b011#3, opFpEntry), (some 0b100#3, opFpEntry), (some 0b111#3, opFpEntry) ]) ]

/-- The two-level lookup of R83: opcode, then key, then funct7 where the entry is nested. Whatever
the table lacks is `unrecognized` (R86). -/
def lookupMnemonic (d : DecodedInstruction) : Mnemonic :=
  match d.format with
  | none => .unrecognized
  | some fmt =>
    match mnemonicTable.lookup d.opcode with
    | none => .unrecognized
    | some keys =>
      match keys.lookup (if fmt = .U ∨ fmt = .J then none else d.funct3) with
      | none => .unrecognized
      | some (.direct m) => m
      | some (.nested byFunct7) =>
        match d.funct7 with
        | none => .unrecognized
        | some f7 => (byFunct7.lookup f7).getD .unrecognized

/-! ## The decoded record (R73, R74, R81, R91) -/

/-- The fields of a word, with the mnemonic not yet looked up. -/
def decodeFields (w : Word) : DecodedInstruction :=
  let op := opcodeOf w
  let bare : DecodedInstruction :=
    { format := formatOf op, opcode := op, funct3 := none, funct7 := none, rs1 := none,
      rs2 := none, rd := none, imm := none, mnemonic := .unrecognized }
  match formatOf op with
  | some .R =>
    { bare with rd := some (rdOf w), funct3 := some (funct3Of w), rs1 := some (rs1Of w),
                rs2 := some (rs2Of w), funct7 := some (funct7Of w) }
  | some .I =>
    { bare with rd := some (rdOf w), funct3 := some (funct3Of w), rs1 := some (rs1Of w),
                imm := some (immI w),
                funct7 := if op = 0b0010011#7 ∧ (funct3Of w = 0b001#3 ∨ funct3Of w = 0b101#3)
                          then some (funct7Of w) else none }
  | some .S =>
    { bare with funct3 := some (funct3Of w), rs1 := some (rs1Of w), rs2 := some (rs2Of w),
                imm := some (immS w) }
  | some .B =>
    { bare with funct3 := some (funct3Of w), rs1 := some (rs1Of w), rs2 := some (rs2Of w),
                imm := some (immB w) }
  | some .U => { bare with rd := some (rdOf w), imm := some (immU w) }
  | some .J => { bare with rd := some (rdOf w), imm := some (immJ w) }
  | none => bare

/-- The decoder: total and pure (R82). -/
def decode (w : Word) : DecodedInstruction :=
  let d := decodeFields w
  { d with mnemonic := lookupMnemonic d }

/-! ## The instruction of a record -/

/-- An instruction from the fields rd, rs1, rs2 of a record. -/
def withRdRs1Rs2 (d : DecodedInstruction) (f : Reg → Reg → Reg → Instr) : Option Instr :=
  match d.rd, d.rs1, d.rs2 with
  | some rd, some rs1, some rs2 => some (f (regOf rd) (regOf rs1) (regOf rs2))
  | _, _, _ => none

/-- An instruction from the fields rd, rs1, rs2 and the rounding mode, which is funct3 (R87). -/
def withRdRs1Rs2Rm (d : DecodedInstruction) (f : Reg → Reg → Reg → BitVec 3 → Instr) :
    Option Instr :=
  match d.rd, d.rs1, d.rs2, d.funct3 with
  | some rd, some rs1, some rs2, some rm => some (f (regOf rd) (regOf rs1) (regOf rs2) rm)
  | _, _, _, _ => none

/-- An instruction from the fields rd, rs1 and the immediate. -/
def withRdRs1Imm (d : DecodedInstruction) (f : Reg → Reg → Word → Instr) : Option Instr :=
  match d.rd, d.rs1, d.imm with
  | some rd, some rs1, some imm => some (f (regOf rd) (regOf rs1) imm)
  | _, _, _ => none

/-- An instruction from the fields rs1, rs2 and the immediate. -/
def withRs1Rs2Imm (d : DecodedInstruction) (f : Reg → Reg → Word → Instr) : Option Instr :=
  match d.rs1, d.rs2, d.imm with
  | some rs1, some rs2, some imm => some (f (regOf rs1) (regOf rs2) imm)
  | _, _, _ => none

/-- An instruction from the field rd and the immediate. -/
def withRdImm (d : DecodedInstruction) (f : Reg → Word → Instr) : Option Instr :=
  match d.rd, d.imm with
  | some rd, some imm => some (f (regOf rd) imm)
  | _, _ => none

/-- The instruction a record stands for; `none` for an unrecognized word. The core executes the
mnemonic and the operand fields only (R92). A record that lacks a field its mnemonic needs is never
made by `decode` (log 11). -/
def DecodedInstruction.toInstr (d : DecodedInstruction) : Option Instr :=
  match d.mnemonic with
  | .add => withRdRs1Rs2 d .add
  | .sub => withRdRs1Rs2 d .sub
  | .sll => withRdRs1Rs2 d .sll
  | .slt => withRdRs1Rs2 d .slt
  | .sltu => withRdRs1Rs2 d .sltu
  | .xor => withRdRs1Rs2 d .xor
  | .srl => withRdRs1Rs2 d .srl
  | .sra => withRdRs1Rs2 d .sra
  | .or => withRdRs1Rs2 d .or
  | .and => withRdRs1Rs2 d .and
  | .addi => withRdRs1Imm d .addi
  | .slti => withRdRs1Imm d .slti
  | .sltiu => withRdRs1Imm d .sltiu
  | .xori => withRdRs1Imm d .xori
  | .ori => withRdRs1Imm d .ori
  | .andi => withRdRs1Imm d .andi
  | .slli => withRdRs1Imm d .slli
  | .srli => withRdRs1Imm d .srli
  | .srai => withRdRs1Imm d .srai
  | .lui => withRdImm d .lui
  | .auipc => withRdImm d .auipc
  | .beq => withRs1Rs2Imm d .beq
  | .bne => withRs1Rs2Imm d .bne
  | .blt => withRs1Rs2Imm d .blt
  | .bge => withRs1Rs2Imm d .bge
  | .bltu => withRs1Rs2Imm d .bltu
  | .bgeu => withRs1Rs2Imm d .bgeu
  | .jal => withRdImm d .jal
  | .jalr => withRdRs1Imm d .jalr
  | .lw => withRdRs1Imm d .lw
  | .sw => withRs1Rs2Imm d (fun rs1 rs2 imm => .sw rs2 rs1 imm)
  | .flw => withRdRs1Imm d .flw
  | .fsw => withRs1Rs2Imm d (fun rs1 rs2 imm => .fsw rs2 rs1 imm)
  | .fadd => withRdRs1Rs2Rm d .fadd
  | .fsub => withRdRs1Rs2Rm d .fsub
  | .fmul => withRdRs1Rs2Rm d .fmul
  | .fdiv => withRdRs1Rs2Rm d .fdiv
  | .unrecognized => none

/-- The instruction the decoder reads from a word. -/
def decodeInstr (w : Word) : Option Instr := (decode w).toInstr

/-- The instruction the decoder reads from an instruction whose bits are `w`, numbered as the opcode
table numbers them. Every instruction is one 32-bit word (R70); bits above `nbits` are 0. -/
def decodeTableWord (nbits w : Nat) : Option Instr := decodeInstr (BitVec.ofNat 32 (w % 2 ^ nbits))

/-! ## Mnemonics -/

/-- The mnemonic of an instruction. -/
def Instr.mnemonic (i : Instr) : Mnemonic :=
  match i with
  | .add _ _ _ => .add
  | .sub _ _ _ => .sub
  | .sll _ _ _ => .sll
  | .slt _ _ _ => .slt
  | .sltu _ _ _ => .sltu
  | .xor _ _ _ => .xor
  | .srl _ _ _ => .srl
  | .sra _ _ _ => .sra
  | .or _ _ _ => .or
  | .and _ _ _ => .and
  | .addi _ _ _ => .addi
  | .slti _ _ _ => .slti
  | .sltiu _ _ _ => .sltiu
  | .xori _ _ _ => .xori
  | .ori _ _ _ => .ori
  | .andi _ _ _ => .andi
  | .slli _ _ _ => .slli
  | .srli _ _ _ => .srli
  | .srai _ _ _ => .srai
  | .lui _ _ => .lui
  | .auipc _ _ => .auipc
  | .beq _ _ _ => .beq
  | .bne _ _ _ => .bne
  | .blt _ _ _ => .blt
  | .bge _ _ _ => .bge
  | .bltu _ _ _ => .bltu
  | .bgeu _ _ _ => .bgeu
  | .jal _ _ => .jal
  | .jalr _ _ _ => .jalr
  | .lw _ _ _ => .lw
  | .sw _ _ _ => .sw
  | .flw _ _ _ => .flw
  | .fsw _ _ _ => .fsw
  | .fadd _ _ _ _ => .fadd
  | .fsub _ _ _ _ => .fsub
  | .fmul _ _ _ _ => .fmul
  | .fdiv _ _ _ _ => .fdiv

/-- The extended set (R84): the 21 mnemonics gated by `EXT_SUPPORTED`. -/
def extendedSet : List Mnemonic :=
  [ .sll, .slt, .sltu, .xor, .srl, .sra, .or, .and, .slti, .sltiu, .xori, .ori, .andi, .slli,
    .lui, .jal, .jalr, .bltu, .bgeu, .lw, .sw ]

/-! ## The encoder, from the same tables (R71, R76 to R80, R84). Bits 31:25 that a Direct entry does
not consult are written as 0 (log 9). -/

def encodeR (f7 : BitVec 7) (f3 : BitVec 3) (op : BitVec 7) (rd rs1 rs2 : Reg) : Word :=
  f7 ++ regBits rs2 ++ regBits rs1 ++ f3 ++ regBits rd ++ op

def encodeI (f3 : BitVec 3) (op : BitVec 7) (rd rs1 : Reg) (imm : Word) : Word :=
  imm.extractLsb' 0 12 ++ regBits rs1 ++ f3 ++ regBits rd ++ op

def encodeS (f3 : BitVec 3) (op : BitVec 7) (rs1 rs2 : Reg) (imm : Word) : Word :=
  imm.extractLsb' 5 7 ++ regBits rs2 ++ regBits rs1 ++ f3 ++ imm.extractLsb' 0 5 ++ op

def encodeB (f3 : BitVec 3) (op : BitVec 7) (rs1 rs2 : Reg) (imm : Word) : Word :=
  imm.extractLsb' 12 1 ++ imm.extractLsb' 5 6 ++ regBits rs2 ++ regBits rs1 ++ f3 ++
    imm.extractLsb' 1 4 ++ imm.extractLsb' 11 1 ++ op

def encodeU (op : BitVec 7) (rd : Reg) (imm : Word) : Word :=
  imm.extractLsb' 0 20 ++ regBits rd ++ op

def encodeJ (op : BitVec 7) (rd : Reg) (imm : Word) : Word :=
  imm.extractLsb' 20 1 ++ imm.extractLsb' 1 10 ++ imm.extractLsb' 11 1 ++ imm.extractLsb' 12 8 ++
    regBits rd ++ op

/-- The word of an instruction. -/
def encode (i : Instr) : Word :=
  match i with
  | .add rd rs1 rs2 => encodeR 0b0000000#7 0b000#3 0b0110011#7 rd rs1 rs2
  | .sub rd rs1 rs2 => encodeR 0b0100000#7 0b000#3 0b0110011#7 rd rs1 rs2
  | .sll rd rs1 rs2 => encodeR 0b0000000#7 0b001#3 0b0110011#7 rd rs1 rs2
  | .slt rd rs1 rs2 => encodeR 0b0000000#7 0b010#3 0b0110011#7 rd rs1 rs2
  | .sltu rd rs1 rs2 => encodeR 0b0000000#7 0b011#3 0b0110011#7 rd rs1 rs2
  | .xor rd rs1 rs2 => encodeR 0b0000000#7 0b100#3 0b0110011#7 rd rs1 rs2
  | .srl rd rs1 rs2 => encodeR 0b0000000#7 0b101#3 0b0110011#7 rd rs1 rs2
  | .sra rd rs1 rs2 => encodeR 0b0100000#7 0b101#3 0b0110011#7 rd rs1 rs2
  | .or rd rs1 rs2 => encodeR 0b0000000#7 0b110#3 0b0110011#7 rd rs1 rs2
  | .and rd rs1 rs2 => encodeR 0b0000000#7 0b111#3 0b0110011#7 rd rs1 rs2
  | .addi rd rs1 imm => encodeI 0b000#3 0b0010011#7 rd rs1 imm
  | .slti rd rs1 imm => encodeI 0b010#3 0b0010011#7 rd rs1 imm
  | .sltiu rd rs1 imm => encodeI 0b011#3 0b0010011#7 rd rs1 imm
  | .xori rd rs1 imm => encodeI 0b100#3 0b0010011#7 rd rs1 imm
  | .ori rd rs1 imm => encodeI 0b110#3 0b0010011#7 rd rs1 imm
  | .andi rd rs1 imm => encodeI 0b111#3 0b0010011#7 rd rs1 imm
  | .slli rd rs1 imm => encodeI 0b001#3 0b0010011#7 rd rs1 imm
  | .srli rd rs1 imm => encodeI 0b101#3 0b0010011#7 rd rs1 imm
  | .srai rd rs1 imm => encodeI 0b101#3 0b0010011#7 rd rs1 imm
  | .lui rd imm => encodeU 0b0110111#7 rd imm
  | .auipc rd imm => encodeU 0b0010111#7 rd imm
  | .beq rs1 rs2 imm => encodeB 0b000#3 0b1100011#7 rs1 rs2 imm
  | .bne rs1 rs2 imm => encodeB 0b001#3 0b1100011#7 rs1 rs2 imm
  | .blt rs1 rs2 imm => encodeB 0b100#3 0b1100011#7 rs1 rs2 imm
  | .bge rs1 rs2 imm => encodeB 0b101#3 0b1100011#7 rs1 rs2 imm
  | .bltu rs1 rs2 imm => encodeB 0b110#3 0b1100011#7 rs1 rs2 imm
  | .bgeu rs1 rs2 imm => encodeB 0b111#3 0b1100011#7 rs1 rs2 imm
  | .jal rd imm => encodeJ 0b1101111#7 rd imm
  | .jalr rd rs1 imm => encodeI 0b000#3 0b1100111#7 rd rs1 imm
  | .lw rd rs1 imm => encodeI 0b010#3 0b0000011#7 rd rs1 imm
  | .sw rs2 rs1 imm => encodeS 0b010#3 0b0100011#7 rs1 rs2 imm
  | .flw rd rs1 imm => encodeI 0b010#3 0b0000111#7 rd rs1 imm
  | .fsw rs2 rs1 imm => encodeS 0b010#3 0b0100111#7 rs1 rs2 imm
  | .fadd rd rs1 rs2 rm => encodeR 0b0000000#7 rm 0b1010011#7 rd rs1 rs2
  | .fsub rd rs1 rs2 rm => encodeR 0b0000100#7 rm 0b1010011#7 rd rs1 rs2
  | .fmul rd rs1 rs2 rm => encodeR 0b0001000#7 rm 0b1010011#7 rd rs1 rs2
  | .fdiv rd rs1 rs2 rm => encodeR 0b0001100#7 rm 0b1010011#7 rd rs1 rs2

end Sys2Proof
end

