-- ==== Sys2Proof/Machine/ResetParams.lean ====
section
/-! DEFINITION. The parameter values of the one launch that `State.reset` is. The spec leaves every one
of them OPEN (00_scope.md R8); the values are those that 95_test_vectors.md uses throughout. -/

namespace Sys2Proof.Machine

/-- The parameters of `State.reset`. DESIGN CHOICE, log 3: no statement of the model rests on them but
those that say so, and a run may be launched with any others. -/
def resetParams : Params :=
  { fetchMode := .linear
    memCapacity := 64
    readLatency := 3
    writeLatency := 5
    cycleLimit := 0
    extSupported := extendedSet
    fpOps := .given 0 }

end Sys2Proof.Machine
end

