-- ==== Sys2Proof/Machine/State.lean ====
section
/-! DEFINITION. The state of the machine (10_state.md), the reasons a step can stop, and the state after
reset (70_reset_and_hazards.md R200). -/

namespace Sys2Proof.Machine

/-- The faults of 60_exceptions.md R181. An instruction's meaning answers the first three, the Fetch
step the fourth, the image loader the fifth. `step` never answers a fault: it turns one into the
final state the spec gives, status `faulted` (R186, R219; log 13). -/
inductive Fault where
  /-- Code 1 (R182). Raised by `lw`, `sw`, `flw`, `fsw` out of bounds. Records the effective address.
  Safe: the spec names it. -/
  | bounds (ea : Word)
  /-- Code 2 (R183). Raised by `lw`, `sw`, `flw`, `fsw` in bounds but not aligned. Records the effective
  address. Safe: the spec names it. -/
  | misalignedAccess (ea : Word)
  /-- Code 3 (R184). Raised by a taken branch, `jal` or `jalr` whose target is not a multiple of 4.
  Records the target. Safe: the spec names it. -/
  | misalignedTarget (target : Word)
  /-- Code 4 (R185). Raised by the Fetch step in Looping mode when `pc` indexes no instruction. Records
  `pc`. Safe: the spec names it. -/
  | fetchOutOfStream (pc : Word)
  /-- Code 5 (R189). Raised by the image loader before cycle 0, never by a step. Safe: the spec names
  it. -/
  | ioError
deriving DecidableEq, Repr

/-- The refusals. No step and no meaning answers one. -/
inductive Refusal where
  /-- An instruction with no meaning in `exec`. No arm of `exec` is one. Safe. -/
  | notModelled (mnemonic : String)
  /-- Launch inputs outside the bounds of R8 (93_implementation_defined.md I15): raised by the launch,
  before cycle 0. Safe. -/
  | invalidLaunch
deriving DecidableEq, Repr

/-- How a run stands (R39); `faulted` carries the fault, whose code and info are R181's. -/
inductive Status where
  | running | halted | limitReached
  | faulted (f : Fault)
deriving DecidableEq, Repr

/-- The four stages (R19, R37). -/
inductive Stage where
  | fetch | decode | execute | store
deriving DecidableEq, Repr

/-- An in-flight instruction (R31): its index in the stream, its fetch address, its word, its decoded
form and the cycle in which it entered its current slot. -/
structure InFlight where
  idx   : Nat
  ipc   : Word
  word  : Word
  dec   : DecodedInstruction
  enter : Nat
deriving DecidableEq, Repr

/-- A trace event (R37). -/
structure TraceEvent where
  idx   : Nat
  stage : Stage
  cycle : Nat
deriving DecidableEq, Repr

/-- Data memory (R50): the listed bytes, in the canonical form of Machine/Memory.lean. -/
abbrev Memory := List Host.Cell

/-- The state of the machine (10_state.md), with the parameters of the run (R8, R43; log 2). -/
structure State where
  /-- The parameters of R8, fixed for a run. -/
  params : Params
  /-- The instruction stream `PROG`, fixed for a run (R43, R51). -/
  prog   : List Word
  /-- The integer register file (R20). Read and written through `readX` and `writeX` only. -/
  x      : Vector Word 32
  /-- The floating register file, bit patterns (R24). -/
  f      : Vector Word 32
  /-- The fetch program counter, a byte address in the stream (R27). -/
  pc     : Word
  /-- The Fetch slot (R30). -/
  slotF  : Option InFlight
  /-- The Decode slot (R30). -/
  slotD  : Option InFlight
  /-- The Execute slot (R30). -/
  slotE  : Option InFlight
  /-- The Store slot (R30). -/
  slotS  : Option InFlight
  /-- The stall counter (R33). -/
  stall  : Nat
  /-- The halt flag (R34). -/
  halt   : Bool
  /-- The number of completed cycles, which is the number of the cycle being executed (R35). -/
  cycle  : Nat
  /-- The memory latency accumulator (R36). -/
  ticks  : Nat
  /-- Data memory (R50). -/
  mem    : Memory
  /-- The trace log (R37). -/
  trace  : List TraceEvent
  /-- The unrecognized-instruction observations: index, word, cycle (R38). -/
  unrec  : List (Nat × Word × Nat)
  /-- How the run stands (R39). -/
  status : Status
deriving DecidableEq, Repr

/-- What a meaning and a step answer. -/
abbrev Result := Host.Outcome State Fault Refusal

/-- The machine right after reset (R200). The values R200 states are its; the launch inputs, which it
leaves to the host, are the parameters of `resetParams` (log 3), the empty stream (log 6), zero
registers (log 4) and zero memory (log 5). `State.launch` is the same for any launch inputs. -/
def State.reset : State :=
  { params := resetParams
    prog := []
    x := Vector.replicate 32 0#32
    f := Vector.replicate 32 0#32
    pc := 0#32
    slotF := none
    slotD := none
    slotE := none
    slotS := none
    stall := 0
    halt := false
    cycle := 0
    ticks := 0
    mem := []
    trace := []
    unrec := []
    status := .running }

end Sys2Proof.Machine
end

