-- ==== Sys2Proof/Machine/Memory.lean ====
section
/-! DEFINITION. Data memory as a list of listed bytes in canonical form (20_memory.md R50, R54, R55). -/

namespace Sys2Proof.Machine

/-- What an address that is not listed reads as. Any contents can be listed, so this limits no run;
it decides what `State.reset`'s empty list holds. DESIGN CHOICE, log 5. -/
def Memory.unlisted : Byte := 0#8

/-- The byte at an address. -/
def Memory.readByte : Memory → Nat → Byte
  | [], _ => Memory.unlisted
  | (k, b) :: rest, a => if k = a then b else Memory.readByte rest a

/-- A cell put before a memory, unless its byte is what an unlisted address reads as. -/
def Memory.cons (a : Nat) (v : Byte) (m : Memory) : Memory :=
  if v = Memory.unlisted then m else (a, v) :: m

/-- The memory with one byte written, in canonical form again. -/
def Memory.writeByte : Memory → Nat → Byte → Memory
  | [], a, v => Memory.cons a v []
  | (k, b) :: rest, a, v =>
    if a < k then Memory.cons a v ((k, b) :: rest)
    else if a = k then Memory.cons a v rest
    else (k, b) :: Memory.writeByte rest a v

/-- The canonical form: addresses strictly rising, no listed byte that an unlisted address reads as. -/
def Memory.wf : Memory → Bool
  | [] => true
  | (a, v) :: rest =>
    v ≠ Memory.unlisted && rest.all (fun c => decide (a < c.1)) && Memory.wf rest

/-- Every listed address is below the capacity (R50). -/
def Memory.below (cap : Nat) (m : Memory) : Bool := m.all (fun c => decide (c.1 < cap))

/-- The little-endian word at an address (R54): the byte at the lowest address is the least
significant. -/
def Memory.readWord (m : Memory) (a : Nat) : Word :=
  m.readByte (a + 3) ++ m.readByte (a + 2) ++ m.readByte (a + 1) ++ m.readByte a

/-- The memory with a little-endian word written (R55). -/
def Memory.writeWord (m : Memory) (a : Nat) (v : Word) : Memory :=
  (((m.writeByte a (v.extractLsb' 0 8)).writeByte (a + 1) (v.extractLsb' 8 8)).writeByte (a + 2)
    (v.extractLsb' 16 8)).writeByte (a + 3) (v.extractLsb' 24 8)

/-- The canonical memory that holds the given bytes from an address on. -/
def Memory.ofBytesAt : Nat → List Byte → Memory
  | _, [] => []
  | a, b :: rest => Memory.cons a b (Memory.ofBytesAt (a + 1) rest)

/-- The canonical memory that holds `INIT_MEM` (R59): byte `a` is entry `a` of the list. -/
def Memory.ofBytes (bytes : List Byte) : Memory := Memory.ofBytesAt 0 bytes

end Sys2Proof.Machine
end

