-- ==== Sys2Proof/Machine/Ops.lean ====
section
/-! DEFINITION. The named operations over registers, memory and pipeline control that meanings and the
cycle share: register access, the word access interface, raising a fault, redirect, halt, stall,
trace and the unrecognized-instruction observation. -/

namespace Sys2Proof.Machine

/-! ## Parameters (R8, R111) -/

/-- Whether the dispatcher supports a mnemonic: the core set always, the extended set by
`EXT_SUPPORTED` (R111). -/
def supports (p : Params) (m : Mnemonic) : Bool :=
  !extendedSet.contains m || p.extSupported.contains m

/-! ## Registers (R20, R21, R24) -/

/-- `x[r]`: register 0 reads as 0 (R21). -/
def State.readX (s : State) (r : Reg) : Word := if r = 0 then 0#32 else s.x.get r

/-- The register file with register `r` set; register 0 is never set (R21). -/
def setReg (file : Vector Word 32) (r : Reg) (v : Word) : Vector Word 32 := file.set r.val v r.isLt

/-- `x[r] <- v`: a write to register 0 is discarded (R21). -/
def State.writeX (s : State) (r : Reg) (v : Word) : State :=
  { s with x := if r = 0 then s.x else setReg s.x r v }

/-- `f[r]`: every floating register is an ordinary one (R24). -/
def State.readF (s : State) (r : Reg) : Word := s.f.get r

/-- `f[r] <- v` (R24). -/
def State.writeF (s : State) (r : Reg) (v : Word) : State := { s with f := setReg s.f r v }

/-! ## The instruction stream (R51, R60, R211, R212) -/

/-- The stream word an address indexes, if it indexes one (R60). -/
def State.streamWord (s : State) (a : Word) : Option Word :=
  if a.toNat % 4 = 0 then s.prog[a.toNat / 4]? else none

/-- `advance(pc)`: the next fetch address, in Linear mode modulo 2^32 (R211), in Looping mode modulo
4N (R212). -/
def State.advance (s : State) (a : Word) : Word :=
  match s.params.fetchMode with
  | .linear => a + 4#32
  | .looping => BitVec.ofNat 32 ((a.toNat + 4) % (4 * s.prog.length))

/-- The in-flight record that a fetch of word `w` at the pc makes (R31, R203). -/
def State.fetched (s : State) (w : Word) : InFlight :=
  { idx := s.pc.toNat / 4, ipc := s.pc, word := w, dec := decode w, enter := s.cycle }

/-- The instruction being committed: the one in the Execute slot (R204). With that slot empty, which
the cycle never meets, it is the instruction at the pc (log 14). -/
def State.current (s : State) : InFlight :=
  match s.slotE with
  | some e => e
  | none => s.fetched ((s.streamWord s.pc).getD 0#32)

/-- `ipc`: the fetch address of the instruction being committed (R15). -/
def State.ipc (s : State) : Word := s.current.ipc

/-! ## Faults (R180, R181, R186, R219) -/

/-- The code of a fault (R181). -/
def Fault.code (f : Fault) : Nat :=
  match f with
  | .bounds _ => 1
  | .misalignedAccess _ => 2
  | .misalignedTarget _ => 3
  | .fetchOutOfStream _ => 4
  | .ioError => 5

/-- What a fault records (R181). -/
def Fault.info (f : Fault) : Option Word :=
  match f with
  | .bounds ea => some ea
  | .misalignedAccess ea => some ea
  | .misalignedTarget t => some t
  | .fetchOutOfStream pc => some pc
  | .ioError => none

/-- The end of a run by a fault: the state of the start of the faulting cycle, with only the status
changed (R186, R219). There is no entry to a handler and no return from one (R192, R193). -/
def State.enterFault (s : State) (f : Fault) : State := { s with status := .faulted f }

/-! ## The word access interface (R53 to R57) -/

/-- The checks of an access to an address: bounds first, on unbounded integers, then alignment
(R53, R57). -/
def State.accessFault (s : State) (ea : Word) : Option Fault :=
  if s.params.memCapacity < ea.toNat + 4 then some (.bounds ea)
  else if ea.toNat % 4 ≠ 0 then some (.misalignedAccess ea)
  else none

/-- `ticks` with the read latency charged (R54, R56). -/
def State.chargeRead (s : State) : State := { s with ticks := s.ticks + s.params.readLatency }

/-- The four bytes written and the write latency charged (R55, R56). -/
def State.storeWord (s : State) (ea : Word) (v : Word) : State :=
  { s with mem := s.mem.writeWord ea.toNat v, ticks := s.ticks + s.params.writeLatency }

/-- `MemRead(ea, 4)`, then what is done with the word (R54). -/
def State.memRead (s : State) (ea : Word) (use : Word → State → State) : Result :=
  match s.accessFault ea with
  | some f => .fault f
  | none => .next (use (s.mem.readWord ea.toNat) s.chargeRead)

/-- `MemWrite(ea, 4, v)` (R55). -/
def State.memWrite (s : State) (ea : Word) (v : Word) : Result :=
  match s.accessFault ea with
  | some f => .fault f
  | none => .next (s.storeWord ea v)

/-! ## Redirect, halt, stall (R206 to R208) -/

/-- A redirect and its flush (R207). -/
def State.redirect (s : State) (t : Word) : State := { s with pc := t, slotF := none, slotD := none }

/-- A halt and its flush (R208). -/
def State.haltFlush (s : State) : State := { s with halt := true, slotF := none, slotD := none }

/-- Stall cycles injected (R206). -/
def State.addStall (s : State) (n : Nat) : State := { s with stall := s.stall + n }

/-- A target is aligned when it is a multiple of 4 (R151). -/
abbrev targetAligned (t : Word) : Prop := t.toNat % 4 = 0

/-- A control transfer to `t` after the effects of `link`, or `MisalignedTarget`, which is raised before
any effect (R147, R151). -/
def State.transfer (s : State) (t : Word) (link : State → State) : Result :=
  if targetAligned t then .next ((link s).redirect t) else .fault (.misalignedTarget t)

/-- `commitBranch` (R140): taken, not taken in Looping mode, not taken in Linear mode. -/
def State.branch (s : State) (taken : Bool) (target : Word) : Result :=
  if taken then s.transfer target id
  else match s.params.fetchMode with
    | .looping => .next s.haltFlush
    | .linear => .next s

/-! ## Observations (R37, R38, R188, R220) -/

/-- The trace with one event logged: older events of the same entry and stage are purged first
(R220). -/
def logEvent (trace : List TraceEvent) (idx : Nat) (stage : Stage) (c : Nat) : List TraceEvent :=
  trace.filter (fun e => !(e.idx == idx && e.stage == stage)) ++ [⟨idx, stage, c⟩]

/-- `logTrace(idx, stage, c)` in the current cycle (R220). -/
def State.logTrace (s : State) (idx : Nat) (stage : Stage) : State :=
  { s with trace := logEvent s.trace idx stage s.cycle }

/-- The commit of an unrecognized instruction: an architectural no-op with an observation (R188). -/
def State.recordUnrecognized (s : State) : State :=
  { s with unrec := s.unrec ++ [(s.current.idx, s.current.word, s.cycle)] }

/-- The support gate (R111): an extended mnemonic that is not supported commits as unrecognized. -/
def State.gated (s : State) (m : Mnemonic) (commit : Result) : Result :=
  if supports s.params m then commit else .next s.recordUnrecognized

end Sys2Proof.Machine
end

