-- ==== Sys2Proof/Machine/Operands.lean ====
section
/-! DEFINITION. The operand forms: what an instruction computes from its registers, immediate and own
address before it acts. -/

namespace Sys2Proof.Machine

/-- The effective address of a load or store, modulo 2^32 (42_loadstore.md R160). -/
def State.effectiveAddress (s : State) (base : Reg) (imm : Word) : Word := s.readX base + imm

/-- A shift amount: the low 5 bits of a register or of an immediate (R134). -/
def shiftAmount (v : Word) : Nat := (v.extractLsb' 0 5).toNat

/-- The upper immediate as executed: the 20-bit field shifted left by 12 (R131, R132). -/
def upperImmediate (imm : Word) : Word := imm <<< 12

/-- The target of a branch or `jal`, relative to the instruction's own address (R140, R147). -/
def State.relativeTarget (s : State) (imm : Word) : Word := s.ipc + imm

/-- The target of `jalr`, bit 0 cleared (R148). -/
def State.registerTarget (s : State) (base : Reg) (imm : Word) : Word :=
  (s.readX base + imm) &&& 0xFFFFFFFE#32

/-- The link value of a jump (R147, R148). -/
def State.linkValue (s : State) : Word := s.ipc + 4#32

end Sys2Proof.Machine
end

