-- ==== Sys2Proof/Machine/Flags.lean ====
section
/-! DEFINITION. The hardware has no condition codes or flags (10_state.md R40). What stands in their
place is here: the comparisons that the compare and branch instructions make directly between two
words, and the word a comparison writes. -/

namespace Sys2Proof.Machine

/-- `s(a) < s(b)` (R10, R115, R143). -/
def lessSigned (a b : Word) : Bool := decide (a.toInt < b.toInt)

/-- `u(a) < u(b)` (R10, R116, R145). -/
def lessUnsigned (a b : Word) : Bool := decide (a.toNat < b.toNat)

/-- The word of a condition: 1 or 0 (R115, R116). -/
def conditionWord (c : Bool) : Word := if c then 1#32 else 0#32

end Sys2Proof.Machine
end

