-- ==== Sys2Proof/Machine/Control.lean ====
section
/-! DEFINITION. The meanings of the branches and jumps (41_control.md). -/

namespace Sys2Proof.Machine

/-- R141. -/
def execBeq (rs1 rs2 : Reg) (imm : Word) (s : State) : Result :=
  s.branch (s.readX rs1 == s.readX rs2) (s.relativeTarget imm)

/-- R142. -/
def execBne (rs1 rs2 : Reg) (imm : Word) (s : State) : Result :=
  s.branch (s.readX rs1 != s.readX rs2) (s.relativeTarget imm)

/-- R143. -/
def execBlt (rs1 rs2 : Reg) (imm : Word) (s : State) : Result :=
  s.branch (lessSigned (s.readX rs1) (s.readX rs2)) (s.relativeTarget imm)

/-- R144. -/
def execBge (rs1 rs2 : Reg) (imm : Word) (s : State) : Result :=
  s.branch (!lessSigned (s.readX rs1) (s.readX rs2)) (s.relativeTarget imm)

/-- R145. -/
def execBltu (rs1 rs2 : Reg) (imm : Word) (s : State) : Result :=
  s.gated .bltu (s.branch (lessUnsigned (s.readX rs1) (s.readX rs2)) (s.relativeTarget imm))

/-- R146. -/
def execBgeu (rs1 rs2 : Reg) (imm : Word) (s : State) : Result :=
  s.gated .bgeu (s.branch (!lessUnsigned (s.readX rs1) (s.readX rs2)) (s.relativeTarget imm))

/-- R147. -/
def execJal (rd : Reg) (imm : Word) (s : State) : Result :=
  s.gated .jal (s.transfer (s.relativeTarget imm) (fun t => t.writeX rd s.linkValue))

/-- R148: the target is computed before `rd` is written. -/
def execJalr (rd rs1 : Reg) (imm : Word) (s : State) : Result :=
  s.gated .jalr (s.transfer (s.registerTarget rs1 imm) (fun t => t.writeX rd s.linkValue))

end Sys2Proof.Machine
end

