-- ==== Sys2Proof/Machine/FloatReference.lean ====
section
/-! DEFINITION. The reference instance of `FP_OPS` (43_float.md R170): IEEE 754 binary32 addition,
subtraction, multiplication and division, round to nearest, ties to even, for every `rm`. Values are
computed exactly as integers times powers of two and rounded once. The spec marks the instance as
general knowledge; the format's layout is PRESUMED from IEEE 754 (log 8). -/

namespace Sys2Proof.Machine

/-- A binary32 pattern read as a value: finite ones are `(-1)^sign * mant * 2^exp`. -/
inductive FloatValue where
  | nan
  | inf (sign : Bool)
  | finite (sign : Bool) (mant : Nat) (exp : Int)
deriving DecidableEq, Repr

/-- The sign bit of a pattern. -/
def signOf (w : Word) : Bool := w.msb

/-- The value of a pattern. -/
def unpackFloat (w : Word) : FloatValue :=
  let e := (w.extractLsb' 23 8).toNat
  let m := (w.extractLsb' 0 23).toNat
  if e = 255 then if m = 0 then .inf (signOf w) else .nan
  else if e = 0 then .finite (signOf w) m (-149)
  else .finite (signOf w) (m + 2 ^ 23) ((e : Int) - 150)

/-- A pattern from its three fields. -/
def packFields (sign : Bool) (e m : Nat) : Word :=
  BitVec.ofBool sign ++ BitVec.ofNat 8 e ++ BitVec.ofNat 23 m

def packInf (sign : Bool) : Word := packFields sign 255 0
def packZero (sign : Bool) : Word := packFields sign 0 0

/-- The quiet NaN an operation on `a` and `b` gives: its sign and payload are the host's (log 8). -/
def packNan (op : FpOp) (a b : Word) : Word :=
  (Config.hostNan op a b).1 ++ 0x1FF#9 ++ (Config.hostNan op a b).2

/-- `mant / 2^d` rounded to the nearest integer, ties to even. -/
def roundShift (mant d : Nat) : Nat :=
  let q := mant >>> d
  let r := 2 * (mant % 2 ^ d)
  if r > 2 ^ d ∨ (r = 2 ^ d ∧ q % 2 = 1) then q + 1 else q

/-- The pattern nearest to `(-1)^sign * mant * 2^exp`, ties to even, `mant` not 0. The unit in the last
place is `2^lsb`, at least the smallest subnormal; a result too large is infinity. -/
def roundFloat (sign : Bool) (mant : Nat) (exp : Int) : Word :=
  let lsb : Int := max (exp + (mant.log2 : Int) - 23) (-149)
  let m : Nat :=
    if lsb ≤ exp then mant <<< (exp - lsb).toNat else roundShift mant (lsb - exp).toNat
  let m' : Nat := if m = 2 ^ 24 then 2 ^ 23 else m
  let lsb' : Int := if m = 2 ^ 24 then lsb + 1 else lsb
  if m' < 2 ^ 23 then packFields sign 0 m'
  else if 105 ≤ lsb' then packInf sign
  else packFields sign (lsb' + 150).toNat (m' - 2 ^ 23)

/-- A finite value as an integer multiple of `2^e`, for `e` at most its exponent. -/
def scaledInt (sign : Bool) (mant : Nat) (exp e : Int) : Int :=
  let v : Int := (mant <<< (exp - e).toNat : Nat)
  if sign then -v else v

/-- The sum of two values, for the operation named (the second operand of a subtraction comes with its
sign inverted). -/
def addValues (op : FpOp) (a b : Word) (va vb : FloatValue) : Word :=
  match va, vb with
  | .nan, _ => packNan op a b
  | _, .nan => packNan op a b
  | .inf sa, .inf sb => if sa = sb then packInf sa else packNan op a b
  | .inf sa, .finite _ _ _ => packInf sa
  | .finite _ _ _, .inf sb => packInf sb
  | .finite sa ma ea, .finite sb mb eb =>
    let e := min ea eb
    let sum := scaledInt sa ma ea e + scaledInt sb mb eb e
    if sum = 0 then packZero (sa && sb) else roundFloat (decide (sum < 0)) sum.natAbs e

/-- A value with its sign inverted. -/
def FloatValue.neg (v : FloatValue) : FloatValue :=
  match v with
  | .nan => .nan
  | .inf s => .inf (!s)
  | .finite s m e => .finite (!s) m e

/-- Reference addition. -/
def refAdd (a b : Word) : Word := addValues .add a b (unpackFloat a) (unpackFloat b)

/-- Reference subtraction. -/
def refSub (a b : Word) : Word := addValues .sub a b (unpackFloat a) (unpackFloat b).neg

/-- Reference multiplication. -/
def refMul (a b : Word) : Word :=
  match unpackFloat a, unpackFloat b with
  | .nan, _ => packNan .mul a b
  | _, .nan => packNan .mul a b
  | .inf sa, .inf sb => packInf (sa != sb)
  | .inf sa, .finite sb mb _ => if mb = 0 then packNan .mul a b else packInf (sa != sb)
  | .finite sa ma _, .inf sb => if ma = 0 then packNan .mul a b else packInf (sa != sb)
  | .finite sa ma ea, .finite sb mb eb =>
    if ma * mb = 0 then packZero (sa != sb) else roundFloat (sa != sb) (ma * mb) (ea + eb)

/-- Reference division. The quotient is taken to 64 binary places, with a last bit that says whether
anything is left over, which is all that rounding once needs. -/
def refDiv (a b : Word) : Word :=
  match unpackFloat a, unpackFloat b with
  | .nan, _ => packNan .div a b
  | _, .nan => packNan .div a b
  | .inf _, .inf _ => packNan .div a b
  | .inf sa, .finite sb _ _ => packInf (sa != sb)
  | .finite sa _ _, .inf sb => packZero (sa != sb)
  | .finite sa ma ea, .finite sb mb eb =>
    if mb = 0 then if ma = 0 then packNan .div a b else packInf (sa != sb)
    else if ma = 0 then packZero (sa != sb)
    else
      let n := ma <<< 64
      roundFloat (sa != sb) (2 * (n / mb) + (if n % mb = 0 then 0 else 1)) (ea - eb - 65)

end Sys2Proof.Machine
end

