-- ==== Sys2Proof/Machine/Float.lean ====
section
/-! DEFINITION. The meanings of the floating arithmetic instructions (43_float.md), over the `FP_OPS` of
the run. -/

namespace Sys2Proof.Machine

/-- `FP_OPS.fadd` of the run (R170). -/
def fpAdd (o : FpInstance) (rm : BitVec 3) (a b : Word) : Word :=
  match o with
  | .given k => Config.fadd k rm a b
  | .reference => refAdd a b

/-- `FP_OPS.fsub` of the run (R170). -/
def fpSub (o : FpInstance) (rm : BitVec 3) (a b : Word) : Word :=
  match o with
  | .given k => Config.fsub k rm a b
  | .reference => refSub a b

/-- `FP_OPS.fmul` of the run (R170). -/
def fpMul (o : FpInstance) (rm : BitVec 3) (a b : Word) : Word :=
  match o with
  | .given k => Config.fmul k rm a b
  | .reference => refMul a b

/-- `FP_OPS.fdiv` of the run (R170). -/
def fpDiv (o : FpInstance) (rm : BitVec 3) (a b : Word) : Word :=
  match o with
  | .given k => Config.fdiv k rm a b
  | .reference => refDiv a b

/-- `f[rd] <- v; stall <- stall + 2` and nothing else: the common contract of the family (R171). -/
def State.writesFloat (s : State) (rd : Reg) (v : Word) : Result :=
  .next ((s.writeF rd v).addStall 2)

/-- R172. -/
def execFadd (rd rs1 rs2 : Reg) (rm : BitVec 3) (s : State) : Result :=
  s.writesFloat rd (fpAdd s.params.fpOps rm (s.readF rs1) (s.readF rs2))

/-- R173. -/
def execFsub (rd rs1 rs2 : Reg) (rm : BitVec 3) (s : State) : Result :=
  s.writesFloat rd (fpSub s.params.fpOps rm (s.readF rs1) (s.readF rs2))

/-- R174. -/
def execFmul (rd rs1 rs2 : Reg) (rm : BitVec 3) (s : State) : Result :=
  s.writesFloat rd (fpMul s.params.fpOps rm (s.readF rs1) (s.readF rs2))

/-- R175: division by zero is not a fault. -/
def execFdiv (rd rs1 rs2 : Reg) (rm : BitVec 3) (s : State) : Result :=
  s.writesFloat rd (fpDiv s.params.fpOps rm (s.readF rs1) (s.readF rs2))

end Sys2Proof.Machine
end

