-- ==== Sys2Proof/Machine/Integer.lean ====
section
/-! DEFINITION. The meanings of the integer computational instructions (40_integer.md). -/

namespace Sys2Proof.Machine

/-- `x[rd] <- v` and nothing else: the common contract of the family (R110). -/
def State.writesX (s : State) (rd : Reg) (v : Word) : Result := .next (s.writeX rd v)

/-- R112. -/
def execAdd (rd rs1 rs2 : Reg) (s : State) : Result := s.writesX rd (s.readX rs1 + s.readX rs2)

/-- R113. -/
def execSub (rd rs1 rs2 : Reg) (s : State) : Result := s.writesX rd (s.readX rs1 - s.readX rs2)

/-- R114. -/
def execSll (rd rs1 rs2 : Reg) (s : State) : Result :=
  s.gated .sll (s.writesX rd (s.readX rs1 <<< shiftAmount (s.readX rs2)))

/-- R115. -/
def execSlt (rd rs1 rs2 : Reg) (s : State) : Result :=
  s.gated .slt (s.writesX rd (conditionWord (lessSigned (s.readX rs1) (s.readX rs2))))

/-- R116. -/
def execSltu (rd rs1 rs2 : Reg) (s : State) : Result :=
  s.gated .sltu (s.writesX rd (conditionWord (lessUnsigned (s.readX rs1) (s.readX rs2))))

/-- R117. -/
def execXor (rd rs1 rs2 : Reg) (s : State) : Result :=
  s.gated .xor (s.writesX rd (s.readX rs1 ^^^ s.readX rs2))

/-- R118. -/
def execSrl (rd rs1 rs2 : Reg) (s : State) : Result :=
  s.gated .srl (s.writesX rd (s.readX rs1 >>> shiftAmount (s.readX rs2)))

/-- R119. -/
def execSra (rd rs1 rs2 : Reg) (s : State) : Result :=
  s.gated .sra (s.writesX rd ((s.readX rs1).sshiftRight (shiftAmount (s.readX rs2))))

/-- R120. -/
def execOr (rd rs1 rs2 : Reg) (s : State) : Result :=
  s.gated .or (s.writesX rd (s.readX rs1 ||| s.readX rs2))

/-- R121. -/
def execAnd (rd rs1 rs2 : Reg) (s : State) : Result :=
  s.gated .and (s.writesX rd (s.readX rs1 &&& s.readX rs2))

/-- R122. -/
def execAddi (rd rs1 : Reg) (imm : Word) (s : State) : Result := s.writesX rd (s.readX rs1 + imm)

/-- R123. -/
def execSlti (rd rs1 : Reg) (imm : Word) (s : State) : Result :=
  s.gated .slti (s.writesX rd (conditionWord (lessSigned (s.readX rs1) imm)))

/-- R124: the immediate is the sign-extended word. -/
def execSltiu (rd rs1 : Reg) (imm : Word) (s : State) : Result :=
  s.gated .sltiu (s.writesX rd (conditionWord (lessUnsigned (s.readX rs1) imm)))

/-- R125. -/
def execXori (rd rs1 : Reg) (imm : Word) (s : State) : Result :=
  s.gated .xori (s.writesX rd (s.readX rs1 ^^^ imm))

/-- R126. -/
def execOri (rd rs1 : Reg) (imm : Word) (s : State) : Result :=
  s.gated .ori (s.writesX rd (s.readX rs1 ||| imm))

/-- R127. -/
def execAndi (rd rs1 : Reg) (imm : Word) (s : State) : Result :=
  s.gated .andi (s.writesX rd (s.readX rs1 &&& imm))

/-- R128: the shift amount is `imm[4:0]`, whatever the upper bits. -/
def execSlli (rd rs1 : Reg) (imm : Word) (s : State) : Result :=
  s.gated .slli (s.writesX rd (s.readX rs1 <<< shiftAmount imm))

/-- R129. -/
def execSrli (rd rs1 : Reg) (imm : Word) (s : State) : Result :=
  s.writesX rd (s.readX rs1 >>> shiftAmount imm)

/-- R130. -/
def execSrai (rd rs1 : Reg) (imm : Word) (s : State) : Result :=
  s.writesX rd ((s.readX rs1).sshiftRight (shiftAmount imm))

/-- R131. -/
def execLui (rd : Reg) (imm : Word) (s : State) : Result :=
  s.gated .lui (s.writesX rd (upperImmediate imm))

/-- R132: relative to the instruction's own fetch address. -/
def execAuipc (rd : Reg) (imm : Word) (s : State) : Result :=
  s.writesX rd (s.ipc + upperImmediate imm)

end Sys2Proof.Machine
end

