-- ==== Sys2Proof/Machine/LoadStore.lean ====
section
/-! DEFINITION. The meanings of the loads and stores (42_loadstore.md). -/

namespace Sys2Proof.Machine

/-- R162. -/
def execLw (rd rs1 : Reg) (imm : Word) (s : State) : Result :=
  s.gated .lw (s.memRead (s.effectiveAddress rs1 imm) (fun v t => t.writeX rd v))

/-- R163. -/
def execSw (rs2 rs1 : Reg) (imm : Word) (s : State) : Result :=
  s.gated .sw (s.memWrite (s.effectiveAddress rs1 imm) (s.readX rs2))

/-- R164: the pattern unchanged, and one stall cycle (R206). -/
def execFlw (rd rs1 : Reg) (imm : Word) (s : State) : Result :=
  s.memRead (s.effectiveAddress rs1 imm) (fun v t => (t.writeF rd v).addStall 1)

/-- R165: the pattern unchanged, no stall. -/
def execFsw (rs2 rs1 : Reg) (imm : Word) (s : State) : Result :=
  s.memWrite (s.effectiveAddress rs1 imm) (s.readF rs2)

end Sys2Proof.Machine
end

