-- ==== Sys2Proof/Machine/Pipeline.lean ====
section
/-! DEFINITION. The work of one cycle (70_reset_and_hazards.md R203): the Store, Execute, Decode and
Fetch steps, the stall decrement and the termination check. -/

namespace Sys2Proof.Machine

/-- `commit(e)` (R204): the rule of the record's instruction, or of an unrecognized one (R188). -/
def State.commit (s : State) (e : InFlight) : Result :=
  match e.dec.toInstr with
  | some i => exec i s
  | none => .next s.recordUnrecognized

/-- After a successful commit the record moves into the Store slot, which its old occupant has left,
and the Store event is logged (R204, R221). -/
def State.retire (s : State) (e : InFlight) : State :=
  { s with slotS := some { e with enter := s.cycle }, slotE := none }.logTrace e.idx .store

/-- The Store step (R204). -/
def State.storeStep (s : State) : Result :=
  match s.slotE with
  | none => .next { s with slotS := none }
  | some e =>
    match s.commit e with
    | .next t => .next (t.retire e)
    | .fault f => .fault f
    | .refused r => .refused r

/-- The Execute step: Decode to Execute (R209). -/
def State.executeStep (s : State) : State :=
  match s.slotD with
  | none => s
  | some d =>
    { s with slotE := some { d with enter := s.cycle }, slotD := none }.logTrace d.idx .execute

/-- The Decode step: Fetch to Decode (R209). -/
def State.decodeStep (s : State) : State :=
  match s.slotF with
  | none => s
  | some i =>
    { s with slotD := some { i with enter := s.cycle }, slotF := none }.logTrace i.idx .decode

/-- A valid fetch (R211, R212). -/
def State.fetchWord (s : State) (w : Word) : State :=
  { s with slotF := some (s.fetched w), pc := s.advance s.pc }.logTrace (s.pc.toNat / 4) .fetch

/-- The Fetch step (R211 to R214). -/
def State.fetchStep (s : State) : Result :=
  if s.halt then .next s
  else
    match s.streamWord s.pc with
    | some w => .next (s.fetchWord w)
    | none =>
      match s.params.fetchMode with
      | .looping => .fault (.fetchOutOfStream s.pc)
      | .linear =>
        if s.slotD = none ∧ s.slotE = none then .next { s with halt := true } else .next s

/-- The three gated steps, in the order Execute, Decode, Fetch; none is made while the stall counter
is not 0 (R209, R210). -/
def State.gatedSteps (s : State) : Result :=
  if s.stall = 0 then s.executeStep.decodeStep.fetchStep else .next s

/-- All four slots are empty. -/
def State.drained (s : State) : Bool :=
  s.slotF.isNone && s.slotD.isNone && s.slotE.isNone && s.slotS.isNone

/-- The status after the termination check (R217, R218). -/
def State.checkedStatus (s : State) : Status :=
  if s.halt && s.drained then .halted
  else if 0 < s.params.cycleLimit ∧ s.params.cycleLimit ≤ s.cycle then .limitReached
  else s.status

/-- The stall decrement and the cycle count (R215, R216). -/
def State.countCycle (s : State) : State := { s with stall := s.stall - 1, cycle := s.cycle + 1 }

/-- The end of a cycle: count, then check (R215 to R218). -/
def State.finishCycle (s : State) : State :=
  { s.countCycle with status := s.countCycle.checkedStatus }

/-- One cycle from a running state (R203). A fault anywhere abandons it: the state it started from, with
the status changed (R219). -/
def State.cycleStep (s : State) : Result :=
  match s.storeStep with
  | .fault f => .next (s.enterFault f)
  | .refused r => .refused r
  | .next t =>
    match t.gatedSteps with
    | .fault f => .next (s.enterFault f)
    | .refused r => .refused r
    | .next u => .next u.finishCycle

/-- A cycle is stalled when the stall counter is not 0 after its Store step (R230). -/
def State.stalled (s : State) : Bool :=
  match s.storeStep with
  | .next t => t.stall != 0
  | .fault _ => false
  | .refused _ => false

/-- The step of a state (R201, R203). A run that has ended does not go on: its state stays
(R180, R199; log 10). -/
def State.stepOnce (s : State) : Result :=
  if s.status = .running then s.cycleStep else .next s

/-- The stream with a word at an index, padded with zero words where it was shorter. -/
def putWord : List Word → Nat → Word → List Word
  | [], 0, w => [w]
  | _ :: rest, 0, w => w :: rest
  | [], k + 1, w => 0#32 :: putWord [] k w
  | v :: rest, k + 1, w => v :: putWord rest k w

/-- The running state in which the instruction at the pc is the word `w` and has come through Fetch and
Decode to Execute alone, so that the next cycle commits it (log 6). -/
def State.placeWord (s : State) (w : Word) : State :=
  let k := s.pc.toNat / 4
  let p : State := { s with prog := putWord s.prog k w }
  { p with
      slotF := none
      slotD := none
      slotE := some (s.fetched w)
      stall := 0
      halt := false
      pc := p.advance s.pc
      status := .running }

end Sys2Proof.Machine
end

