-- ==== Sys2Proof/Machine/Step.lean ====
section
/-! DEFINITION. The step of the machine, one cycle (70_reset_and_hazards.md R203; log 1), and the state in
which the next step runs a given word. -/

namespace Sys2Proof.Machine

/-- One simulated cycle (R203). -/
def step (s : State) : Host.Outcome State Fault Refusal := s.stepOnce

/-- `s` with the instruction whose bits are `w` placed so that the very next step commits it. The
pipeline commits an instruction in its fourth cycle, so the word stands in the stream at the pc and in
the Execute slot (log 6). -/
def State.withFetchWord (s : State) (nbits w : Nat) : State :=
  s.placeWord (BitVec.ofNat 32 (w % 2 ^ nbits))

end Sys2Proof.Machine
end

