-- ==== Sys2Proof/Machine/Launch.lean ====
section
/-! DEFINITION. The launch of a run (70_reset_and_hazards.md R200, R201) and the image loader
(20_memory.md R61). -/

namespace Sys2Proof.Machine

/-- The launch state (R200): every field at the value R200 states, from the launch inputs. `x0` is 0
whatever `INIT_X[0]` is (R21). -/
def State.launch (p : Params) (prog : List Word) (initX initF : Vector Word 32)
    (initMem : List Byte) : State :=
  { params := p
    prog := prog
    x := initX.set 0 0#32
    f := initF
    pc := 0#32
    slotF := none
    slotD := none
    slotE := none
    slotS := none
    stall := 0
    halt := false
    cycle := 0
    ticks := 0
    mem := Memory.ofBytes initMem
    trace := []
    unrec := []
    status := .running }

/-- The bounds that R8 puts on the launch inputs: a capacity of at most 2^32 bytes, a stream of at most
2^30 words, `INIT_MEM` of exactly the capacity. -/
def launchOk (p : Params) (prog : List Word) (initMem : List Byte) : Bool :=
  decide (p.memCapacity ≤ 2 ^ 32) && decide (prog.length ≤ 2 ^ 30) &&
    decide (initMem.length = p.memCapacity)

/-- A launch from a stream given directly (R201). Inputs outside R8's bounds are refused before cycle 0
(I15; log 12). -/
def launchStream (p : Params) (prog : List Word) (initX initF : Vector Word 32)
    (initMem : List Byte) : Result :=
  if launchOk p prog initMem then .next (State.launch p prog initX initF initMem)
  else .refused .invalidLaunch

/-- The whole words of an image, 4 bytes each, little-endian; a final fragment is ignored (R61). -/
def imageWords : List Byte → List Word
  | b0 :: b1 :: b2 :: b3 :: rest => (b3 ++ b2 ++ b1 ++ b0) :: imageWords rest
  | _ => []

/-- The words kept after the last one kept: a word equal to it is not added (R61). -/
def collapseRepeats : Option Word → List Word → List Word
  | _, [] => []
  | last, w :: rest =>
    if last = some w then collapseRepeats last rest else w :: collapseRepeats (some w) rest

/-- `loadImage` (R61). -/
def loadImage (bytes : List Byte) : List Word := collapseRepeats none (imageWords bytes)

/-- A launch from an image file: its bytes, or none where it is unreadable or missing, which is
`IoError` before cycle 0 (R61, R189, R201). -/
def launchImage (file : Option (List Byte)) (p : Params) (initX initF : Vector Word 32)
    (initMem : List Byte) : Result :=
  match file with
  | none => .fault .ioError
  | some bytes => launchStream p (loadImage bytes) initX initF initMem

end Sys2Proof.Machine
end

