-- ==== Sys2Proof/Machine/Render.lean ====
section
/-! DEFINITION. The rendering of a decoded instruction as text (30_encoding.md R93, R94). -/

namespace Sys2Proof.Machine

/-- An integer register: `x` and its decimal index (R94). -/
def showX (r : Reg) : String := "x" ++ toString r.val

/-- A floating register: `f` and its decimal index (R94). -/
def showF (r : Reg) : String := "f" ++ toString r.val

/-- An immediate: the decoded value as a signed decimal number (R94). -/
def showImm (imm : Word) : String := toString imm.toInt

/-- Three operands (R93). -/
def operands3 (a b c : String) : String := a ++ ", " ++ b ++ ", " ++ c

/-- Two operands (R93). -/
def operands2 (a b : String) : String := a ++ ", " ++ b

/-- The `reg, imm(base)` form of the loads and stores (R93). -/
def operandsMem (r : String) (imm : Word) (base : Reg) : String :=
  r ++ ", " ++ showImm imm ++ "(" ++ showX base ++ ")"

/-- The text of an instruction (R93). -/
def renderInstr (i : Instr) : String :=
  match i with
  | .add rd rs1 rs2 => "add " ++ operands3 (showX rd) (showX rs1) (showX rs2)
  | .sub rd rs1 rs2 => "sub " ++ operands3 (showX rd) (showX rs1) (showX rs2)
  | .sll rd rs1 rs2 => "sll " ++ operands3 (showX rd) (showX rs1) (showX rs2)
  | .slt rd rs1 rs2 => "slt " ++ operands3 (showX rd) (showX rs1) (showX rs2)
  | .sltu rd rs1 rs2 => "sltu " ++ operands3 (showX rd) (showX rs1) (showX rs2)
  | .xor rd rs1 rs2 => "xor " ++ operands3 (showX rd) (showX rs1) (showX rs2)
  | .srl rd rs1 rs2 => "srl " ++ operands3 (showX rd) (showX rs1) (showX rs2)
  | .sra rd rs1 rs2 => "sra " ++ operands3 (showX rd) (showX rs1) (showX rs2)
  | .or rd rs1 rs2 => "or " ++ operands3 (showX rd) (showX rs1) (showX rs2)
  | .and rd rs1 rs2 => "and " ++ operands3 (showX rd) (showX rs1) (showX rs2)
  | .addi rd rs1 imm => "addi " ++ operands3 (showX rd) (showX rs1) (showImm imm)
  | .slti rd rs1 imm => "slti " ++ operands3 (showX rd) (showX rs1) (showImm imm)
  | .sltiu rd rs1 imm => "sltiu " ++ operands3 (showX rd) (showX rs1) (showImm imm)
  | .xori rd rs1 imm => "xori " ++ operands3 (showX rd) (showX rs1) (showImm imm)
  | .ori rd rs1 imm => "ori " ++ operands3 (showX rd) (showX rs1) (showImm imm)
  | .andi rd rs1 imm => "andi " ++ operands3 (showX rd) (showX rs1) (showImm imm)
  | .slli rd rs1 imm => "slli " ++ operands3 (showX rd) (showX rs1) (showImm imm)
  | .srli rd rs1 imm => "srli " ++ operands3 (showX rd) (showX rs1) (showImm imm)
  | .srai rd rs1 imm => "srai " ++ operands3 (showX rd) (showX rs1) (showImm imm)
  | .lui rd imm => "lui " ++ operands2 (showX rd) (showImm imm)
  | .auipc rd imm => "auipc " ++ operands2 (showX rd) (showImm imm)
  | .beq rs1 rs2 imm => "beq " ++ operands3 (showX rs1) (showX rs2) (showImm imm)
  | .bne rs1 rs2 imm => "bne " ++ operands3 (showX rs1) (showX rs2) (showImm imm)
  | .blt rs1 rs2 imm => "blt " ++ operands3 (showX rs1) (showX rs2) (showImm imm)
  | .bge rs1 rs2 imm => "bge " ++ operands3 (showX rs1) (showX rs2) (showImm imm)
  | .bltu rs1 rs2 imm => "bltu " ++ operands3 (showX rs1) (showX rs2) (showImm imm)
  | .bgeu rs1 rs2 imm => "bgeu " ++ operands3 (showX rs1) (showX rs2) (showImm imm)
  | .jal rd imm => "jal " ++ operands2 (showX rd) (showImm imm)
  | .jalr rd rs1 imm => "jalr " ++ operands3 (showX rd) (showX rs1) (showImm imm)
  | .lw rd rs1 imm => "lw " ++ operandsMem (showX rd) imm rs1
  | .sw rs2 rs1 imm => "sw " ++ operandsMem (showX rs2) imm rs1
  | .flw rd rs1 imm => "flw " ++ operandsMem (showF rd) imm rs1
  | .fsw rs2 rs1 imm => "fsw " ++ operandsMem (showF rs2) imm rs1
  | .fadd rd rs1 rs2 _ => "fadd.s " ++ operands3 (showF rd) (showF rs1) (showF rs2)
  | .fsub rd rs1 rs2 _ => "fsub.s " ++ operands3 (showF rd) (showF rs1) (showF rs2)
  | .fmul rd rs1 rs2 _ => "fmul.s " ++ operands3 (showF rd) (showF rs1) (showF rs2)
  | .fdiv rd rs1 rs2 _ => "fdiv.s " ++ operands3 (showF rd) (showF rs1) (showF rs2)

/-- The text of a decoded record; an unrecognized word renders as `unrecognized` (R93, R94). -/
def render (d : DecodedInstruction) : String :=
  match d.toInstr with
  | some i => renderInstr i
  | none => "unrecognized"

end Sys2Proof.Machine
end

