-- ==== Sys2Proof/Machine/Sequential.lean ====
section
/-! DEFINITION. The sequential machine (70_reset_and_hazards.md R224), and what of a pipeline state it
sees. It runs over `State` with empty slots, so that it commits by the same `exec`. -/

namespace Sys2Proof.Machine

/-- Stopped by a branch's `Halt`, which only Looping mode has (R140, R224). -/
def State.stoppedByBranch (s : State) : Bool := s.halt && s.params.fetchMode == .looping

/-- What the sequential machine has of a state: registers, memory, ticks, the observations without
their cycle numbers, the address of the next instruction, and whether a branch has stopped it. All
that concerns only the pipeline's timing is at a fixed value, and so is the address of a machine that
a branch has stopped. -/
def State.sequentialPart (s : State) : State :=
  { s with
      pc := if s.stoppedByBranch then 0#32 else s.pc
      slotF := none
      slotD := none
      slotE := none
      slotS := none
      stall := 0
      halt := s.stoppedByBranch
      cycle := 0
      trace := []
      unrec := s.unrec.map (fun u => (u.1, u.2.1, 0))
      status := .running }

/-- The address of the oldest instruction not yet committed: the next to commit. -/
def State.oldestAddress (s : State) : Word :=
  match s.slotE, s.slotD, s.slotF with
  | some e, _, _ => e.ipc
  | none, some d, _ => d.ipc
  | none, none, some i => i.ipc
  | none, none, none => s.pc

/-- The sequential machine's view of a pipeline state: what has committed, and the address of the next
instruction to commit. -/
def State.sequentialView (s : State) : State := { s with pc := s.oldestAddress }.sequentialPart

/-- The sequential machine has stopped: by a branch, or in Linear mode because its address indexes no
instruction (R224). -/
def State.sequentialStopped (s : State) : Bool :=
  s.halt || (s.params.fetchMode == .linear && (s.streamWord s.pc).isNone)

/-- One step of the sequential machine (R224): the instruction at the pc is committed with `ipc = pc`;
the pc then is the redirect target, if one was requested, and `advance(pc)` if not. -/
def State.sequentialStep (s : State) : Result :=
  if s.sequentialStopped then .next s
  else
    match s.streamWord s.pc with
    | none => .fault (.fetchOutOfStream s.pc)
    | some w =>
      match { s with slotE := some (s.fetched w), pc := s.advance s.pc }.commit (s.fetched w) with
      | .next t => .next t.sequentialPart
      | .fault f => .fault f
      | .refused r => .refused r

end Sys2Proof.Machine
end

