-- ==== Sys2Proof/Safety.lean ====
section
/-! DEFINITION. The terms the statements use: what a commit leaves unchanged, what each shape of
instruction does, the opcode table as masks, and the invariant of a run. -/

namespace Sys2Proof.Machine

/-! ## Frames: what is unchanged from one state to another -/

/-- Every integer register reads as before. -/
def SameX (s t : State) : Prop := ∀ r, t.readX r = s.readX r

/-- Every floating register reads as before. -/
def SameF (s t : State) : Prop := ∀ r, t.readF r = s.readF r

/-- Every byte of data memory reads as before. -/
def SameBytes (s t : State) : Prop := ∀ a, t.mem.readByte a = s.mem.readByte a

/-- The control of the fetch is as before: pc, halt flag, Fetch and Decode slots. -/
def SameFlow (s t : State) : Prop :=
  t.pc = s.pc ∧ t.halt = s.halt ∧ t.slotF = s.slotF ∧ t.slotD = s.slotD

/-- What no commit of an instruction changes: parameters, stream, Execute and Store slots, cycle
number, trace, status. -/
def SameRun (s t : State) : Prop :=
  t.params = s.params ∧ t.prog = s.prog ∧ t.slotE = s.slotE ∧ t.slotS = s.slotS ∧
  t.cycle = s.cycle ∧ t.trace = s.trace ∧ t.status = s.status

/-- Integer register `rd` holds `v`, register 0 reads as 0, every other integer register reads as
before. With `rd` register 0 the write is discarded (R21). -/
def WroteX (s t : State) (rd : Reg) (v : Word) : Prop :=
  (rd ≠ 0 → t.readX rd = v) ∧ t.readX 0 = 0#32 ∧ ∀ r, r ≠ rd → t.readX r = s.readX r

/-- Floating register `rd` holds `v`, every other floating register reads as before. -/
def WroteF (s t : State) (rd : Reg) (v : Word) : Prop :=
  t.readF rd = v ∧ ∀ r, r ≠ rd → t.readF r = s.readF r

/-- The four bytes from `a` on are those of `v`, least significant first; every other byte of memory
reads as before. -/
def WroteBytes (s t : State) (a : Nat) (v : Word) : Prop :=
  t.mem.readByte a = v.extractLsb' 0 8 ∧ t.mem.readByte (a + 1) = v.extractLsb' 8 8 ∧
  t.mem.readByte (a + 2) = v.extractLsb' 16 8 ∧ t.mem.readByte (a + 3) = v.extractLsb' 24 8 ∧
  ∀ b, b < a ∨ a + 4 ≤ b → t.mem.readByte b = s.mem.readByte b

/-- `v` is the little-endian word of the four bytes from `a` on (R54). -/
def WordAt (s : State) (a : Nat) (v : Word) : Prop :=
  v.extractLsb' 0 8 = s.mem.readByte a ∧ v.extractLsb' 8 8 = s.mem.readByte (a + 1) ∧
  v.extractLsb' 16 8 = s.mem.readByte (a + 2) ∧ v.extractLsb' 24 8 = s.mem.readByte (a + 3)

/-- The run has not ended by a fault. -/
def NotFaulted (t : State) : Prop := ∀ f, t.status ≠ .faulted f

/-! ## Shapes of commits -/

/-- A commit that writes one integer register and nothing else (R110). -/
def CommitsX (i : Instr) (s : State) (rd : Reg) (v : Word) : Prop :=
  ∃ t, exec i s = .next t ∧ WroteX s t rd v ∧ SameF s t ∧ SameBytes s t ∧ SameFlow s t ∧
    t.stall = s.stall ∧ t.ticks = s.ticks ∧ t.unrec = s.unrec ∧ SameRun s t

/-- A commit of floating arithmetic: one floating register and two stall cycles (R171). -/
def CommitsFloat (i : Instr) (s : State) (rd : Reg) (v : Word) : Prop :=
  ∃ t, exec i s = .next t ∧ WroteF s t rd v ∧ SameX s t ∧ SameBytes s t ∧ SameFlow s t ∧
    t.stall = s.stall + 2 ∧ t.ticks = s.ticks ∧ t.unrec = s.unrec ∧ SameRun s t

/-- A commit as unrecognized: an observation and nothing else (R188). -/
def CommitsNothing (s t : State) (e : InFlight) : Prop :=
  t.unrec = s.unrec ++ [(e.idx, e.word, s.cycle)] ∧ SameX s t ∧ SameF s t ∧ SameBytes s t ∧
    SameFlow s t ∧ t.stall = s.stall ∧ t.ticks = s.ticks ∧ SameRun s t

/-- A redirect to `target` with its flush, the halt flag unchanged (R207). -/
def RedirectedTo (s t : State) (target : Word) : Prop :=
  t.pc = target ∧ t.slotF = none ∧ t.slotD = none ∧ t.halt = s.halt

/-- A commit of a jump: the link written, then the redirect (R147, R148). -/
def CommitsJump (i : Instr) (s : State) (rd : Reg) (link target : Word) : Prop :=
  ∃ t, exec i s = .next t ∧ WroteX s t rd link ∧ RedirectedTo s t target ∧ SameF s t ∧
    SameBytes s t ∧ t.stall = s.stall ∧ t.ticks = s.ticks ∧ t.unrec = s.unrec ∧ SameRun s t

/-- What no commit of a branch changes. -/
def BranchKeeps (s t : State) : Prop :=
  SameX s t ∧ SameF s t ∧ SameBytes s t ∧ t.stall = s.stall ∧ t.ticks = s.ticks ∧
    t.unrec = s.unrec ∧ SameRun s t

/-- The common rule of the conditional branches (R140, R151): taken and aligned, a redirect; taken and
not aligned, the fault; not taken in Linear mode, nothing; not taken in Looping mode, the halt. -/
def CommitsBranch (i : Instr) (s : State) (taken : Prop) (target : Word) : Prop :=
  (taken → target.toNat % 4 = 0 →
    ∃ t, exec i s = .next t ∧ RedirectedTo s t target ∧ BranchKeeps s t) ∧
  (taken → target.toNat % 4 ≠ 0 → exec i s = .fault (.misalignedTarget target)) ∧
  (¬taken → s.params.fetchMode = .linear →
    ∃ t, exec i s = .next t ∧ SameFlow s t ∧ BranchKeeps s t) ∧
  (¬taken → s.params.fetchMode = .looping →
    ∃ t, exec i s = .next t ∧ t.halt = true ∧ t.pc = s.pc ∧ t.slotF = none ∧ t.slotD = none ∧
      BranchKeeps s t)

/-- The two checks of an access to `ea`, bounds first, pass (R53, R57). -/
def AccessOk (s : State) (ea : Word) : Prop :=
  ea.toNat + 4 ≤ s.params.memCapacity ∧ ea.toNat % 4 = 0

/-- An access to `ea` that is out of bounds is that fault; one that is in bounds and not aligned is the
other (R53, R57). The sum is of unbounded integers. -/
def ChecksAccess (i : Instr) (s : State) (ea : Word) : Prop :=
  (s.params.memCapacity < ea.toNat + 4 → exec i s = .fault (.bounds ea)) ∧
  (ea.toNat + 4 ≤ s.params.memCapacity → ea.toNat % 4 ≠ 0 →
    exec i s = .fault (.misalignedAccess ea))

/-- What a load or store leaves unchanged beside its register, its bytes, `ticks` and the stall. -/
def AccessKeeps (s t : State) : Prop := SameFlow s t ∧ t.unrec = s.unrec ∧ SameRun s t

/-- An instruction makes a taken transfer to `target` in a state: a supported conditional branch whose
condition holds, or a supported jump (R140 to R148). -/
def TakesTransfer (i : Instr) (s : State) (target : Word) : Prop :=
  supports s.params i.mnemonic = true ∧
  match i with
  | .beq a b imm => s.readX a = s.readX b ∧ target = s.ipc + imm
  | .bne a b imm => s.readX a ≠ s.readX b ∧ target = s.ipc + imm
  | .blt a b imm => (s.readX a).toInt < (s.readX b).toInt ∧ target = s.ipc + imm
  | .bge a b imm => (s.readX b).toInt ≤ (s.readX a).toInt ∧ target = s.ipc + imm
  | .bltu a b imm => (s.readX a).toNat < (s.readX b).toNat ∧ target = s.ipc + imm
  | .bgeu a b imm => (s.readX b).toNat ≤ (s.readX a).toNat ∧ target = s.ipc + imm
  | .jal _ imm => target = s.ipc + imm
  | .jalr _ a imm => target = (s.readX a + imm) &&& 0xFFFFFFFE#32
  | _ => False

/-- A supported conditional branch whose condition does not hold (R140 to R146). -/
def FallsThrough (i : Instr) (s : State) : Prop :=
  supports s.params i.mnemonic = true ∧
  match i with
  | .beq a b _ => s.readX a ≠ s.readX b
  | .bne a b _ => s.readX a = s.readX b
  | .blt a b _ => (s.readX b).toInt ≤ (s.readX a).toInt
  | .bge a b _ => (s.readX a).toInt < (s.readX b).toInt
  | .bltu a b _ => (s.readX b).toNat ≤ (s.readX a).toNat
  | .bgeu a b _ => (s.readX a).toNat < (s.readX b).toNat
  | _ => False

/-! ## Encodings -/

/-- Every word with this opcode and, where given, this funct3 and this funct7 decodes to the
instruction that `mk` makes of it. A field not given is one the table does not consult. -/
def DecodesAs (op : BitVec 7) (f3 : Option (BitVec 3)) (f7 : Option (BitVec 7))
    (mk : Word → Instr) : Prop :=
  ∀ w : Word, opcodeOf w = op → (∀ k, f3 = some k → funct3Of w = k) →
    (∀ k, f7 = some k → funct7Of w = k) → decodeInstr w = some (mk w)

/-- The register numbers of a word (R71). -/
def rdReg (w : Word) : Reg := regOf (rdOf w)
def rs1Reg (w : Word) : Reg := regOf (rs1Of w)
def rs2Reg (w : Word) : Reg := regOf (rs2Of w)

/-- A row of the opcode table as a match and a mask. -/
structure OpcodeRow where
  mnemonic : Mnemonic
  pattern  : Word
  mask     : Word
deriving DecidableEq, Repr

/-- spec/opcode_table.json, row by row. The note of its last four rows, that `rm` 101 and 110 are
reserved, is in `OpcodeRow.selects`. -/
def opcodeRows : List OpcodeRow :=
  [ ⟨.add, 0x00000033#32, 0xFE00707F#32⟩, ⟨.sub, 0x40000033#32, 0xFE00707F#32⟩,
    ⟨.sll, 0x00001033#32, 0x0000707F#32⟩, ⟨.slt, 0x00002033#32, 0x0000707F#32⟩,
    ⟨.sltu, 0x00003033#32, 0x0000707F#32⟩, ⟨.xor, 0x00004033#32, 0x0000707F#32⟩,
    ⟨.srl, 0x00005033#32, 0xFE00707F#32⟩, ⟨.sra, 0x40005033#32, 0xFE00707F#32⟩,
    ⟨.or, 0x00006033#32, 0x0000707F#32⟩, ⟨.and, 0x00007033#32, 0x0000707F#32⟩ ] ++
  [ ⟨.addi, 0x00000013#32, 0x0000707F#32⟩, ⟨.slti, 0x00002013#32, 0x0000707F#32⟩,
    ⟨.sltiu, 0x00003013#32, 0x0000707F#32⟩, ⟨.xori, 0x00004013#32, 0x0000707F#32⟩,
    ⟨.ori, 0x00006013#32, 0x0000707F#32⟩, ⟨.andi, 0x00007013#32, 0x0000707F#32⟩,
    ⟨.slli, 0x00001013#32, 0x0000707F#32⟩, ⟨.srli, 0x00005013#32, 0xFE00707F#32⟩,
    ⟨.srai, 0x40005013#32, 0xFE00707F#32⟩, ⟨.lui, 0x00000037#32, 0x0000007F#32⟩,
    ⟨.auipc, 0x00000017#32, 0x0000007F#32⟩ ] ++
  [ ⟨.beq, 0x00000063#32, 0x0000707F#32⟩, ⟨.bne, 0x00001063#32, 0x0000707F#32⟩,
    ⟨.blt, 0x00004063#32, 0x0000707F#32⟩, ⟨.bge, 0x00005063#32, 0x0000707F#32⟩,
    ⟨.bltu, 0x00006063#32, 0x0000707F#32⟩, ⟨.bgeu, 0x00007063#32, 0x0000707F#32⟩,
    ⟨.jal, 0x0000006F#32, 0x0000007F#32⟩, ⟨.jalr, 0x00000067#32, 0x0000707F#32⟩ ] ++
  [ ⟨.lw, 0x00002003#32, 0x0000707F#32⟩, ⟨.sw, 0x00002023#32, 0x0000707F#32⟩,
    ⟨.flw, 0x00002007#32, 0x0000707F#32⟩, ⟨.fsw, 0x00002027#32, 0x0000707F#32⟩,
    ⟨.fadd, 0x00000053#32, 0xFE00007F#32⟩, ⟨.fsub, 0x08000053#32, 0xFE00007F#32⟩,
    ⟨.fmul, 0x10000053#32, 0xFE00007F#32⟩, ⟨.fdiv, 0x18000053#32, 0xFE00007F#32⟩ ]

/-- Whether a row selects a word: its masked bits match and, under opcode OP-FP, bits 14:12 are not a
reserved rounding mode (R89). -/
def OpcodeRow.selects (row : OpcodeRow) (w : Word) : Prop :=
  w &&& row.mask = row.pattern ∧
  (row.pattern &&& 0x7F#32 = 0x53#32 →
    w &&& 0x7000#32 ≠ 0x5000#32 ∧ w &&& 0x7000#32 ≠ 0x6000#32)

/-- The stall cycles a mnemonic's commit injects (R176, R206). -/
def stallOf (m : Mnemonic) : Nat :=
  match m with
  | .fadd | .fsub | .fmul | .fdiv => 2
  | .flw => 1
  | _ => 0

/-! ## The invariant of a run -/

/-- A slot's record is of a stream entry: its address is four times its index, its word is that entry,
its decoded form is the decoding of the word (R31, R92). -/
def FromStream (s : State) (e : InFlight) : Prop :=
  e.ipc.toNat = 4 * e.idx ∧ s.prog[e.idx]? = some e.word ∧ e.dec = decode e.word

/-- The records in flight and not yet committed, oldest first. -/
def State.uncommitted (s : State) : List InFlight :=
  s.slotE.toList ++ s.slotD.toList ++ s.slotF.toList

/-- Each address of a list is the one the fetch advances to from the address before it. -/
def FetchOrder (s : State) : List Word → Prop
  | [] => True
  | [_] => True
  | a :: b :: rest => b = s.advance a ∧ FetchOrder s (b :: rest)

/-- The invariant that holds at launch and that every step keeps. -/
structure Inv (s : State) : Prop where
  /-- R29. -/
  pcAligned : s.pc.toNat % 4 = 0
  /-- R21: the cell behind `x0` is 0 too. -/
  zeroCell : s.x.get 0 = 0#32
  /-- Data memory keeps its canonical form, within the capacity (R50). -/
  memCanonical : s.mem.wf = true
  memBelow : s.mem.below s.params.memCapacity = true
  /-- R31, R92. -/
  slotsFromStream : ∀ e, s.slotF = some e ∨ s.slotD = some e ∨ s.slotE = some e ∨ s.slotS = some e →
    FromStream s e
  /-- The uncommitted records stand in fetch order, and the pc follows the youngest (R28, R30). -/
  inFetchOrder : FetchOrder s (s.uncommitted.map InFlight.ipc ++ [s.pc])
  /-- R223. -/
  stallAtMostOne : s.stall ≤ 1
  noStallAtCommit : s.slotE ≠ none → s.stall = 0
  /-- A halted fetch has nothing uncommitted behind it (R208, R213, R231). -/
  haltDrains : s.halt = true → s.slotF = none ∧ s.slotD = none ∧ s.slotE = none ∧ s.stall = 0
  /-- In Linear mode the halt flag is set at the end of the stream only (R213). -/
  linearHaltAtEnd : s.halt = true → s.params.fetchMode = .linear → s.streamWord s.pc = none
  /-- R220: at most one event per entry and stage, each of an entry of the stream and of a cycle
  completed. -/
  traceOnce : s.trace.Pairwise (fun a b => ¬(a.idx = b.idx ∧ a.stage = b.stage))
  traceInStream : ∀ ev ∈ s.trace, ev.idx < s.prog.length ∧ ev.cycle < s.cycle
  /-- R188. -/
  unrecInStream : ∀ u ∈ s.unrec, s.prog[u.1]? = some u.2.1 ∧ u.2.2 < s.cycle
  /-- R39, R217, R218. -/
  runningGoesOn : s.status = .running → ¬(s.halt = true ∧ s.drained = true) ∧
    (s.params.cycleLimit = 0 ∨ s.cycle < s.params.cycleLimit)
  haltedDrained : s.status = .halted → s.halt = true ∧ s.drained = true
  limitIsCycle : s.status = .limitReached →
    0 < s.params.cycleLimit ∧ s.cycle = s.params.cycleLimit

end Sys2Proof.Machine
end

