-- ==== Sys2Proof/Certificates/Slice0/Obligations.lean ====
section
/-! DEFINITION. The statements for the provers. Each docstring names the rules it formalises; OBLIGATIONS.json
has the same list with the sentence quoted. -/

open Sys2Proof Sys2Proof.Machine

/-! ## The decoder (30_encoding.md) -/

/-- R71: each field that a word's record has is the given bits of the word, as numbers. -/
def Obligations.FieldsAtFixedPositions : Prop :=
  ∀ w : Word,
    (decode w).opcode.toNat = w.toNat % 2 ^ 7 ∧
    (∀ b, (decode w).rd = some b → b.toNat = w.toNat / 2 ^ 7 % 2 ^ 5) ∧
    (∀ b, (decode w).funct3 = some b → b.toNat = w.toNat / 2 ^ 12 % 2 ^ 3) ∧
    (∀ b, (decode w).rs1 = some b → b.toNat = w.toNat / 2 ^ 15 % 2 ^ 5) ∧
    (∀ b, (decode w).rs2 = some b → b.toNat = w.toNat / 2 ^ 20 % 2 ^ 5) ∧
    (∀ b, (decode w).funct7 = some b → b.toNat = w.toNat / 2 ^ 25)

/-- R72: the format is a function of the low seven bits; an opcode outside the map has none and is
unrecognized. -/
def Obligations.FormatFromLowSevenBits : Prop :=
  ∀ (w : Word) (op : Nat), op = w.toNat % 128 →
    (op ∈ [0x33, 0x53] → (decode w).format = some .R) ∧
    (op ∈ [0x13, 0x03, 0x07, 0x67] → (decode w).format = some .I) ∧
    (op ∈ [0x23, 0x27] → (decode w).format = some .S) ∧
    (op = 0x63 → (decode w).format = some .B) ∧
    (op ∈ [0x37, 0x17] → (decode w).format = some .U) ∧
    (op = 0x6F → (decode w).format = some .J) ∧
    (op ∉ [0x33, 0x53, 0x13, 0x03, 0x07, 0x67, 0x23, 0x27, 0x63, 0x37, 0x17, 0x6F] →
      (decode w).format = none ∧ (decode w).mnemonic = .unrecognized)

/-- R73, R74: which fields each format has, and that funct7 is read in the OP-IMM shifts as well. -/
def Obligations.FieldsOfEachFormat : Prop :=
  ∀ w : Word, (decode w).opcode = opcodeOf w ∧
    ((decode w).format = some .R →
      (decode w).rd = some (rdOf w) ∧ (decode w).funct3 = some (funct3Of w) ∧
      (decode w).rs1 = some (rs1Of w) ∧ (decode w).rs2 = some (rs2Of w) ∧
      (decode w).funct7 = some (funct7Of w) ∧ (decode w).imm = none) ∧
    ((decode w).format = some .I →
      (decode w).rd = some (rdOf w) ∧ (decode w).funct3 = some (funct3Of w) ∧
      (decode w).rs1 = some (rs1Of w) ∧ (decode w).rs2 = none ∧ (decode w).imm ≠ none ∧
      (w.toNat % 128 = 0x13 ∧ (funct3Of w = 1#3 ∨ funct3Of w = 5#3) →
        (decode w).funct7 = some (funct7Of w)) ∧
      (¬(w.toNat % 128 = 0x13 ∧ (funct3Of w = 1#3 ∨ funct3Of w = 5#3)) →
        (decode w).funct7 = none)) ∧
    ((decode w).format = some .S ∨ (decode w).format = some .B →
      (decode w).rd = none ∧ (decode w).funct3 = some (funct3Of w) ∧
      (decode w).rs1 = some (rs1Of w) ∧ (decode w).rs2 = some (rs2Of w) ∧
      (decode w).funct7 = none ∧ (decode w).imm ≠ none) ∧
    ((decode w).format = some .U ∨ (decode w).format = some .J →
      (decode w).rd = some (rdOf w) ∧ (decode w).funct3 = none ∧ (decode w).rs1 = none ∧
      (decode w).rs2 = none ∧ (decode w).funct7 = none ∧ (decode w).imm ≠ none) ∧
    ((decode w).format = none →
      (decode w).rd = none ∧ (decode w).funct3 = none ∧ (decode w).rs1 = none ∧
      (decode w).rs2 = none ∧ (decode w).funct7 = none ∧ (decode w).imm = none)

/-- R76 to R80: the value of each immediate, from the bits of the word as numbers: the assembled value,
less 2 to its width when its top bit is set. -/
def Obligations.ImmediateValues : Prop :=
  ∀ (w : Word) (n : Nat), n = w.toNat →
    ((decode w).format = some .I → ∃ v raw, (decode w).imm = some v ∧ raw = n / 2 ^ 20 ∧
      v.toInt = if raw < 2048 then (raw : Int) else (raw : Int) - 4096) ∧
    ((decode w).format = some .S → ∃ v raw, (decode w).imm = some v ∧
      raw = n / 2 ^ 25 * 2 ^ 5 + n / 2 ^ 7 % 2 ^ 5 ∧
      v.toInt = if raw < 2048 then (raw : Int) else (raw : Int) - 4096) ∧
    ((decode w).format = some .B → ∃ v raw, (decode w).imm = some v ∧
      raw = n / 2 ^ 31 * 2 ^ 12 + n / 2 ^ 7 % 2 * 2 ^ 11 + n / 2 ^ 25 % 2 ^ 6 * 2 ^ 5 +
        n / 2 ^ 8 % 2 ^ 4 * 2 ∧
      v.toInt = if raw < 4096 then (raw : Int) else (raw : Int) - 8192) ∧
    ((decode w).format = some .U → ∃ v raw, (decode w).imm = some v ∧ raw = n / 2 ^ 12 ∧
      v.toInt = if raw < 524288 then (raw : Int) else (raw : Int) - 1048576) ∧
    ((decode w).format = some .J → ∃ v raw, (decode w).imm = some v ∧
      raw = n / 2 ^ 31 * 2 ^ 20 + n / 2 ^ 12 % 2 ^ 8 * 2 ^ 12 + n / 2 ^ 20 % 2 * 2 ^ 11 +
        n / 2 ^ 21 % 2 ^ 10 * 2 ∧
      v.toInt = if raw < 1048576 then (raw : Int) else (raw : Int) - 2097152)

/-- The two-level lookup of R83 and R84 and the masks of opcode_table.json select the same mnemonic for
every word, the words that no row selects are the unrecognized ones (R86), and the instruction
read has that mnemonic. Derived from the two tables of the spec. -/
def Obligations.LookupAgreesWithOpcodeTable : Prop :=
  ∀ w : Word,
    (∀ row ∈ opcodeRows, (decode w).mnemonic = row.mnemonic ↔ row.selects w) ∧
    ((decode w).mnemonic = .unrecognized ↔ ∀ row ∈ opcodeRows, ¬row.selects w) ∧
    ((decode w).mnemonic = .unrecognized ↔ decodeInstr w = none) ∧
    (∀ i, decodeInstr w = some i → i.mnemonic = (decode w).mnemonic)

/-- Decode and encode agree: the word of every well-formed instruction decodes to it. -/
def Obligations.DecodeOfEncodeIsInstruction : Prop :=
  ∀ i : Instr, i.wellFormed = true → decodeInstr (encode i) = some i

/-- The other direction: a word that decodes gives a well-formed instruction, whose encoding is the
word, but for bits 31:25 of the six Direct OP entries, which the decoder does not consult (R85) and
the encoder writes as 0 (the model's choice, log 9). -/
def Obligations.EncodeOfDecodeIsWord : Prop :=
  ∀ (w : Word) (i : Instr), decodeInstr w = some i →
    i.wellFormed = true ∧
    encode i = if opcodeOf w = 0x33#7 ∧ funct3Of w ≠ 0#3 ∧ funct3Of w ≠ 5#3
      then w &&& 0x01FFFFFF#32 else w

/-- Words written out from the spec's encodings, one or more of each family, decode to the
instructions they stand for (30_encoding.md R76 to R80, R85, R95; 40_integer.md to 43_float.md). -/
def Obligations.SampleWordsDecode : Prop :=
  decodeTableWord 32 0x00000517 = some (.auipc 10 0#32) ∧
  decodeTableWord 32 0x00050513 = some (.addi 10 10 0#32) ∧
  decodeTableWord 32 0xFFF00093 = some (.addi 1 0 0xFFFFFFFF#32) ∧
  decodeTableWord 32 0x402081B3 = some (.sub 3 1 2) ∧
  decodeTableWord 32 0x022091B3 = some (.sll 3 1 2) ∧
  decodeTableWord 32 0x022081B3 = none ∧
  decodeTableWord 32 0xFE209EE3 = some (.bne 1 2 0xFFFFFFFC#32) ∧
  decodeTableWord 32 0x0080006F = some (.jal 0 8#32) ∧
  decodeTableWord 32 0xFE532E23 = some (.sw 5 6 0xFFFFFFFC#32) ∧
  decodeTableWord 32 0x01002087 = some (.flw 1 0 16#32) ∧
  decodeTableWord 32 0x183170D3 = some (.fdiv 1 2 3 7#3) ∧
  decodeTableWord 32 0x00000073 = none

/-- The renderings that 30_encoding.md R94 and R95 give for their sample words. -/
def Obligations.SampleWordsRender : Prop :=
  render (decode 0x00000517#32) = "auipc x10, 0" ∧
  render (decode 0x00050513#32) = "addi x10, x10, 0" ∧
  render (decode 0x00550513#32) = "addi x10, x10, 5" ∧
  render (decode 0xFFFFF1B7#32) = "lui x3, -1" ∧
  render (decode 0x40315093#32) = "srai x1, x2, 1027" ∧
  render (decode 0xFE532E23#32) = "sw x5, -4(x6)" ∧
  render (decode 0x00000073#32) = "unrecognized"

/-! ## Integer instructions (40_integer.md) -/

/-- R112, R113: encoding, result modulo 2^32, and nothing else changed. -/
def Obligations.AddSubCommit : Prop :=
  DecodesAs 0x33#7 (some 0#3) (some 0#7) (fun w => .add (rdReg w) (rs1Reg w) (rs2Reg w)) ∧
  DecodesAs 0x33#7 (some 0#3) (some 0x20#7) (fun w => .sub (rdReg w) (rs1Reg w) (rs2Reg w)) ∧
  ∀ (rd rs1 rs2 : Reg) (s : State),
    CommitsX (.add rd rs1 rs2) s rd (s.readX rs1 + s.readX rs2) ∧
    CommitsX (.sub rd rs1 rs2) s rd (s.readX rs1 - s.readX rs2)

/-- R114, R118, R119: the shift amount is the register's value modulo 32; `sll` consults no
funct7. -/
def Obligations.RegisterShiftsCommit : Prop :=
  DecodesAs 0x33#7 (some 1#3) none (fun w => .sll (rdReg w) (rs1Reg w) (rs2Reg w)) ∧
  DecodesAs 0x33#7 (some 5#3) (some 0#7) (fun w => .srl (rdReg w) (rs1Reg w) (rs2Reg w)) ∧
  DecodesAs 0x33#7 (some 5#3) (some 0x20#7) (fun w => .sra (rdReg w) (rs1Reg w) (rs2Reg w)) ∧
  ∀ (rd rs1 rs2 : Reg) (s : State),
    (supports s.params .sll = true →
      CommitsX (.sll rd rs1 rs2) s rd (s.readX rs1 <<< ((s.readX rs2).toNat % 32))) ∧
    (supports s.params .srl = true →
      CommitsX (.srl rd rs1 rs2) s rd (s.readX rs1 >>> ((s.readX rs2).toNat % 32))) ∧
    (supports s.params .sra = true →
      CommitsX (.sra rd rs1 rs2) s rd ((s.readX rs1).sshiftRight ((s.readX rs2).toNat % 32)))

/-- R115, R116: 1 or 0 by the signed and the unsigned comparison. -/
def Obligations.RegisterComparesCommit : Prop :=
  DecodesAs 0x33#7 (some 2#3) none (fun w => .slt (rdReg w) (rs1Reg w) (rs2Reg w)) ∧
  DecodesAs 0x33#7 (some 3#3) none (fun w => .sltu (rdReg w) (rs1Reg w) (rs2Reg w)) ∧
  ∀ (rd rs1 rs2 : Reg) (s : State),
    (supports s.params .slt = true → CommitsX (.slt rd rs1 rs2) s rd
      (if (s.readX rs1).toInt < (s.readX rs2).toInt then 1#32 else 0#32)) ∧
    (supports s.params .sltu = true → CommitsX (.sltu rd rs1 rs2) s rd
      (if (s.readX rs1).toNat < (s.readX rs2).toNat then 1#32 else 0#32))

/-- R117, R120, R121. -/
def Obligations.RegisterBitwiseCommit : Prop :=
  DecodesAs 0x33#7 (some 4#3) none (fun w => .xor (rdReg w) (rs1Reg w) (rs2Reg w)) ∧
  DecodesAs 0x33#7 (some 6#3) none (fun w => .or (rdReg w) (rs1Reg w) (rs2Reg w)) ∧
  DecodesAs 0x33#7 (some 7#3) none (fun w => .and (rdReg w) (rs1Reg w) (rs2Reg w)) ∧
  ∀ (rd rs1 rs2 : Reg) (s : State),
    (supports s.params .xor = true →
      CommitsX (.xor rd rs1 rs2) s rd (s.readX rs1 ^^^ s.readX rs2)) ∧
    (supports s.params .or = true →
      CommitsX (.or rd rs1 rs2) s rd (s.readX rs1 ||| s.readX rs2)) ∧
    (supports s.params .and = true →
      CommitsX (.and rd rs1 rs2) s rd (s.readX rs1 &&& s.readX rs2))

/-- R122, R123, R124: the immediate is the sign-extended word, compared signed or unsigned. -/
def Obligations.ImmediateAddAndComparesCommit : Prop :=
  DecodesAs 0x13#7 (some 0#3) none (fun w => .addi (rdReg w) (rs1Reg w) (immI w)) ∧
  DecodesAs 0x13#7 (some 2#3) none (fun w => .slti (rdReg w) (rs1Reg w) (immI w)) ∧
  DecodesAs 0x13#7 (some 3#3) none (fun w => .sltiu (rdReg w) (rs1Reg w) (immI w)) ∧
  ∀ (rd rs1 : Reg) (imm : Word) (s : State),
    CommitsX (.addi rd rs1 imm) s rd (s.readX rs1 + imm) ∧
    (supports s.params .slti = true → CommitsX (.slti rd rs1 imm) s rd
      (if (s.readX rs1).toInt < imm.toInt then 1#32 else 0#32)) ∧
    (supports s.params .sltiu = true → CommitsX (.sltiu rd rs1 imm) s rd
      (if (s.readX rs1).toNat < imm.toNat then 1#32 else 0#32))

/-- R125, R126, R127. -/
def Obligations.ImmediateBitwiseCommit : Prop :=
  DecodesAs 0x13#7 (some 4#3) none (fun w => .xori (rdReg w) (rs1Reg w) (immI w)) ∧
  DecodesAs 0x13#7 (some 6#3) none (fun w => .ori (rdReg w) (rs1Reg w) (immI w)) ∧
  DecodesAs 0x13#7 (some 7#3) none (fun w => .andi (rdReg w) (rs1Reg w) (immI w)) ∧
  ∀ (rd rs1 : Reg) (imm : Word) (s : State),
    (supports s.params .xori = true → CommitsX (.xori rd rs1 imm) s rd (s.readX rs1 ^^^ imm)) ∧
    (supports s.params .ori = true → CommitsX (.ori rd rs1 imm) s rd (s.readX rs1 ||| imm)) ∧
    (supports s.params .andi = true → CommitsX (.andi rd rs1 imm) s rd (s.readX rs1 &&& imm))

/-- R128, R129, R130: the shift amount is the immediate modulo 32; `slli` consults no funct7. -/
def Obligations.ImmediateShiftsCommit : Prop :=
  DecodesAs 0x13#7 (some 1#3) none (fun w => .slli (rdReg w) (rs1Reg w) (immI w)) ∧
  DecodesAs 0x13#7 (some 5#3) (some 0#7) (fun w => .srli (rdReg w) (rs1Reg w) (immI w)) ∧
  DecodesAs 0x13#7 (some 5#3) (some 0x20#7) (fun w => .srai (rdReg w) (rs1Reg w) (immI w)) ∧
  ∀ (rd rs1 : Reg) (imm : Word) (s : State),
    (supports s.params .slli = true →
      CommitsX (.slli rd rs1 imm) s rd (s.readX rs1 <<< (imm.toNat % 32))) ∧
    CommitsX (.srli rd rs1 imm) s rd (s.readX rs1 >>> (imm.toNat % 32)) ∧
    CommitsX (.srai rd rs1 imm) s rd ((s.readX rs1).sshiftRight (imm.toNat % 32))

/-- R131, R132: `auipc` adds to the committing instruction's own fetch address, not to the pc. -/
def Obligations.UpperImmediatesCommit : Prop :=
  DecodesAs 0x37#7 none none (fun w => .lui (rdReg w) (immU w)) ∧
  DecodesAs 0x17#7 none none (fun w => .auipc (rdReg w) (immU w)) ∧
  ∀ (rd : Reg) (imm : Word) (s : State),
    (supports s.params .lui = true → CommitsX (.lui rd imm) s rd (imm <<< 12)) ∧
    CommitsX (.auipc rd imm) s rd (s.ipc + imm <<< 12) ∧
    ∀ e, s.slotE = some e → s.ipc = e.ipc

/-- R111: the core set is always supported, an extended mnemonic by `EXT_SUPPORTED`; one that is
not supported commits as an unrecognized instruction, with nothing else changed. -/
def Obligations.UnsupportedCommitsAsUnrecognized : Prop :=
  ∀ (i : Instr) (s : State),
    (i.mnemonic ∉ extendedSet → supports s.params i.mnemonic = true) ∧
    (i.mnemonic ∈ extendedSet →
      (supports s.params i.mnemonic = true ↔ i.mnemonic ∈ s.params.extSupported)) ∧
    (supports s.params i.mnemonic = false →
      ∃ t, exec i s = .next t ∧ CommitsNothing s t s.current) ∧
    (∀ e, s.slotE = some e → s.current = e)

/-- R21: register 0 reads as 0, a write to it is discarded, a jump that links to it still redirects, and
an instruction that writes it still moves into the Store slot; it is 0 at launch. -/
def Obligations.RegisterZeroIsHardwired : Prop :=
  (∀ s : State, s.readX 0 = 0#32) ∧
  (∀ (s : State) (v : Word) (r : Reg), (s.writeX 0 v).readX r = s.readX r) ∧
  (∀ (s : State) (imm : Word), supports s.params .jal = true → (s.ipc + imm).toNat % 4 = 0 →
    ∃ t, exec (.jal 0 imm) s = .next t ∧ SameX s t ∧ RedirectedTo s t (s.ipc + imm)) ∧
  (∀ (s : State) (e : InFlight) (rs1 : Reg) (imm : Word), s.status = .running →
    s.slotE = some e → e.dec.toInstr = some (.addi 0 rs1 imm) → s.params.fetchMode = .linear →
    ∃ t, step s = .next t ∧ SameX s t ∧ t.slotS = some { e with enter := s.cycle }) ∧
  (∀ (p : Params) (prog : List Word) (ix : Vector Word 32) (if_ : Vector Word 32) (im : List Byte),
    (State.launch p prog ix if_ im).x.get 0 = 0#32)

/-! ## Control transfer (41_control.md) -/

/-- R141, R142, by the common rule R140. -/
def Obligations.EqualityBranchesCommit : Prop :=
  DecodesAs 0x63#7 (some 0#3) none (fun w => .beq (rs1Reg w) (rs2Reg w) (immB w)) ∧
  DecodesAs 0x63#7 (some 1#3) none (fun w => .bne (rs1Reg w) (rs2Reg w) (immB w)) ∧
  ∀ (a b : Reg) (imm : Word) (s : State),
    CommitsBranch (.beq a b imm) s (s.readX a = s.readX b) (s.ipc + imm) ∧
    CommitsBranch (.bne a b imm) s (s.readX a ≠ s.readX b) (s.ipc + imm)

/-- R143, R144, by the common rule R140. -/
def Obligations.SignedBranchesCommit : Prop :=
  DecodesAs 0x63#7 (some 4#3) none (fun w => .blt (rs1Reg w) (rs2Reg w) (immB w)) ∧
  DecodesAs 0x63#7 (some 5#3) none (fun w => .bge (rs1Reg w) (rs2Reg w) (immB w)) ∧
  ∀ (a b : Reg) (imm : Word) (s : State),
    CommitsBranch (.blt a b imm) s ((s.readX a).toInt < (s.readX b).toInt) (s.ipc + imm) ∧
    CommitsBranch (.bge a b imm) s ((s.readX a).toInt ≥ (s.readX b).toInt) (s.ipc + imm)

/-- R145, R146, by the common rule R140. -/
def Obligations.UnsignedBranchesCommit : Prop :=
  DecodesAs 0x63#7 (some 6#3) none (fun w => .bltu (rs1Reg w) (rs2Reg w) (immB w)) ∧
  DecodesAs 0x63#7 (some 7#3) none (fun w => .bgeu (rs1Reg w) (rs2Reg w) (immB w)) ∧
  ∀ (a b : Reg) (imm : Word) (s : State),
    (supports s.params .bltu = true →
      CommitsBranch (.bltu a b imm) s ((s.readX a).toNat < (s.readX b).toNat) (s.ipc + imm)) ∧
    (supports s.params .bgeu = true →
      CommitsBranch (.bgeu a b imm) s ((s.readX a).toNat ≥ (s.readX b).toNat) (s.ipc + imm))

/-- R147: the link, the redirect, and the fault that is raised before the link is written. -/
def Obligations.JalCommits : Prop :=
  DecodesAs 0x6F#7 none none (fun w => .jal (rdReg w) (immJ w)) ∧
  ∀ (rd : Reg) (imm : Word) (s : State), supports s.params .jal = true →
    ((s.ipc + imm).toNat % 4 = 0 →
      CommitsJump (.jal rd imm) s rd (s.ipc + 4#32) (s.ipc + imm)) ∧
    ((s.ipc + imm).toNat % 4 ≠ 0 →
      exec (.jal rd imm) s = .fault (.misalignedTarget (s.ipc + imm)))

/-- R148: the target is of the old register value, with bit 0 cleared. -/
def Obligations.JalrCommits : Prop :=
  DecodesAs 0x67#7 (some 0#3) none (fun w => .jalr (rdReg w) (rs1Reg w) (immI w)) ∧
  ∀ (rd rs1 : Reg) (imm target : Word) (s : State), supports s.params .jalr = true →
    target = (s.readX rs1 + imm) &&& 0xFFFFFFFE#32 →
    (target.toNat % 4 = 0 → CommitsJump (.jalr rd rs1 imm) s rd (s.ipc + 4#32) target) ∧
    (target.toNat % 4 ≠ 0 → exec (.jalr rd rs1 imm) s = .fault (.misalignedTarget target))

/-! ## Loads and stores (42_loadstore.md, 20_memory.md) -/

/-- R162, R164: the word read is the little-endian one at the effective address, `flw` stalls one cycle,
and an access that fails a check is the fault, bounds before alignment. -/
def Obligations.LoadsCommit : Prop :=
  DecodesAs 0x03#7 (some 2#3) none (fun w => .lw (rdReg w) (rs1Reg w) (immI w)) ∧
  DecodesAs 0x07#7 (some 2#3) none (fun w => .flw (rdReg w) (rs1Reg w) (immI w)) ∧
  ∀ (rd rs1 : Reg) (imm : Word) (s : State) (ea : Word), ea = s.readX rs1 + imm →
    (supports s.params .lw = true →
      ChecksAccess (.lw rd rs1 imm) s ea ∧
      (AccessOk s ea → ∃ t v, exec (.lw rd rs1 imm) s = .next t ∧ WordAt s ea.toNat v ∧
        WroteX s t rd v ∧ SameF s t ∧ SameBytes s t ∧ AccessKeeps s t ∧ t.stall = s.stall ∧
        t.ticks = s.ticks + s.params.readLatency)) ∧
    ChecksAccess (.flw rd rs1 imm) s ea ∧
    (AccessOk s ea → ∃ t v, exec (.flw rd rs1 imm) s = .next t ∧ WordAt s ea.toNat v ∧
      WroteF s t rd v ∧ SameX s t ∧ SameBytes s t ∧ AccessKeeps s t ∧ t.stall = s.stall + 1 ∧
      t.ticks = s.ticks + s.params.readLatency)

/-- R163, R165: the four bytes at the effective address, every other byte unchanged, no stall, and the
same checks. The premise on memory is the canonical form, which every step keeps. -/
def Obligations.StoresCommit : Prop :=
  DecodesAs 0x23#7 (some 2#3) none (fun w => .sw (rs2Reg w) (rs1Reg w) (immS w)) ∧
  DecodesAs 0x27#7 (some 2#3) none (fun w => .fsw (rs2Reg w) (rs1Reg w) (immS w)) ∧
  ∀ (rs2 rs1 : Reg) (imm : Word) (s : State) (ea : Word), s.mem.wf = true →
    ea = s.effectiveAddress rs1 imm →
    ea = s.readX rs1 + imm ∧
    (supports s.params .sw = true →
      ChecksAccess (.sw rs2 rs1 imm) s ea ∧
      (AccessOk s ea → ∃ t, exec (.sw rs2 rs1 imm) s = .next t ∧
        WroteBytes s t ea.toNat (s.readX rs2) ∧ SameX s t ∧ SameF s t ∧ AccessKeeps s t ∧
        t.stall = s.stall ∧ t.ticks = s.ticks + s.params.writeLatency)) ∧
    ChecksAccess (.fsw rs2 rs1 imm) s ea ∧
    (AccessOk s ea → ∃ t, exec (.fsw rs2 rs1 imm) s = .next t ∧
      WroteBytes s t ea.toNat (s.readF rs2) ∧ SameX s t ∧ SameF s t ∧ AccessKeeps s t ∧
      t.stall = s.stall ∧ t.ticks = s.ticks + s.params.writeLatency)

/-- Derived from R65 and R179: a load after a store to the same address gives the word stored, and a
pattern stored by `fsw` comes back from `flw` bit for bit. -/
def Obligations.StoreThenLoadGivesWord : Prop :=
  ∀ (r a b rd : Reg) (i j : Word) (s t u : State), s.mem.wf = true →
    s.readX a + i = t.readX b + j →
    (supports s.params .sw = true → supports s.params .lw = true → rd ≠ 0 →
      exec (.sw r a i) s = .next t → exec (.lw rd b j) t = .next u → u.readX rd = s.readX r) ∧
    (exec (.fsw r a i) s = .next t → exec (.flw rd b j) t = .next u → u.readF rd = s.readF r)

/-! ## Floating arithmetic (43_float.md) -/

/-- Derived from R170 to R175: the result is `FP_OPS` of the rounding mode and the two patterns, whatever
`FP_OPS` is, and the stall counter rises by 2. The two forms of `FP_OPS`, an uninterpreted instance or
the reference one, are the model's choice (log 7), and the last clause is of the model's reading of
the reference instance, whose layout and NaN results are log 8. -/
def Obligations.FloatArithmeticCommits : Prop :=
  (∀ rm : BitVec 3, rm ≠ 5#3 → rm ≠ 6#3 →
    DecodesAs 0x53#7 (some rm) (some 0x00#7)
      (fun w => .fadd (rdReg w) (rs1Reg w) (rs2Reg w) rm) ∧
    DecodesAs 0x53#7 (some rm) (some 0x04#7)
      (fun w => .fsub (rdReg w) (rs1Reg w) (rs2Reg w) rm) ∧
    DecodesAs 0x53#7 (some rm) (some 0x08#7)
      (fun w => .fmul (rdReg w) (rs1Reg w) (rs2Reg w) rm) ∧
    DecodesAs 0x53#7 (some rm) (some 0x0C#7)
      (fun w => .fdiv (rdReg w) (rs1Reg w) (rs2Reg w) rm)) ∧
  ∀ (rd rs1 rs2 : Reg) (rm : BitVec 3) (s : State) (a b : Word),
    a = s.readF rs1 → b = s.readF rs2 →
    (∀ k, s.params.fpOps = .given k →
      CommitsFloat (.fadd rd rs1 rs2 rm) s rd (Config.fadd k rm a b) ∧
      CommitsFloat (.fsub rd rs1 rs2 rm) s rd (Config.fsub k rm a b) ∧
      CommitsFloat (.fmul rd rs1 rs2 rm) s rd (Config.fmul k rm a b) ∧
      CommitsFloat (.fdiv rd rs1 rs2 rm) s rd (Config.fdiv k rm a b)) ∧
    (s.params.fpOps = .reference →
      CommitsFloat (.fadd rd rs1 rs2 rm) s rd (refAdd a b) ∧
      CommitsFloat (.fsub rd rs1 rs2 rm) s rd (refSub a b) ∧
      CommitsFloat (.fmul rd rs1 rs2 rm) s rd (refMul a b) ∧
      CommitsFloat (.fdiv rd rs1 rs2 rm) s rd (refDiv a b))

/-- R176: what each mnemonic's commit adds to the stall counter; an unrecognized or unsupported one adds
nothing, no amount depends on operand values, and a faulting cycle adds nothing. -/
def Obligations.StallPerMnemonic : Prop :=
  (∀ (s t : State) (e : InFlight), s.commit e = .next t →
    (∀ i, e.dec.toInstr = some i → supports s.params i.mnemonic = true →
      t.stall = s.stall + stallOf i.mnemonic) ∧
    (∀ i, e.dec.toInstr = some i → supports s.params i.mnemonic = false → t.stall = s.stall) ∧
    (e.dec.toInstr = none → t.stall = s.stall)) ∧
  ∀ (s t : State) (f : Fault), s.status = .running → step s = .next t → t.status = .faulted f →
    t.stall = s.stall

/-! ## The cycle (70_reset_and_hazards.md) -/

/-- A step runs the decoded instruction (R203, R204): when the record in Execute stands for `i`, the step
is `exec i`, then the record moves into Store and the gated steps and the bookkeeping follow; a fault
of either ends the run in the state the cycle began with. -/
def Obligations.StepCommitsDecodedInstruction : Prop :=
  ∀ (s : State) (e : InFlight) (i : Instr), s.status = .running → s.slotE = some e →
    e.dec.toInstr = some i →
    (∀ f, exec i s = .fault f → step s = .next (s.enterFault f)) ∧
    (∀ t f, exec i s = .next t → (t.retire e).gatedSteps = .fault f →
      step s = .next (s.enterFault f)) ∧
    (∀ t u, exec i s = .next t → (t.retire e).gatedSteps = .next u →
      step s = .next u.finishCycle)

/-- R211, R212: a Fetch step at a pc that indexes a stream entry loads the decoded word, logs a Fetch
event and advances the pc: in Linear mode by 4 modulo 2^32, in Looping mode modulo 4N. In Looping mode
one at a pc that indexes none is the fault. -/
def Obligations.ValidFetchAdvances : Prop :=
  ∀ s u : State, s.status = .running → s.storeStep = .next u → u.stall = 0 → u.halt = false →
    (∀ w, u.pc.toNat % 4 = 0 → s.prog[u.pc.toNat / 4]? = some w →
      ∃ t, step s = .next t ∧ NotFaulted t ∧
        t.slotF = some ⟨u.pc.toNat / 4, u.pc, w, decode w, s.cycle⟩ ∧
        t.trace.getLast? = some ⟨u.pc.toNat / 4, .fetch, s.cycle⟩ ∧
        (s.params.fetchMode = .linear → t.pc = u.pc + 4#32) ∧
        (s.params.fetchMode = .looping →
          t.pc = BitVec.ofNat 32 ((u.pc.toNat + 4) % (4 * s.prog.length)))) ∧
    (s.params.fetchMode = .looping →
      ¬(u.pc.toNat % 4 = 0 ∧ u.pc.toNat / 4 < s.prog.length) →
      step s = .next { s with status := .faulted (.fetchOutOfStream u.pc) })

/-- The state of `withFetchWord` runs its word on the very next step (the model's convention, log 6):
the stream holds the word at the pc, and the step commits the instruction it decodes to. -/
def Obligations.PlacedWordRunsNext : Prop :=
  ∀ (s p : State) (w : Word) (i : Instr), p = s.withFetchWord 32 w.toNat →
    decodeInstr w = some i →
    (s.pc.toNat % 4 = 0 → p.streamWord s.pc = some w) ∧
    (∀ f, exec i p = .fault f → step p = .next (p.enterFault f)) ∧
    (∀ t, exec i p = .next t → s.params.fetchMode = .linear →
      ∃ u, step p = .next u ∧ u.x = t.x ∧ u.f = t.f ∧ u.mem = t.mem ∧ u.ticks = t.ticks ∧
        u.unrec = t.unrec ∧ NotFaulted u)

/-- R182, R183: a memory instruction whose access fails ends the run in the state of the start of the
cycle with only the status changed: code 1 before code 2, the effective address recorded. -/
def Obligations.FailedAccessEndsRun : Prop :=
  ∀ (s : State) (e : InFlight) (i : Instr) (r rs1 : Reg) (imm ea : Word),
    s.status = .running → s.slotE = some e → e.dec.toInstr = some i →
    i ∈ [.lw r rs1 imm, .sw r rs1 imm, .flw r rs1 imm, .fsw r rs1 imm] →
    supports s.params i.mnemonic = true → ea = s.readX rs1 + imm →
    (s.params.memCapacity < ea.toNat + 4 →
      step s = .next { s with status := .faulted (.bounds ea) } ∧
      (Fault.bounds ea).code = 1 ∧ (Fault.bounds ea).info = some ea) ∧
    (ea.toNat + 4 ≤ s.params.memCapacity → ea.toNat % 4 ≠ 0 →
      step s = .next { s with status := .faulted (.misalignedAccess ea) } ∧
      (Fault.misalignedAccess ea).code = 2 ∧ (Fault.misalignedAccess ea).info = some ea)

/-- R151, R184: a taken branch or a jump to a target that is not a multiple of 4 ends the run with code
3, the target recorded, in the state the cycle began with; a branch not taken never faults. -/
def Obligations.MisalignedTargetEndsRun : Prop :=
  (∀ (s : State) (e : InFlight) (i : Instr) (target : Word), s.status = .running →
    s.slotE = some e → e.dec.toInstr = some i → TakesTransfer i s target →
    target.toNat % 4 ≠ 0 →
    step s = .next { s with status := .faulted (.misalignedTarget target) } ∧
    (Fault.misalignedTarget target).code = 3 ∧
    (Fault.misalignedTarget target).info = some target) ∧
  ∀ (s : State) (i : Instr) (f : Fault), FallsThrough i s → exec i s ≠ .fault f

/-- R185: in Looping mode a Fetch step that is not suppressed, at a pc that indexes no instruction, ends
the run with code 4 and the pc recorded, whether the stream is empty or a redirect went outside it; in
Linear mode no step raises it. -/
def Obligations.FetchOutOfStreamEndsRun : Prop :=
  (∀ s u : State, s.status = .running → s.params.fetchMode = .looping → s.storeStep = .next u →
    u.halt = false → u.stall = 0 →
    ¬(u.pc.toNat % 4 = 0 ∧ u.pc.toNat / 4 < s.prog.length) →
    step s = .next { s with status := .faulted (.fetchOutOfStream u.pc) }) ∧
  (∀ (s : State) (e : InFlight) (i : Instr) (target : Word), s.status = .running →
    s.params.fetchMode = .looping → s.halt = false → s.stall = 0 → s.slotE = some e →
    e.dec.toInstr = some i → TakesTransfer i s target → target.toNat % 4 = 0 →
    s.prog.length ≤ target.toNat / 4 →
    step s = .next { s with status := .faulted (.fetchOutOfStream target) }) ∧
  (∀ (s t : State) (a : Word), s.status = .running → s.params.fetchMode = .linear →
    step s = .next t → t.status ≠ .faulted (.fetchOutOfStream a)) ∧
  ∀ pc, (Fault.fetchOutOfStream pc).code = 4 ∧ (Fault.fetchOutOfStream pc).info = some pc

/-- R186, R219: a run that faults ends in the state of the start of the faulting cycle with only the
status changed, whichever part of the cycle raised the fault; the commit's fault is the one reported
when there is one (R187). -/
def Obligations.FaultAbandonsCycle : Prop :=
  ∀ (s t : State) (f : Fault), s.status = .running → step s = .next t → t.status = .faulted f →
    t = { s with status := .faulted f } ∧
    (s.storeStep = .fault f ∨ ∃ u, s.storeStep = .next u ∧ u.gatedSteps = .fault f)

/-- R188: an unrecognized instruction, and one of an unsupported extended mnemonic, commits as an
architectural no-op with an observation, moves into the Store slot, logs its Store event and adds no
stall. -/
def Obligations.UnrecognizedCommitsAsNoOp : Prop :=
  ∀ (s : State) (e : InFlight), s.status = .running → s.slotE = some e →
    (e.dec.mnemonic = .unrecognized ∨
      ∃ i, e.dec.toInstr = some i ∧ supports s.params i.mnemonic = false) →
    (∃ u, s.storeStep = .next u ∧ u.x = s.x ∧ u.f = s.f ∧ u.mem = s.mem ∧ u.ticks = s.ticks ∧
      u.pc = s.pc ∧ u.halt = s.halt ∧ u.stall = s.stall ∧
      u.unrec = s.unrec ++ [(e.idx, e.word, s.cycle)] ∧
      u.slotS = some { e with enter := s.cycle } ∧ u.slotF = s.slotF ∧ u.slotD = s.slotD ∧
      u.trace.getLast? = some ⟨e.idx, .store, s.cycle⟩) ∧
    (s.params.fetchMode = .linear → ∃ t, step s = .next t ∧ NotFaulted t ∧ t.x = s.x ∧
      t.f = s.f ∧ t.mem = s.mem ∧ t.ticks = s.ticks ∧
      t.unrec = s.unrec ++ [(e.idx, e.word, s.cycle)] ∧
      t.slotS = some { e with enter := s.cycle })

/-- R207: a taken transfer sets the pc, discards the Fetch and Decode slots and moves into Store, even
when the target is the sequential address; its target is fetched in the same cycle. -/
def Obligations.RedirectFetchesTarget : Prop :=
  ∀ (s : State) (e : InFlight) (i : Instr) (target : Word), s.status = .running →
    s.slotE = some e → e.dec.toInstr = some i → TakesTransfer i s target →
    target.toNat % 4 = 0 →
    (∃ u, s.storeStep = .next u ∧ u.pc = target ∧ u.slotF = none ∧ u.slotD = none ∧
      u.slotE = none ∧ u.slotS = some { e with enter := s.cycle } ∧ u.halt = s.halt ∧
      u.stall = s.stall) ∧
    (∀ w, s.prog[target.toNat / 4]? = some w → s.halt = false → s.stall = 0 →
      ∃ t, step s = .next t ∧ NotFaulted t ∧
        t.slotF = some ⟨target.toNat / 4, target, w, decode w, s.cycle⟩ ∧ t.slotD = none ∧
        t.slotE = none ∧ t.slotS = some { e with enter := s.cycle } ∧ t.pc = s.advance target)

/-- R208, R214: a branch not taken in Looping mode sets the halt flag, discards the Fetch and Decode
slots and moves into Store; nothing is fetched; the run is halted at the end of the next cycle unless
the cycle limit ended it first. -/
def Obligations.LoopingHaltDrains : Prop :=
  ∀ (s : State) (e : InFlight) (i : Instr), s.status = .running → s.slotE = some e →
    e.dec.toInstr = some i → FallsThrough i s → s.params.fetchMode = .looping →
    ∃ t, step s = .next t ∧ t.halt = true ∧ t.slotF = none ∧ t.slotD = none ∧ t.slotE = none ∧
      t.slotS = some { e with enter := s.cycle } ∧ t.pc = s.pc ∧
      (t.status = .running → ∃ u, step t = .next u ∧ u.status = .halted ∧ u.pc = s.pc ∧
        u.x = t.x ∧ u.f = t.f ∧ u.mem = t.mem)

/-- R209: with the stall counter above 0 after the Store step the cycle is observed as stalled, nothing
moves out of Fetch or Decode, nothing is fetched, and the pc and the halt flag stay. Otherwise the
record in Decode moves to Execute and the one in Fetch to Decode, each stamped and logged. -/
def Obligations.StallGatesStages : Prop :=
  ∀ s u : State, s.status = .running → s.storeStep = .next u →
    (u.stall ≠ 0 → s.stalled = true ∧
      ∃ t, step s = .next t ∧ t.slotF = u.slotF ∧ t.slotD = u.slotD ∧ t.slotE = none ∧
        t.slotS = u.slotS ∧ t.pc = u.pc ∧ t.halt = u.halt ∧ t.trace = u.trace ∧ t.x = u.x ∧
        t.f = u.f ∧ t.mem = u.mem) ∧
    (u.stall = 0 → s.stalled = false ∧ ∀ t, step s = .next t → NotFaulted t →
      t.slotE = u.slotD.map (fun d => { d with enter := s.cycle }) ∧
      t.slotD = u.slotF.map (fun d => { d with enter := s.cycle }) ∧
      (∀ d, u.slotD = some d → (⟨d.idx, .execute, s.cycle⟩ : TraceEvent) ∈ t.trace) ∧
      (∀ d, u.slotF = some d → (⟨d.idx, .decode, s.cycle⟩ : TraceEvent) ∈ t.trace))

/-- Derived from R209, R210 and R222: a record moves one stage at a time and skips none. What is in a
slot after a completed cycle was in the slot before it, or was held there, or was just fetched. -/
def Obligations.NoStageIsSkipped : Prop :=
  ∀ s t : State, s.status = .running → step s = .next t → NotFaulted t →
    (∀ e, t.slotS = some e → ∃ d, s.slotE = some d ∧ e = { d with enter := s.cycle }) ∧
    (∀ e, t.slotE = some e → ∃ d, s.slotD = some d ∧ e = { d with enter := s.cycle }) ∧
    (∀ e, t.slotD = some e →
      s.slotD = some e ∨ ∃ d, s.slotF = some d ∧ e = { d with enter := s.cycle }) ∧
    (∀ e, t.slotF = some e → s.slotF = some e ∨
      (s.prog[e.idx]? = some e.word ∧ e.dec = decode e.word ∧ e.enter = s.cycle ∧
        e.idx = e.ipc.toNat / 4))

/-- R213: at the end of the stream in Linear mode nothing is fetched and the pc stays; the halt flag is
set exactly when Decode and Execute are empty after they have moved, that is when nothing older was
left to move. -/
def Obligations.LinearEndOfStream : Prop :=
  ∀ s u : State, s.status = .running → s.params.fetchMode = .linear → s.storeStep = .next u →
    u.stall = 0 → u.halt = false →
    ¬(u.pc.toNat % 4 = 0 ∧ u.pc.toNat / 4 < u.prog.length) →
    ∃ t, step s = .next t ∧ NotFaulted t ∧ t.pc = u.pc ∧ t.slotF = none ∧
      (t.halt = true ↔ u.slotF = none ∧ u.slotD = none)

/-- R215, R217: at the end of a completed cycle the stall counter is decremented once and not below 0,
the cycle is counted, and the run is halted, else at its limit, else running. -/
def Obligations.CycleBookkeeping : Prop :=
  ∀ s t u : State, s.status = .running → s.storeStep = .next u → step s = .next t →
    NotFaulted t →
    t.stall = u.stall - 1 ∧ t.cycle = s.cycle + 1 ∧
    (t.status = .halted ↔ t.halt = true ∧ t.slotF = none ∧ t.slotD = none ∧ t.slotE = none ∧
      t.slotS = none) ∧
    (t.status = .limitReached ↔ t.status ≠ .halted ∧ 0 < s.params.cycleLimit ∧
      s.params.cycleLimit ≤ t.cycle) ∧
    (t.status = .running ↔ t.status ≠ .halted ∧ t.status ≠ .limitReached)

/-- A run that has ended stays as it is (the model's choice, log 10: R203 states the precondition that
the status is Running, R180 and R199 that nothing changes after the end). -/
def Obligations.EndedRunStays : Prop :=
  ∀ s : State, s.status ≠ .running → step s = .next s

/-- Derived from R220: logging removes the older events of the same entry and stage, keeps all others in
their order, and appends the new event last. -/
def Obligations.TraceLogPurges : Prop :=
  ∀ (trace : List TraceEvent) (idx : Nat) (stage : Stage) (c : Nat),
    ∃ kept, logEvent trace idx stage c = kept ++ [⟨idx, stage, c⟩] ∧ kept.Sublist trace ∧
      ∀ ev, ev ∈ kept ↔ ev ∈ trace ∧ ¬(ev.idx = idx ∧ ev.stage = stage)

/-- R28: the pc changes by the Fetch advance and by a redirect only, and no instruction's result depends
on it: with another pc the commit writes the same registers and memory. -/
def Obligations.PcChangesByFetchOrRedirect : Prop :=
  (∀ s t : State, step s = .next t → t.pc ≠ s.pc →
    t.pc = s.advance s.pc ∨
    ∃ e i target, s.slotE = some e ∧ e.dec.toInstr = some i ∧ TakesTransfer i s target ∧
      (t.pc = target ∨ t.pc = s.advance target)) ∧
  ∀ (i : Instr) (s t : State) (pc : Word), s.slotE ≠ none → exec i s = .next t →
    ∃ u, exec i { s with pc := pc } = .next u ∧ u.x = t.x ∧ u.f = t.f ∧ u.mem = t.mem ∧
      u.unrec = t.unrec

/-- R34: once set the halt flag is never cleared; it is set by a branch not taken in Looping mode, or at
the end of the stream in Linear mode; it is false at reset. -/
def Obligations.HaltFlagSources : Prop :=
  State.reset.halt = false ∧
  ∀ s t : State, step s = .next t →
    (s.halt = true → t.halt = true) ∧
    (s.halt = false → t.halt = true →
      (s.params.fetchMode = .looping ∧
        ∃ e i, s.slotE = some e ∧ e.dec.toInstr = some i ∧ FallsThrough i s) ∨
      (s.params.fetchMode = .linear ∧
        ¬(t.pc.toNat % 4 = 0 ∧ t.pc.toNat / 4 < s.prog.length)))

/-- R42: registers, memory, ticks and observations change at a Store-stage commit only; the Fetch, Decode
and Execute steps change the pc, the slots, the halt flag (in Linear mode) and the trace only. -/
def Obligations.OnlyCommitsChangeArchitecture : Prop :=
  (∀ s t : State, s.slotE = none → step s = .next t →
    t.x = s.x ∧ t.f = s.f ∧ t.mem = s.mem ∧ t.ticks = s.ticks ∧ t.unrec = s.unrec) ∧
  ∀ u v : State, u.gatedSteps = .next v →
    v = { u with pc := v.pc, slotF := v.slotF, slotD := v.slotD, slotE := v.slotE,
                 halt := v.halt, trace := v.trace } ∧
    (u.params.fetchMode = .looping → v.halt = u.halt)

/-- R43: no step changes the stream or a parameter. -/
def Obligations.StreamAndParametersFixed : Prop :=
  ∀ s t : State, step s = .next t → t.prog = s.prog ∧ t.params = s.params

/-! ## Launch (70_reset_and_hazards.md R200, 20_memory.md R61) -/

/-- R200: the launch state, for every launch input. -/
def Obligations.LaunchState : Prop :=
  ∀ (p : Params) (prog : List Word) (ix fx : Vector Word 32) (im : List Byte) (s : State),
    s = State.launch p prog ix fx im →
    s.readX 0 = 0#32 ∧ (∀ r : Reg, r ≠ 0 → s.readX r = ix.get r) ∧
    (∀ r : Reg, s.readF r = fx.get r) ∧ s.pc = 0#32 ∧
    s.slotF = none ∧ s.slotD = none ∧ s.slotE = none ∧ s.slotS = none ∧
    s.stall = 0 ∧ s.halt = false ∧ s.cycle = 0 ∧ s.ticks = 0 ∧
    (∀ a b, im[a]? = some b → s.mem.readByte a = b) ∧
    s.trace = [] ∧ s.unrec = [] ∧ s.status = .running ∧ s.prog = prog ∧ s.params = p

/-- R61, R189: the stream of an image is its whole little-endian words in order, where a word is left out
exactly when it equals the word before it (the equations on neighbours fix the stream of every word
list); a missing file is `IoError`, code 5, before any cycle. -/
def Obligations.ImageLoads : Prop :=
  (∀ (bytes : List Byte) (j : Nat), (imageWords bytes).length = bytes.length / 4 ∧
    ∀ b0 b1 b2 b3, bytes[4 * j]? = some b0 → bytes[4 * j + 1]? = some b1 →
      bytes[4 * j + 2]? = some b2 → bytes[4 * j + 3]? = some b3 →
      (imageWords bytes)[j]? = some (b3 ++ b2 ++ b1 ++ b0)) ∧
  (collapseRepeats none [] = [] ∧ (∀ w, collapseRepeats none [w] = [w]) ∧
    (∀ w rest, collapseRepeats none (w :: w :: rest) = collapseRepeats none (w :: rest)) ∧
    (∀ w v rest, w ≠ v →
      collapseRepeats none (w :: v :: rest) = w :: collapseRepeats none (v :: rest)) ∧
    ∀ bytes, loadImage bytes = collapseRepeats none (imageWords bytes)) ∧
  (∀ bytes : List Byte,
    (loadImage bytes).Sublist (imageWords bytes) ∧
    (∀ w, w ∈ imageWords bytes ↔ w ∈ loadImage bytes) ∧
    (loadImage bytes).IsChain (· ≠ ·) ∧
    ((imageWords bytes).IsChain (· ≠ ·) → loadImage bytes = imageWords bytes)) ∧
  ∀ (p : Params) (ix fx : Vector Word 32) (im : List Byte),
    launchImage none p ix fx im = .fault .ioError ∧ Fault.ioError.code = 5 ∧
    ∀ bytes, launchOk p (loadImage bytes) im = true →
      launchImage (some bytes) p ix fx im = .next (State.launch p (loadImage bytes) ix fx im)

/-! ## Invariants -/

/-- The invariant holds at reset. Its values of the launch inputs are the model's (log 3 to log 6). -/
def Obligations.ResetMeetsInv : Prop := Inv State.reset

/-- The invariant holds at every launch whose inputs are within the bounds of R8. -/
def Obligations.LaunchMeetsInv : Prop :=
  ∀ (p : Params) (prog : List Word) (ix fx : Vector Word 32) (im : List Byte),
    launchOk p prog im = true → Inv (State.launch p prog ix fx im)

/-- The invariant of a run is kept by every step, from every state that has it. -/
def Obligations.StepKeepsInv : Prop :=
  ∀ s t : State, Inv s → step s = .next t → Inv t

/-- Derived from R29: the pc stays a multiple of 4, from any state in which it is one. -/
def Obligations.PcStaysAligned : Prop :=
  ∀ s t : State, s.pc.toNat % 4 = 0 → step s = .next t → t.pc.toNat % 4 = 0

/-- Data memory keeps its canonical form and stays within the capacity (R50), from any state in which it
is so. -/
def Obligations.MemoryStaysCanonical : Prop :=
  ∀ s t : State, s.mem.wf = true → s.mem.below s.params.memCapacity = true →
    step s = .next t → t.mem.wf = true ∧ t.mem.below t.params.memCapacity = true

/-! ## The pipeline and the sequential machine (R224) -/

/-- Derived from R224: a completed cycle that commits is one step of the sequential machine, and a
completed cycle that commits nothing is none. -/
def Obligations.PipelineRefinesSequential : Prop :=
  ∀ s t : State, Inv s → s.status = .running → step s = .next t → NotFaulted t →
    (s.slotE = none → t.sequentialView = s.sequentialView) ∧
    (s.slotE ≠ none → s.sequentialView.sequentialStopped = false ∧
      s.sequentialView.sequentialStep = .next t.sequentialView)

/-- Derived from R224: a run that faults is in the sequential state just before the faulting instruction,
except that a fetch out of the stream also undoes the instruction whose redirect caused it. -/
def Obligations.PipelineFaultsAsSequential : Prop :=
  ∀ (s t : State) (f : Fault), Inv s → s.status = .running → step s = .next t →
    t.status = .faulted f →
    t.sequentialView = s.sequentialView ∧
    (s.sequentialView.sequentialStep = .fault f ∨
      (s.slotE ≠ none ∧ ∃ u, s.sequentialView.sequentialStep = .next u ∧
        u.sequentialStep = .fault f ∧ ∃ a, f = .fetchOutOfStream a))

/-- Derived from R224 and R231: when a run is halted the sequential machine has stopped, all four slots
are empty, the halt flag is set and the stall counter is 0. -/
def Obligations.HaltedRunIsSequentialStop : Prop :=
  ∀ s : State, Inv s → s.status = .halted →
    s.sequentialView.sequentialStopped = true ∧ s.halt = true ∧ s.stall = 0 ∧
    s.slotF = none ∧ s.slotD = none ∧ s.slotE = none ∧ s.slotS = none ∧
    (s.params.fetchMode = .linear → s.streamWord s.pc = none)
end

