-- ==== Sys2Proof/Laws/Decode.lean ====
section
/-! SUPPORT. The fields of an encoded word, format by format, and the immediates that a sign extension
gives back. -/

namespace Sys2Proof

@[simp] theorem regOf_regBits (r : Reg) : regOf (regBits r) = r := rfl

@[simp] theorem regBits_regOf (b : BitVec 5) : regBits (regOf b) = b := rfl

/-! ## The encoders with their widths written out -/

theorem encodeR_cast (f7 : BitVec 7) (f3 : BitVec 3) (op : BitVec 7) (rd rs1 rs2 : Reg) :
    encodeR f7 f3 op rd rs1 rs2 = BitVec.cast (show 7 + 5 + 5 + 3 + 5 + 7 = 32 from rfl)
      (f7 ++ regBits rs2 ++ regBits rs1 ++ f3 ++ regBits rd ++ op) := rfl

theorem encodeI_cast (f3 : BitVec 3) (op : BitVec 7) (rd rs1 : Reg) (imm : Word) :
    encodeI f3 op rd rs1 imm = BitVec.cast (show 12 + 5 + 3 + 5 + 7 = 32 from rfl)
      (imm.extractLsb' 0 12 ++ regBits rs1 ++ f3 ++ regBits rd ++ op) := rfl

theorem encodeS_cast (f3 : BitVec 3) (op : BitVec 7) (rs1 rs2 : Reg) (imm : Word) :
    encodeS f3 op rs1 rs2 imm = BitVec.cast (show 7 + 5 + 5 + 3 + 5 + 7 = 32 from rfl)
      (imm.extractLsb' 5 7 ++ regBits rs2 ++ regBits rs1 ++ f3 ++ imm.extractLsb' 0 5 ++ op) := rfl

theorem encodeB_cast (f3 : BitVec 3) (op : BitVec 7) (rs1 rs2 : Reg) (imm : Word) :
    encodeB f3 op rs1 rs2 imm = BitVec.cast (show 1 + 6 + 5 + 5 + 3 + 4 + 1 + 7 = 32 from rfl)
      (imm.extractLsb' 12 1 ++ imm.extractLsb' 5 6 ++ regBits rs2 ++ regBits rs1 ++ f3 ++
        imm.extractLsb' 1 4 ++ imm.extractLsb' 11 1 ++ op) := rfl

theorem encodeU_cast (op : BitVec 7) (rd : Reg) (imm : Word) :
    encodeU op rd imm = BitVec.cast (show 20 + 5 + 7 = 32 from rfl)
      (imm.extractLsb' 0 20 ++ regBits rd ++ op) := rfl

theorem encodeJ_cast (op : BitVec 7) (rd : Reg) (imm : Word) :
    encodeJ op rd imm = BitVec.cast (show 1 + 10 + 1 + 8 + 5 + 7 = 32 from rfl)
      (imm.extractLsb' 20 1 ++ imm.extractLsb' 1 10 ++ imm.extractLsb' 11 1 ++
        imm.extractLsb' 12 8 ++ regBits rd ++ op) := rfl

theorem sBits_cast (w : Word) : sBits w = BitVec.cast (show 7 + 5 = 12 from rfl)
    (w.extractLsb' 25 7 ++ w.extractLsb' 7 5) := rfl

theorem bBits_cast (w : Word) : bBits w = BitVec.cast (show 1 + 1 + 6 + 4 + 1 = 13 from rfl)
    (w.extractLsb' 31 1 ++ w.extractLsb' 7 1 ++ w.extractLsb' 25 6 ++ w.extractLsb' 8 4 ++ 0#1) :=
  rfl

theorem jBits_cast (w : Word) : jBits w = BitVec.cast (show 1 + 8 + 1 + 10 + 1 = 21 from rfl)
    (w.extractLsb' 31 1 ++ w.extractLsb' 12 8 ++ w.extractLsb' 20 1 ++ w.extractLsb' 21 10 ++ 0#1) :=
  rfl

/-! ## Fields of encoded words -/

theorem encodeR_fields (f7 : BitVec 7) (f3 : BitVec 3) (op : BitVec 7) (rd rs1 rs2 : Reg) :
    opcodeOf (encodeR f7 f3 op rd rs1 rs2) = op ∧
    rdOf (encodeR f7 f3 op rd rs1 rs2) = regBits rd ∧
    funct3Of (encodeR f7 f3 op rd rs1 rs2) = f3 ∧
    rs1Of (encodeR f7 f3 op rd rs1 rs2) = regBits rs1 ∧
    rs2Of (encodeR f7 f3 op rd rs1 rs2) = regBits rs2 ∧
    funct7Of (encodeR f7 f3 op rd rs1 rs2) = f7 := by
  rw [encodeR_cast]
  refine ⟨?_, ?_, ?_, ?_, ?_, ?_⟩ <;> ext i hi <;>
    simp only [opcodeOf, rdOf, funct3Of, rs1Of, rs2Of, funct7Of, BitVec.getElem_extractLsb',
      BitVec.getLsbD_cast, BitVec.getLsbD_append] <;> grind

theorem encodeI_fields (f3 : BitVec 3) (op : BitVec 7) (rd rs1 : Reg) (imm : Word) :
    opcodeOf (encodeI f3 op rd rs1 imm) = op ∧
    rdOf (encodeI f3 op rd rs1 imm) = regBits rd ∧
    funct3Of (encodeI f3 op rd rs1 imm) = f3 ∧
    rs1Of (encodeI f3 op rd rs1 imm) = regBits rs1 ∧
    funct7Of (encodeI f3 op rd rs1 imm) = imm.extractLsb' 5 7 ∧
    iBits (encodeI f3 op rd rs1 imm) = imm.extractLsb' 0 12 := by
  rw [encodeI_cast]
  refine ⟨?_, ?_, ?_, ?_, ?_, ?_⟩ <;> ext i hi <;>
    simp only [opcodeOf, rdOf, funct3Of, rs1Of, funct7Of, iBits, BitVec.getElem_extractLsb',
      BitVec.getLsbD_cast, BitVec.getLsbD_append, BitVec.getLsbD_extractLsb'] <;> grind

theorem encodeS_fields (f3 : BitVec 3) (op : BitVec 7) (rs1 rs2 : Reg) (imm : Word) :
    opcodeOf (encodeS f3 op rs1 rs2 imm) = op ∧
    funct3Of (encodeS f3 op rs1 rs2 imm) = f3 ∧
    rs1Of (encodeS f3 op rs1 rs2 imm) = regBits rs1 ∧
    rs2Of (encodeS f3 op rs1 rs2 imm) = regBits rs2 ∧
    sBits (encodeS f3 op rs1 rs2 imm) = imm.extractLsb' 0 12 := by
  rw [encodeS_cast]
  refine ⟨?_, ?_, ?_, ?_, ?_⟩ <;> ext i hi <;>
    simp only [opcodeOf, funct3Of, rs1Of, rs2Of, sBits_cast, BitVec.getElem_cast,
      BitVec.getElem_append, BitVec.getElem_extractLsb', BitVec.getLsbD_cast,
      BitVec.getLsbD_append, BitVec.getLsbD_extractLsb'] <;> grind

/-- The B-immediate has no bit 0, so the encoded word gives it back with bit 0 cleared (R78). -/
theorem encodeB_fields (f3 : BitVec 3) (op : BitVec 7) (rs1 rs2 : Reg) (imm : Word)
    (even : imm.getLsbD 0 = false) :
    opcodeOf (encodeB f3 op rs1 rs2 imm) = op ∧
    funct3Of (encodeB f3 op rs1 rs2 imm) = f3 ∧
    rs1Of (encodeB f3 op rs1 rs2 imm) = regBits rs1 ∧
    rs2Of (encodeB f3 op rs1 rs2 imm) = regBits rs2 ∧
    bBits (encodeB f3 op rs1 rs2 imm) = imm.extractLsb' 0 13 := by
  rw [encodeB_cast]
  refine ⟨?_, ?_, ?_, ?_, ?_⟩
  · ext i hi
    simp only [opcodeOf, BitVec.getElem_extractLsb', BitVec.getLsbD_cast, BitVec.getLsbD_append]
    grind
  · ext i hi
    simp only [funct3Of, BitVec.getElem_extractLsb', BitVec.getLsbD_cast, BitVec.getLsbD_append]
    grind
  · ext i hi
    simp only [rs1Of, BitVec.getElem_extractLsb', BitVec.getLsbD_cast, BitVec.getLsbD_append]
    grind
  · ext i hi
    simp only [rs2Of, BitVec.getElem_extractLsb', BitVec.getLsbD_cast, BitVec.getLsbD_append]
    grind
  · ext i hi
    simp only [bBits_cast, BitVec.getElem_cast, BitVec.getElem_append, BitVec.getElem_extractLsb',
      BitVec.getLsbD_cast, BitVec.getLsbD_append, BitVec.getLsbD_extractLsb']
    have low : imm[0] = false := even
    interval_cases i <;> simp [low]

theorem encodeU_fields (op : BitVec 7) (rd : Reg) (imm : Word) :
    opcodeOf (encodeU op rd imm) = op ∧
    rdOf (encodeU op rd imm) = regBits rd ∧
    uBits (encodeU op rd imm) = imm.extractLsb' 0 20 := by
  rw [encodeU_cast]
  refine ⟨?_, ?_, ?_⟩ <;> ext i hi <;>
    simp only [opcodeOf, rdOf, uBits, BitVec.getElem_extractLsb', BitVec.getLsbD_cast,
      BitVec.getLsbD_append, BitVec.getLsbD_extractLsb'] <;> grind

/-- The J-immediate has no bit 0, so the encoded word gives it back with bit 0 cleared (R80). -/
theorem encodeJ_fields (op : BitVec 7) (rd : Reg) (imm : Word) (even : imm.getLsbD 0 = false) :
    opcodeOf (encodeJ op rd imm) = op ∧
    rdOf (encodeJ op rd imm) = regBits rd ∧
    jBits (encodeJ op rd imm) = imm.extractLsb' 0 21 := by
  rw [encodeJ_cast]
  refine ⟨?_, ?_, ?_⟩
  · ext i hi
    simp only [opcodeOf, BitVec.getElem_extractLsb', BitVec.getLsbD_cast, BitVec.getLsbD_append]
    grind
  · ext i hi
    simp only [rdOf, BitVec.getElem_extractLsb', BitVec.getLsbD_cast, BitVec.getLsbD_append]
    grind
  · ext i hi
    simp only [jBits_cast, BitVec.getElem_cast, BitVec.getElem_append, BitVec.getElem_extractLsb',
      BitVec.getLsbD_cast, BitVec.getLsbD_append, BitVec.getLsbD_extractLsb']
    have low : imm[0] = false := even
    interval_cases i <;> simp [low]

theorem encodeR_opcode (f7 : BitVec 7) (f3 : BitVec 3) (op : BitVec 7) (rd rs1 rs2 : Reg) :
    opcodeOf (encodeR f7 f3 op rd rs1 rs2) = op := (encodeR_fields ..).1

theorem encodeI_opcode (f3 : BitVec 3) (op : BitVec 7) (rd rs1 : Reg) (imm : Word) :
    opcodeOf (encodeI f3 op rd rs1 imm) = op := (encodeI_fields ..).1

theorem encodeS_opcode (f3 : BitVec 3) (op : BitVec 7) (rs1 rs2 : Reg) (imm : Word) :
    opcodeOf (encodeS f3 op rs1 rs2 imm) = op := (encodeS_fields ..).1

theorem encodeB_opcode (f3 : BitVec 3) (op : BitVec 7) (rs1 rs2 : Reg) (imm : Word) :
    opcodeOf (encodeB f3 op rs1 rs2 imm) = op := by
  rw [encodeB_cast]
  ext i hi
  simp only [opcodeOf, BitVec.getElem_extractLsb', BitVec.getLsbD_cast, BitVec.getLsbD_append]
  grind

theorem encodeU_opcode (op : BitVec 7) (rd : Reg) (imm : Word) :
    opcodeOf (encodeU op rd imm) = op := (encodeU_fields ..).1

theorem encodeJ_opcode (op : BitVec 7) (rd : Reg) (imm : Word) :
    opcodeOf (encodeJ op rd imm) = op := by
  rw [encodeJ_cast]
  ext i hi
  simp only [opcodeOf, BitVec.getElem_extractLsb', BitVec.getLsbD_cast, BitVec.getLsbD_append]
  grind

/-- An even value has bit 0 clear. -/
theorem low_bit_of_even {imm : Word} (h : imm.toInt % 2 = 0) : imm.getLsbD 0 = false := by
  rw [BitVec.getLsbD, Nat.testBit_zero]
  rw [BitVec.toInt_eq_toNat_bmod, Int.bmod_def] at h
  simp only [decide_eq_false_iff_not]
  norm_num at h
  omega

/-! ## Immediates in range are the sign extension of their low bits -/

theorem signExtend_imm12 {imm : Word} (h : imm12Ok imm) :
    (imm.extractLsb' 0 12).signExtend 32 = imm := by
  apply BitVec.eq_of_toInt_eq
  obtain ⟨h1, h2⟩ := h
  rw [BitVec.toInt_signExtend]
  simp only [BitVec.toInt_eq_toNat_bmod, BitVec.extractLsb'_toNat, Nat.shiftRight_zero,
    Int.bmod_def] at *
  norm_num at *
  omega

theorem signExtend_imm13 {imm : Word} (h : imm13Ok imm) :
    (imm.extractLsb' 0 13).signExtend 32 = imm := by
  apply BitVec.eq_of_toInt_eq
  obtain ⟨h1, h2, -⟩ := h
  rw [BitVec.toInt_signExtend]
  simp only [BitVec.toInt_eq_toNat_bmod, BitVec.extractLsb'_toNat, Nat.shiftRight_zero,
    Int.bmod_def] at *
  norm_num at *
  omega

theorem signExtend_imm20 {imm : Word} (h : imm20Ok imm) :
    (imm.extractLsb' 0 20).signExtend 32 = imm := by
  apply BitVec.eq_of_toInt_eq
  obtain ⟨h1, h2⟩ := h
  rw [BitVec.toInt_signExtend]
  simp only [BitVec.toInt_eq_toNat_bmod, BitVec.extractLsb'_toNat, Nat.shiftRight_zero,
    Int.bmod_def] at *
  norm_num at *
  omega

theorem signExtend_imm21 {imm : Word} (h : imm21Ok imm) :
    (imm.extractLsb' 0 21).signExtend 32 = imm := by
  apply BitVec.eq_of_toInt_eq
  obtain ⟨h1, h2, -⟩ := h
  rw [BitVec.toInt_signExtend]
  simp only [BitVec.toInt_eq_toNat_bmod, BitVec.extractLsb'_toNat, Nat.shiftRight_zero,
    Int.bmod_def] at *
  norm_num at *
  omega

end Sys2Proof
end

