-- ==== Sys2Proof/Laws/State.lean ====
section
/-! SUPPORT. One lemma per field of the state per update, each true by `rfl`, so that no proof unfolds a
record update. -/

namespace Sys2Proof.Machine

variable (s : State)

/-! ## `writeX` -/

@[simp] theorem State.writeX_params (r : Reg) (v : Word) : (s.writeX r v).params = s.params := rfl
@[simp] theorem State.writeX_prog (r : Reg) (v : Word) : (s.writeX r v).prog = s.prog := rfl
@[simp] theorem State.writeX_x (r : Reg) (v : Word) :
    (s.writeX r v).x = if r = 0 then s.x else setReg s.x r v := rfl
@[simp] theorem State.writeX_f (r : Reg) (v : Word) : (s.writeX r v).f = s.f := rfl
@[simp] theorem State.writeX_pc (r : Reg) (v : Word) : (s.writeX r v).pc = s.pc := rfl
@[simp] theorem State.writeX_slotF (r : Reg) (v : Word) : (s.writeX r v).slotF = s.slotF := rfl
@[simp] theorem State.writeX_slotD (r : Reg) (v : Word) : (s.writeX r v).slotD = s.slotD := rfl
@[simp] theorem State.writeX_slotE (r : Reg) (v : Word) : (s.writeX r v).slotE = s.slotE := rfl
@[simp] theorem State.writeX_slotS (r : Reg) (v : Word) : (s.writeX r v).slotS = s.slotS := rfl
@[simp] theorem State.writeX_stall (r : Reg) (v : Word) : (s.writeX r v).stall = s.stall := rfl
@[simp] theorem State.writeX_halt (r : Reg) (v : Word) : (s.writeX r v).halt = s.halt := rfl
@[simp] theorem State.writeX_cycle (r : Reg) (v : Word) : (s.writeX r v).cycle = s.cycle := rfl
@[simp] theorem State.writeX_ticks (r : Reg) (v : Word) : (s.writeX r v).ticks = s.ticks := rfl
@[simp] theorem State.writeX_mem (r : Reg) (v : Word) : (s.writeX r v).mem = s.mem := rfl
@[simp] theorem State.writeX_trace (r : Reg) (v : Word) : (s.writeX r v).trace = s.trace := rfl
@[simp] theorem State.writeX_unrec (r : Reg) (v : Word) : (s.writeX r v).unrec = s.unrec := rfl
@[simp] theorem State.writeX_status (r : Reg) (v : Word) : (s.writeX r v).status = s.status := rfl

/-! ## `writeF` -/

@[simp] theorem State.writeF_params (r : Reg) (v : Word) : (s.writeF r v).params = s.params := rfl
@[simp] theorem State.writeF_prog (r : Reg) (v : Word) : (s.writeF r v).prog = s.prog := rfl
@[simp] theorem State.writeF_x (r : Reg) (v : Word) : (s.writeF r v).x = s.x := rfl
@[simp] theorem State.writeF_f (r : Reg) (v : Word) : (s.writeF r v).f = setReg s.f r v := rfl
@[simp] theorem State.writeF_pc (r : Reg) (v : Word) : (s.writeF r v).pc = s.pc := rfl
@[simp] theorem State.writeF_slotF (r : Reg) (v : Word) : (s.writeF r v).slotF = s.slotF := rfl
@[simp] theorem State.writeF_slotD (r : Reg) (v : Word) : (s.writeF r v).slotD = s.slotD := rfl
@[simp] theorem State.writeF_slotE (r : Reg) (v : Word) : (s.writeF r v).slotE = s.slotE := rfl
@[simp] theorem State.writeF_slotS (r : Reg) (v : Word) : (s.writeF r v).slotS = s.slotS := rfl
@[simp] theorem State.writeF_stall (r : Reg) (v : Word) : (s.writeF r v).stall = s.stall := rfl
@[simp] theorem State.writeF_halt (r : Reg) (v : Word) : (s.writeF r v).halt = s.halt := rfl
@[simp] theorem State.writeF_cycle (r : Reg) (v : Word) : (s.writeF r v).cycle = s.cycle := rfl
@[simp] theorem State.writeF_ticks (r : Reg) (v : Word) : (s.writeF r v).ticks = s.ticks := rfl
@[simp] theorem State.writeF_mem (r : Reg) (v : Word) : (s.writeF r v).mem = s.mem := rfl
@[simp] theorem State.writeF_trace (r : Reg) (v : Word) : (s.writeF r v).trace = s.trace := rfl
@[simp] theorem State.writeF_unrec (r : Reg) (v : Word) : (s.writeF r v).unrec = s.unrec := rfl
@[simp] theorem State.writeF_status (r : Reg) (v : Word) : (s.writeF r v).status = s.status := rfl

/-! ## `enterFault` -/

@[simp] theorem State.enterFault_params (e : Fault) : (s.enterFault e).params = s.params := rfl
@[simp] theorem State.enterFault_prog (e : Fault) : (s.enterFault e).prog = s.prog := rfl
@[simp] theorem State.enterFault_x (e : Fault) : (s.enterFault e).x = s.x := rfl
@[simp] theorem State.enterFault_f (e : Fault) : (s.enterFault e).f = s.f := rfl
@[simp] theorem State.enterFault_pc (e : Fault) : (s.enterFault e).pc = s.pc := rfl
@[simp] theorem State.enterFault_slotF (e : Fault) : (s.enterFault e).slotF = s.slotF := rfl
@[simp] theorem State.enterFault_slotD (e : Fault) : (s.enterFault e).slotD = s.slotD := rfl
@[simp] theorem State.enterFault_slotE (e : Fault) : (s.enterFault e).slotE = s.slotE := rfl
@[simp] theorem State.enterFault_slotS (e : Fault) : (s.enterFault e).slotS = s.slotS := rfl
@[simp] theorem State.enterFault_stall (e : Fault) : (s.enterFault e).stall = s.stall := rfl
@[simp] theorem State.enterFault_halt (e : Fault) : (s.enterFault e).halt = s.halt := rfl
@[simp] theorem State.enterFault_cycle (e : Fault) : (s.enterFault e).cycle = s.cycle := rfl
@[simp] theorem State.enterFault_ticks (e : Fault) : (s.enterFault e).ticks = s.ticks := rfl
@[simp] theorem State.enterFault_mem (e : Fault) : (s.enterFault e).mem = s.mem := rfl
@[simp] theorem State.enterFault_trace (e : Fault) : (s.enterFault e).trace = s.trace := rfl
@[simp] theorem State.enterFault_unrec (e : Fault) : (s.enterFault e).unrec = s.unrec := rfl
@[simp] theorem State.enterFault_status (e : Fault) : (s.enterFault e).status = .faulted e := rfl

/-! ## `chargeRead` -/

@[simp] theorem State.chargeRead_params : (s.chargeRead).params = s.params := rfl
@[simp] theorem State.chargeRead_prog : (s.chargeRead).prog = s.prog := rfl
@[simp] theorem State.chargeRead_x : (s.chargeRead).x = s.x := rfl
@[simp] theorem State.chargeRead_f : (s.chargeRead).f = s.f := rfl
@[simp] theorem State.chargeRead_pc : (s.chargeRead).pc = s.pc := rfl
@[simp] theorem State.chargeRead_slotF : (s.chargeRead).slotF = s.slotF := rfl
@[simp] theorem State.chargeRead_slotD : (s.chargeRead).slotD = s.slotD := rfl
@[simp] theorem State.chargeRead_slotE : (s.chargeRead).slotE = s.slotE := rfl
@[simp] theorem State.chargeRead_slotS : (s.chargeRead).slotS = s.slotS := rfl
@[simp] theorem State.chargeRead_stall : (s.chargeRead).stall = s.stall := rfl
@[simp] theorem State.chargeRead_halt : (s.chargeRead).halt = s.halt := rfl
@[simp] theorem State.chargeRead_cycle : (s.chargeRead).cycle = s.cycle := rfl
@[simp] theorem State.chargeRead_ticks :
    (s.chargeRead).ticks = s.ticks + s.params.readLatency := rfl
@[simp] theorem State.chargeRead_mem : (s.chargeRead).mem = s.mem := rfl
@[simp] theorem State.chargeRead_trace : (s.chargeRead).trace = s.trace := rfl
@[simp] theorem State.chargeRead_unrec : (s.chargeRead).unrec = s.unrec := rfl
@[simp] theorem State.chargeRead_status : (s.chargeRead).status = s.status := rfl

/-! ## `storeWord` -/

@[simp] theorem State.storeWord_params (ea v : Word) : (s.storeWord ea v).params = s.params := rfl
@[simp] theorem State.storeWord_prog (ea v : Word) : (s.storeWord ea v).prog = s.prog := rfl
@[simp] theorem State.storeWord_x (ea v : Word) : (s.storeWord ea v).x = s.x := rfl
@[simp] theorem State.storeWord_f (ea v : Word) : (s.storeWord ea v).f = s.f := rfl
@[simp] theorem State.storeWord_pc (ea v : Word) : (s.storeWord ea v).pc = s.pc := rfl
@[simp] theorem State.storeWord_slotF (ea v : Word) : (s.storeWord ea v).slotF = s.slotF := rfl
@[simp] theorem State.storeWord_slotD (ea v : Word) : (s.storeWord ea v).slotD = s.slotD := rfl
@[simp] theorem State.storeWord_slotE (ea v : Word) : (s.storeWord ea v).slotE = s.slotE := rfl
@[simp] theorem State.storeWord_slotS (ea v : Word) : (s.storeWord ea v).slotS = s.slotS := rfl
@[simp] theorem State.storeWord_stall (ea v : Word) : (s.storeWord ea v).stall = s.stall := rfl
@[simp] theorem State.storeWord_halt (ea v : Word) : (s.storeWord ea v).halt = s.halt := rfl
@[simp] theorem State.storeWord_cycle (ea v : Word) : (s.storeWord ea v).cycle = s.cycle := rfl
@[simp] theorem State.storeWord_ticks (ea v : Word) :
    (s.storeWord ea v).ticks = s.ticks + s.params.writeLatency := rfl
@[simp] theorem State.storeWord_mem (ea v : Word) :
    (s.storeWord ea v).mem = s.mem.writeWord ea.toNat v := rfl
@[simp] theorem State.storeWord_trace (ea v : Word) : (s.storeWord ea v).trace = s.trace := rfl
@[simp] theorem State.storeWord_unrec (ea v : Word) : (s.storeWord ea v).unrec = s.unrec := rfl
@[simp] theorem State.storeWord_status (ea v : Word) : (s.storeWord ea v).status = s.status := rfl

/-! ## `redirect` -/

@[simp] theorem State.redirect_params (t : Word) : (s.redirect t).params = s.params := rfl
@[simp] theorem State.redirect_prog (t : Word) : (s.redirect t).prog = s.prog := rfl
@[simp] theorem State.redirect_x (t : Word) : (s.redirect t).x = s.x := rfl
@[simp] theorem State.redirect_f (t : Word) : (s.redirect t).f = s.f := rfl
@[simp] theorem State.redirect_pc (t : Word) : (s.redirect t).pc = t := rfl
@[simp] theorem State.redirect_slotF (t : Word) : (s.redirect t).slotF = none := rfl
@[simp] theorem State.redirect_slotD (t : Word) : (s.redirect t).slotD = none := rfl
@[simp] theorem State.redirect_slotE (t : Word) : (s.redirect t).slotE = s.slotE := rfl
@[simp] theorem State.redirect_slotS (t : Word) : (s.redirect t).slotS = s.slotS := rfl
@[simp] theorem State.redirect_stall (t : Word) : (s.redirect t).stall = s.stall := rfl
@[simp] theorem State.redirect_halt (t : Word) : (s.redirect t).halt = s.halt := rfl
@[simp] theorem State.redirect_cycle (t : Word) : (s.redirect t).cycle = s.cycle := rfl
@[simp] theorem State.redirect_ticks (t : Word) : (s.redirect t).ticks = s.ticks := rfl
@[simp] theorem State.redirect_mem (t : Word) : (s.redirect t).mem = s.mem := rfl
@[simp] theorem State.redirect_trace (t : Word) : (s.redirect t).trace = s.trace := rfl
@[simp] theorem State.redirect_unrec (t : Word) : (s.redirect t).unrec = s.unrec := rfl
@[simp] theorem State.redirect_status (t : Word) : (s.redirect t).status = s.status := rfl

/-! ## `haltFlush` -/

@[simp] theorem State.haltFlush_params : (s.haltFlush).params = s.params := rfl
@[simp] theorem State.haltFlush_prog : (s.haltFlush).prog = s.prog := rfl
@[simp] theorem State.haltFlush_x : (s.haltFlush).x = s.x := rfl
@[simp] theorem State.haltFlush_f : (s.haltFlush).f = s.f := rfl
@[simp] theorem State.haltFlush_pc : (s.haltFlush).pc = s.pc := rfl
@[simp] theorem State.haltFlush_slotF : (s.haltFlush).slotF = none := rfl
@[simp] theorem State.haltFlush_slotD : (s.haltFlush).slotD = none := rfl
@[simp] theorem State.haltFlush_slotE : (s.haltFlush).slotE = s.slotE := rfl
@[simp] theorem State.haltFlush_slotS : (s.haltFlush).slotS = s.slotS := rfl
@[simp] theorem State.haltFlush_stall : (s.haltFlush).stall = s.stall := rfl
@[simp] theorem State.haltFlush_halt : (s.haltFlush).halt = true := rfl
@[simp] theorem State.haltFlush_cycle : (s.haltFlush).cycle = s.cycle := rfl
@[simp] theorem State.haltFlush_ticks : (s.haltFlush).ticks = s.ticks := rfl
@[simp] theorem State.haltFlush_mem : (s.haltFlush).mem = s.mem := rfl
@[simp] theorem State.haltFlush_trace : (s.haltFlush).trace = s.trace := rfl
@[simp] theorem State.haltFlush_unrec : (s.haltFlush).unrec = s.unrec := rfl
@[simp] theorem State.haltFlush_status : (s.haltFlush).status = s.status := rfl

/-! ## `addStall` -/

@[simp] theorem State.addStall_params (n : Nat) : (s.addStall n).params = s.params := rfl
@[simp] theorem State.addStall_prog (n : Nat) : (s.addStall n).prog = s.prog := rfl
@[simp] theorem State.addStall_x (n : Nat) : (s.addStall n).x = s.x := rfl
@[simp] theorem State.addStall_f (n : Nat) : (s.addStall n).f = s.f := rfl
@[simp] theorem State.addStall_pc (n : Nat) : (s.addStall n).pc = s.pc := rfl
@[simp] theorem State.addStall_slotF (n : Nat) : (s.addStall n).slotF = s.slotF := rfl
@[simp] theorem State.addStall_slotD (n : Nat) : (s.addStall n).slotD = s.slotD := rfl
@[simp] theorem State.addStall_slotE (n : Nat) : (s.addStall n).slotE = s.slotE := rfl
@[simp] theorem State.addStall_slotS (n : Nat) : (s.addStall n).slotS = s.slotS := rfl
@[simp] theorem State.addStall_stall (n : Nat) : (s.addStall n).stall = s.stall + n := rfl
@[simp] theorem State.addStall_halt (n : Nat) : (s.addStall n).halt = s.halt := rfl
@[simp] theorem State.addStall_cycle (n : Nat) : (s.addStall n).cycle = s.cycle := rfl
@[simp] theorem State.addStall_ticks (n : Nat) : (s.addStall n).ticks = s.ticks := rfl
@[simp] theorem State.addStall_mem (n : Nat) : (s.addStall n).mem = s.mem := rfl
@[simp] theorem State.addStall_trace (n : Nat) : (s.addStall n).trace = s.trace := rfl
@[simp] theorem State.addStall_unrec (n : Nat) : (s.addStall n).unrec = s.unrec := rfl
@[simp] theorem State.addStall_status (n : Nat) : (s.addStall n).status = s.status := rfl

/-! ## `logTrace` -/

@[simp] theorem State.logTrace_params (k : Nat) (g : Stage) :
    (s.logTrace k g).params = s.params := rfl
@[simp] theorem State.logTrace_prog (k : Nat) (g : Stage) : (s.logTrace k g).prog = s.prog := rfl
@[simp] theorem State.logTrace_x (k : Nat) (g : Stage) : (s.logTrace k g).x = s.x := rfl
@[simp] theorem State.logTrace_f (k : Nat) (g : Stage) : (s.logTrace k g).f = s.f := rfl
@[simp] theorem State.logTrace_pc (k : Nat) (g : Stage) : (s.logTrace k g).pc = s.pc := rfl
@[simp] theorem State.logTrace_slotF (k : Nat) (g : Stage) : (s.logTrace k g).slotF = s.slotF := rfl
@[simp] theorem State.logTrace_slotD (k : Nat) (g : Stage) : (s.logTrace k g).slotD = s.slotD := rfl
@[simp] theorem State.logTrace_slotE (k : Nat) (g : Stage) : (s.logTrace k g).slotE = s.slotE := rfl
@[simp] theorem State.logTrace_slotS (k : Nat) (g : Stage) : (s.logTrace k g).slotS = s.slotS := rfl
@[simp] theorem State.logTrace_stall (k : Nat) (g : Stage) : (s.logTrace k g).stall = s.stall := rfl
@[simp] theorem State.logTrace_halt (k : Nat) (g : Stage) : (s.logTrace k g).halt = s.halt := rfl
@[simp] theorem State.logTrace_cycle (k : Nat) (g : Stage) : (s.logTrace k g).cycle = s.cycle := rfl
@[simp] theorem State.logTrace_ticks (k : Nat) (g : Stage) : (s.logTrace k g).ticks = s.ticks := rfl
@[simp] theorem State.logTrace_mem (k : Nat) (g : Stage) : (s.logTrace k g).mem = s.mem := rfl
@[simp] theorem State.logTrace_trace (k : Nat) (g : Stage) :
    (s.logTrace k g).trace = logEvent s.trace k g s.cycle := rfl
@[simp] theorem State.logTrace_unrec (k : Nat) (g : Stage) : (s.logTrace k g).unrec = s.unrec := rfl
@[simp] theorem State.logTrace_status (k : Nat) (g : Stage) :
    (s.logTrace k g).status = s.status := rfl

/-! ## `recordUnrecognized` -/

@[simp] theorem State.recordUnrecognized_params : (s.recordUnrecognized).params = s.params := rfl
@[simp] theorem State.recordUnrecognized_prog : (s.recordUnrecognized).prog = s.prog := rfl
@[simp] theorem State.recordUnrecognized_x : (s.recordUnrecognized).x = s.x := rfl
@[simp] theorem State.recordUnrecognized_f : (s.recordUnrecognized).f = s.f := rfl
@[simp] theorem State.recordUnrecognized_pc : (s.recordUnrecognized).pc = s.pc := rfl
@[simp] theorem State.recordUnrecognized_slotF : (s.recordUnrecognized).slotF = s.slotF := rfl
@[simp] theorem State.recordUnrecognized_slotD : (s.recordUnrecognized).slotD = s.slotD := rfl
@[simp] theorem State.recordUnrecognized_slotE : (s.recordUnrecognized).slotE = s.slotE := rfl
@[simp] theorem State.recordUnrecognized_slotS : (s.recordUnrecognized).slotS = s.slotS := rfl
@[simp] theorem State.recordUnrecognized_stall : (s.recordUnrecognized).stall = s.stall := rfl
@[simp] theorem State.recordUnrecognized_halt : (s.recordUnrecognized).halt = s.halt := rfl
@[simp] theorem State.recordUnrecognized_cycle : (s.recordUnrecognized).cycle = s.cycle := rfl
@[simp] theorem State.recordUnrecognized_ticks : (s.recordUnrecognized).ticks = s.ticks := rfl
@[simp] theorem State.recordUnrecognized_mem : (s.recordUnrecognized).mem = s.mem := rfl
@[simp] theorem State.recordUnrecognized_trace : (s.recordUnrecognized).trace = s.trace := rfl
@[simp] theorem State.recordUnrecognized_unrec :
    (s.recordUnrecognized).unrec = s.unrec ++ [(s.current.idx, s.current.word, s.cycle)] := rfl
@[simp] theorem State.recordUnrecognized_status : (s.recordUnrecognized).status = s.status := rfl

/-! ## `retire` -/

@[simp] theorem State.retire_params (e : InFlight) : (s.retire e).params = s.params := rfl
@[simp] theorem State.retire_prog (e : InFlight) : (s.retire e).prog = s.prog := rfl
@[simp] theorem State.retire_x (e : InFlight) : (s.retire e).x = s.x := rfl
@[simp] theorem State.retire_f (e : InFlight) : (s.retire e).f = s.f := rfl
@[simp] theorem State.retire_pc (e : InFlight) : (s.retire e).pc = s.pc := rfl
@[simp] theorem State.retire_slotF (e : InFlight) : (s.retire e).slotF = s.slotF := rfl
@[simp] theorem State.retire_slotD (e : InFlight) : (s.retire e).slotD = s.slotD := rfl
@[simp] theorem State.retire_slotE (e : InFlight) : (s.retire e).slotE = none := rfl
@[simp] theorem State.retire_slotS (e : InFlight) :
    (s.retire e).slotS = some { e with enter := s.cycle } := rfl
@[simp] theorem State.retire_stall (e : InFlight) : (s.retire e).stall = s.stall := rfl
@[simp] theorem State.retire_halt (e : InFlight) : (s.retire e).halt = s.halt := rfl
@[simp] theorem State.retire_cycle (e : InFlight) : (s.retire e).cycle = s.cycle := rfl
@[simp] theorem State.retire_ticks (e : InFlight) : (s.retire e).ticks = s.ticks := rfl
@[simp] theorem State.retire_mem (e : InFlight) : (s.retire e).mem = s.mem := rfl
@[simp] theorem State.retire_trace (e : InFlight) :
    (s.retire e).trace = logEvent s.trace e.idx .store s.cycle := rfl
@[simp] theorem State.retire_unrec (e : InFlight) : (s.retire e).unrec = s.unrec := rfl
@[simp] theorem State.retire_status (e : InFlight) : (s.retire e).status = s.status := rfl

/-! ## `fetchWord` -/

@[simp] theorem State.fetchWord_params (w : Word) : (s.fetchWord w).params = s.params := rfl
@[simp] theorem State.fetchWord_prog (w : Word) : (s.fetchWord w).prog = s.prog := rfl
@[simp] theorem State.fetchWord_x (w : Word) : (s.fetchWord w).x = s.x := rfl
@[simp] theorem State.fetchWord_f (w : Word) : (s.fetchWord w).f = s.f := rfl
@[simp] theorem State.fetchWord_pc (w : Word) : (s.fetchWord w).pc = s.advance s.pc := rfl
@[simp] theorem State.fetchWord_slotF (w : Word) : (s.fetchWord w).slotF = some (s.fetched w) := rfl
@[simp] theorem State.fetchWord_slotD (w : Word) : (s.fetchWord w).slotD = s.slotD := rfl
@[simp] theorem State.fetchWord_slotE (w : Word) : (s.fetchWord w).slotE = s.slotE := rfl
@[simp] theorem State.fetchWord_slotS (w : Word) : (s.fetchWord w).slotS = s.slotS := rfl
@[simp] theorem State.fetchWord_stall (w : Word) : (s.fetchWord w).stall = s.stall := rfl
@[simp] theorem State.fetchWord_halt (w : Word) : (s.fetchWord w).halt = s.halt := rfl
@[simp] theorem State.fetchWord_cycle (w : Word) : (s.fetchWord w).cycle = s.cycle := rfl
@[simp] theorem State.fetchWord_ticks (w : Word) : (s.fetchWord w).ticks = s.ticks := rfl
@[simp] theorem State.fetchWord_mem (w : Word) : (s.fetchWord w).mem = s.mem := rfl
@[simp] theorem State.fetchWord_trace (w : Word) :
    (s.fetchWord w).trace = logEvent s.trace (s.pc.toNat / 4) .fetch s.cycle := rfl
@[simp] theorem State.fetchWord_unrec (w : Word) : (s.fetchWord w).unrec = s.unrec := rfl
@[simp] theorem State.fetchWord_status (w : Word) : (s.fetchWord w).status = s.status := rfl

/-! ## `countCycle` -/

@[simp] theorem State.countCycle_params : (s.countCycle).params = s.params := rfl
@[simp] theorem State.countCycle_prog : (s.countCycle).prog = s.prog := rfl
@[simp] theorem State.countCycle_x : (s.countCycle).x = s.x := rfl
@[simp] theorem State.countCycle_f : (s.countCycle).f = s.f := rfl
@[simp] theorem State.countCycle_pc : (s.countCycle).pc = s.pc := rfl
@[simp] theorem State.countCycle_slotF : (s.countCycle).slotF = s.slotF := rfl
@[simp] theorem State.countCycle_slotD : (s.countCycle).slotD = s.slotD := rfl
@[simp] theorem State.countCycle_slotE : (s.countCycle).slotE = s.slotE := rfl
@[simp] theorem State.countCycle_slotS : (s.countCycle).slotS = s.slotS := rfl
@[simp] theorem State.countCycle_stall : (s.countCycle).stall = s.stall - 1 := rfl
@[simp] theorem State.countCycle_halt : (s.countCycle).halt = s.halt := rfl
@[simp] theorem State.countCycle_cycle : (s.countCycle).cycle = s.cycle + 1 := rfl
@[simp] theorem State.countCycle_ticks : (s.countCycle).ticks = s.ticks := rfl
@[simp] theorem State.countCycle_mem : (s.countCycle).mem = s.mem := rfl
@[simp] theorem State.countCycle_trace : (s.countCycle).trace = s.trace := rfl
@[simp] theorem State.countCycle_unrec : (s.countCycle).unrec = s.unrec := rfl
@[simp] theorem State.countCycle_status : (s.countCycle).status = s.status := rfl

/-! ## `finishCycle` -/

@[simp] theorem State.finishCycle_params : (s.finishCycle).params = s.params := rfl
@[simp] theorem State.finishCycle_prog : (s.finishCycle).prog = s.prog := rfl
@[simp] theorem State.finishCycle_x : (s.finishCycle).x = s.x := rfl
@[simp] theorem State.finishCycle_f : (s.finishCycle).f = s.f := rfl
@[simp] theorem State.finishCycle_pc : (s.finishCycle).pc = s.pc := rfl
@[simp] theorem State.finishCycle_slotF : (s.finishCycle).slotF = s.slotF := rfl
@[simp] theorem State.finishCycle_slotD : (s.finishCycle).slotD = s.slotD := rfl
@[simp] theorem State.finishCycle_slotE : (s.finishCycle).slotE = s.slotE := rfl
@[simp] theorem State.finishCycle_slotS : (s.finishCycle).slotS = s.slotS := rfl
@[simp] theorem State.finishCycle_stall : (s.finishCycle).stall = s.stall - 1 := rfl
@[simp] theorem State.finishCycle_halt : (s.finishCycle).halt = s.halt := rfl
@[simp] theorem State.finishCycle_cycle : (s.finishCycle).cycle = s.cycle + 1 := rfl
@[simp] theorem State.finishCycle_ticks : (s.finishCycle).ticks = s.ticks := rfl
@[simp] theorem State.finishCycle_mem : (s.finishCycle).mem = s.mem := rfl
@[simp] theorem State.finishCycle_trace : (s.finishCycle).trace = s.trace := rfl
@[simp] theorem State.finishCycle_unrec : (s.finishCycle).unrec = s.unrec := rfl
@[simp] theorem State.finishCycle_status :
    (s.finishCycle).status = s.countCycle.checkedStatus := rfl

end Sys2Proof.Machine
end

