-- ==== Sys2Proof/Laws/Memory.lean ====
section
/-! SUPPORT. The laws of data memory and of the register files: read after write, and that every memory
operation keeps the canonical form and the capacity. -/

namespace Sys2Proof.Machine

/-! ## Registers -/

@[simp] theorem setReg_get_same (file : Vector Word 32) (r : Reg) (v : Word) :
    (setReg file r v).get r = v := by
  simp [setReg, Vector.get_eq_getElem]

theorem setReg_get_other (file : Vector Word 32) {r q : Reg} (v : Word) (h : q ≠ r) :
    (setReg file r v).get q = file.get q := by
  have hne : r.val ≠ q.val := fun e => h (Fin.ext e.symm)
  simp [setReg, Vector.get_eq_getElem, hne]

/-- Register 0 reads as 0 in every state (R21). -/
@[simp] theorem State.readX_zero (s : State) : s.readX 0 = 0#32 := rfl

@[simp] theorem State.readX_writeX_same (s : State) {r : Reg} (v : Word) (h : r ≠ 0) :
    (s.writeX r v).readX r = v := by
  simp [State.readX, h]

theorem State.readX_writeX_other (s : State) {r q : Reg} (v : Word) (h : q ≠ r) :
    (s.writeX r v).readX q = s.readX q := by
  simp only [State.readX, State.writeX_x]
  split
  · rfl
  · split
    · rfl
    · exact setReg_get_other _ _ h

@[simp] theorem State.readF_writeF_same (s : State) (r : Reg) (v : Word) :
    (s.writeF r v).readF r = v := by
  simp [State.readF]

theorem State.readF_writeF_other (s : State) {r q : Reg} (v : Word) (h : q ≠ r) :
    (s.writeF r v).readF q = s.readF q := by
  simp [State.readF, setReg_get_other _ _ h]

/-! ## Bytes -/

@[simp] theorem Memory.readByte_cons (a : Nat) (v : Byte) (m : Memory) (b : Nat) :
    Memory.readByte (Memory.cons a v m) b =
      if v = Memory.unlisted then m.readByte b else if a = b then v else m.readByte b := by
  unfold Memory.cons
  split <;> simp [Memory.readByte]

/-- The first address of a canonical memory is above every address below it. -/
theorem Memory.readByte_of_below {m : Memory} {a : Nat}
    (h : m.all (fun c => decide (a < c.1)) = true) {b : Nat} (hb : b ≤ a) :
    m.readByte b = Memory.unlisted := by
  induction m with
  | nil => rfl
  | cons c rest ih =>
    simp only [List.all_cons, Bool.and_eq_true, decide_eq_true_eq] at h
    have : c.1 ≠ b := by omega
    simp [Memory.readByte, this, ih h.2]

/-- The parts of the canonical form of a memory with a first cell. -/
theorem Memory.wf_cons_iff {a : Nat} {v : Byte} {rest : Memory} :
    Memory.wf ((a, v) :: rest) = true ↔
      v ≠ Memory.unlisted ∧ rest.all (fun c => decide (a < c.1)) = true ∧ rest.wf = true := by
  simp [Memory.wf, and_assoc]

theorem Memory.readByte_writeByte_same {m : Memory} (hm : m.wf = true) (a : Nat) (v : Byte) :
    (m.writeByte a v).readByte a = v := by
  induction m with
  | nil => simp only [Memory.writeByte, Memory.readByte_cons]; split <;> simp_all [Memory.readByte]
  | cons c rest ih =>
    obtain ⟨k, b⟩ := c
    obtain ⟨-, hall, hrest⟩ := Memory.wf_cons_iff.1 hm
    unfold Memory.writeByte
    split
    · rename_i hlt
      rw [Memory.readByte_cons]
      split
      · rename_i hv
        have hk : k ≠ a := by omega
        simp only [Memory.readByte, hk, if_false]
        rw [hv]
        exact Memory.readByte_of_below hall (by omega)
      · simp
    · split
      · rename_i heq
        rw [Memory.readByte_cons]
        split
        · rename_i hv
          rw [hv]
          exact Memory.readByte_of_below hall (by omega)
        · simp
      · rename_i hne
        have hk : k ≠ a := fun e => hne e.symm
        simp only [Memory.readByte, hk, if_false]
        exact ih hrest

theorem Memory.readByte_writeByte_other (m : Memory) {a b : Nat} (v : Byte) (h : b ≠ a) :
    (m.writeByte a v).readByte b = m.readByte b := by
  have hab : a ≠ b := fun e => h e.symm
  induction m with
  | nil => simp [Memory.writeByte, hab]
  | cons c rest ih =>
    obtain ⟨k, w⟩ := c
    unfold Memory.writeByte
    split
    · simp [hab]
    · split
      · rename_i heq
        have hk : k ≠ b := by omega
        simp [hab, Memory.readByte, hk]
      · simp [Memory.readByte, ih]

/-! ## The canonical form -/

theorem Memory.all_cons {P : Host.Cell → Bool} {a : Nat} {v : Byte} {m : Memory}
    (ha : P (a, v) = true) (hm : m.all P = true) : (Memory.cons a v m).all P = true := by
  unfold Memory.cons
  split
  · exact hm
  · simp [ha, hm]

theorem Memory.all_writeByte {P : Host.Cell → Bool} {m : Memory} {a : Nat} {v : Byte}
    (ha : P (a, v) = true) (hm : m.all P = true) : (m.writeByte a v).all P = true := by
  induction m with
  | nil => exact Memory.all_cons ha rfl
  | cons c rest ih =>
    obtain ⟨k, b⟩ := c
    simp only [List.all_cons, Bool.and_eq_true] at hm
    unfold Memory.writeByte
    split
    · exact Memory.all_cons ha (by simp [hm.1, hm.2])
    · split
      · exact Memory.all_cons ha hm.2
      · simp [hm.1, ih hm.2]

theorem Memory.wf_cons {m : Memory} {a : Nat} (v : Byte)
    (hall : m.all (fun c => decide (a < c.1)) = true) (hm : m.wf = true) :
    (Memory.cons a v m).wf = true := by
  unfold Memory.cons
  split
  · exact hm
  · rename_i hv
    exact Memory.wf_cons_iff.2 ⟨hv, hall, hm⟩

theorem Memory.writeByte_wf {m : Memory} (hm : m.wf = true) (a : Nat) (v : Byte) :
    (m.writeByte a v).wf = true := by
  induction m with
  | nil => exact Memory.wf_cons v rfl rfl
  | cons c rest ih =>
    obtain ⟨k, b⟩ := c
    obtain ⟨hb, hall, hrest⟩ := Memory.wf_cons_iff.1 hm
    unfold Memory.writeByte
    split
    · rename_i hlt
      refine Memory.wf_cons v ?_ hm
      simp only [List.all_cons, Bool.and_eq_true, decide_eq_true_eq]
      refine ⟨hlt, ?_⟩
      simp only [List.all_eq_true, decide_eq_true_eq] at hall ⊢
      exact fun c hc => lt_trans hlt (hall c hc)
    · split
      · rename_i heq
        exact Memory.wf_cons v (heq ▸ hall) hrest
      · rename_i hlt hne
        refine Memory.wf_cons_iff.2 ⟨hb, ?_, ih hrest⟩
        exact Memory.all_writeByte (by simp; omega) hall

theorem Memory.writeByte_below {m : Memory} {cap a : Nat} (hm : m.below cap = true) (ha : a < cap)
    (v : Byte) : (m.writeByte a v).below cap = true :=
  Memory.all_writeByte (by simpa using ha) hm

/-! ## Words -/

theorem Memory.writeWord_wf {m : Memory} (hm : m.wf = true) (a : Nat) (v : Word) :
    (m.writeWord a v).wf = true := by
  unfold Memory.writeWord
  exact Memory.writeByte_wf (Memory.writeByte_wf (Memory.writeByte_wf (Memory.writeByte_wf hm _ _)
    _ _) _ _) _ _

theorem Memory.writeWord_below {m : Memory} {cap a : Nat} (hm : m.below cap = true)
    (ha : a + 4 ≤ cap) (v : Word) : (m.writeWord a v).below cap = true := by
  unfold Memory.writeWord
  exact Memory.writeByte_below (Memory.writeByte_below (Memory.writeByte_below
    (Memory.writeByte_below hm (by omega) _) (by omega) _) (by omega) _) (by omega) _

/-- A word write leaves every byte outside its four alone. -/
theorem Memory.readByte_writeWord_outside (m : Memory) {a b : Nat} (v : Word)
    (h : b < a ∨ a + 4 ≤ b) : (m.writeWord a v).readByte b = m.readByte b := by
  unfold Memory.writeWord
  rw [Memory.readByte_writeByte_other _ _ (by omega), Memory.readByte_writeByte_other _ _ (by omega),
    Memory.readByte_writeByte_other _ _ (by omega), Memory.readByte_writeByte_other _ _ (by omega)]

/-- The four bytes of a written word, least significant first. -/
theorem Memory.readByte_writeWord_inside {m : Memory} (hm : m.wf = true) (a : Nat) (v : Word) :
    (m.writeWord a v).readByte a = v.extractLsb' 0 8 ∧
    (m.writeWord a v).readByte (a + 1) = v.extractLsb' 8 8 ∧
    (m.writeWord a v).readByte (a + 2) = v.extractLsb' 16 8 ∧
    (m.writeWord a v).readByte (a + 3) = v.extractLsb' 24 8 := by
  have h1 := Memory.writeByte_wf hm a (v.extractLsb' 0 8)
  have h2 := Memory.writeByte_wf h1 (a + 1) (v.extractLsb' 8 8)
  have h3 := Memory.writeByte_wf h2 (a + 2) (v.extractLsb' 16 8)
  unfold Memory.writeWord
  refine ⟨?_, ?_, ?_, Memory.readByte_writeByte_same h3 _ _⟩
  · rw [Memory.readByte_writeByte_other _ _ (by omega), Memory.readByte_writeByte_other _ _ (by omega),
      Memory.readByte_writeByte_other _ _ (by omega), Memory.readByte_writeByte_same hm]
  · rw [Memory.readByte_writeByte_other _ _ (by omega), Memory.readByte_writeByte_other _ _ (by omega),
      Memory.readByte_writeByte_same h1]
  · rw [Memory.readByte_writeByte_other _ _ (by omega), Memory.readByte_writeByte_same h2]

/-! ## The memory of a launch -/

theorem Memory.ofBytesAt_wf (a : Nat) (bytes : List Byte) :
    (Memory.ofBytesAt a bytes).wf = true ∧
      (Memory.ofBytesAt a bytes).all (fun c => decide (a ≤ c.1)) = true := by
  induction bytes generalizing a with
  | nil => exact ⟨rfl, rfl⟩
  | cons b rest ih =>
    obtain ⟨hwf, hall⟩ := ih (a + 1)
    simp only [List.all_eq_true, decide_eq_true_eq] at hall
    have habove : (Memory.ofBytesAt (a + 1) rest).all (fun c => decide (a < c.1)) = true := by
      simp only [List.all_eq_true, decide_eq_true_eq]
      exact fun c hc => hall c hc
    refine ⟨Memory.wf_cons b habove hwf, Memory.all_cons (by simp) ?_⟩
    simp only [List.all_eq_true, decide_eq_true_eq]
    exact fun c hc => by have := hall c hc; omega

end Sys2Proof.Machine
end

