-- ==== Sys2Proof/Laws/Ops.lean ====
section
/-! SUPPORT. One lemma per shared operation of Machine/Ops.lean that says what it can answer, and the
inversion of `exec`: every next state of a commit has one of a few shapes. Provers cite these and do
not unfold the operations. -/

namespace Sys2Proof.Machine

variable {s t : State}

/-! ## The support gate (R111) -/

theorem State.gated_supported {m : Mnemonic} {c : Result} (h : supports s.params m = true) :
    s.gated m c = c := by
  simp [State.gated, h]

theorem State.gated_unsupported {m : Mnemonic} {c : Result} (h : supports s.params m = false) :
    s.gated m c = .next s.recordUnrecognized := by
  simp [State.gated, h]

theorem State.gated_cases {m : Mnemonic} {c r : Result} (h : s.gated m c = r) :
    (supports s.params m = true ∧ c = r) ∨
      (supports s.params m = false ∧ r = .next s.recordUnrecognized) := by
  unfold State.gated at h
  split at h
  · exact .inl ⟨‹_›, h⟩
  · rename_i hs
    exact .inr ⟨Bool.eq_false_iff.2 hs, h.symm⟩

/-- A mnemonic outside the extended set is always supported (R111). -/
theorem supports_of_core {p : Params} {m : Mnemonic} (h : extendedSet.contains m = false) :
    supports p m = true := by
  simp only [supports, h, Bool.not_false, Bool.true_or]

/-! ## Data access (R53 to R57) -/

theorem State.accessFault_none_iff {ea : Word} :
    s.accessFault ea = none ↔ ea.toNat + 4 ≤ s.params.memCapacity ∧ ea.toNat % 4 = 0 := by
  unfold State.accessFault
  split
  · simp; omega
  · split
    · simp; omega
    · simp; omega

theorem State.accessFault_bounds {ea : Word} (h : s.params.memCapacity < ea.toNat + 4) :
    s.accessFault ea = some (.bounds ea) := by
  simp [State.accessFault, h]

theorem State.accessFault_misaligned {ea : Word} (h : ea.toNat + 4 ≤ s.params.memCapacity)
    (ha : ea.toNat % 4 ≠ 0) : s.accessFault ea = some (.misalignedAccess ea) := by
  simp [State.accessFault, Nat.not_lt.2 h, ha]

theorem State.memRead_ok {ea : Word} {use : Word → State → State} (h : s.accessFault ea = none) :
    s.memRead ea use = .next (use (s.mem.readWord ea.toNat) s.chargeRead) := by
  simp [State.memRead, h]

theorem State.memRead_fault {ea : Word} {use : Word → State → State} {f : Fault}
    (h : s.accessFault ea = some f) : s.memRead ea use = .fault f := by
  simp [State.memRead, h]

theorem State.memWrite_ok {ea v : Word} (h : s.accessFault ea = none) :
    s.memWrite ea v = .next (s.storeWord ea v) := by
  simp [State.memWrite, h]

theorem State.memWrite_fault {ea v : Word} {f : Fault} (h : s.accessFault ea = some f) :
    s.memWrite ea v = .fault f := by
  simp [State.memWrite, h]

/-- A read answers a next state only after both checks, or the fault of the first that fails. -/
theorem State.memRead_cases {ea : Word} {use : Word → State → State} {r : Result}
    (h : s.memRead ea use = r) :
    (s.accessFault ea = none ∧ r = .next (use (s.mem.readWord ea.toNat) s.chargeRead)) ∨
      ∃ f, s.accessFault ea = some f ∧ r = .fault f := by
  cases hf : s.accessFault ea with
  | none => exact .inl ⟨rfl, h.symm.trans (State.memRead_ok hf)⟩
  | some f => exact .inr ⟨f, rfl, h.symm.trans (State.memRead_fault hf)⟩

/-- A write answers a next state only after both checks, or the fault of the first that fails. -/
theorem State.memWrite_cases {ea v : Word} {r : Result} (h : s.memWrite ea v = r) :
    (s.accessFault ea = none ∧ r = .next (s.storeWord ea v)) ∨
      ∃ f, s.accessFault ea = some f ∧ r = .fault f := by
  cases hf : s.accessFault ea with
  | none => exact .inl ⟨rfl, h.symm.trans (State.memWrite_ok hf)⟩
  | some f => exact .inr ⟨f, rfl, h.symm.trans (State.memWrite_fault hf)⟩

/-! ## Control transfer (R140, R147, R151) -/

theorem State.transfer_aligned {target : Word} {link : State → State} (h : targetAligned target) :
    s.transfer target link = .next ((link s).redirect target) := by
  simp only [State.transfer, if_pos h]

theorem State.transfer_misaligned {target : Word} {link : State → State}
    (h : ¬targetAligned target) : s.transfer target link = .fault (.misalignedTarget target) := by
  simp only [State.transfer, if_neg h]

theorem State.transfer_cases {target : Word} {link : State → State} {r : Result}
    (h : s.transfer target link = r) :
    (targetAligned target ∧ r = .next ((link s).redirect target)) ∨
      (¬targetAligned target ∧ r = .fault (.misalignedTarget target)) := by
  by_cases ha : targetAligned target
  · exact .inl ⟨ha, h.symm.trans (State.transfer_aligned ha)⟩
  · exact .inr ⟨ha, h.symm.trans (State.transfer_misaligned ha)⟩

theorem State.branch_taken {target : Word} : s.branch true target = s.transfer target id := rfl

theorem State.branch_linear {target : Word} (h : s.params.fetchMode = .linear) :
    s.branch false target = .next s := by
  simp [State.branch, h]

theorem State.branch_looping {target : Word} (h : s.params.fetchMode = .looping) :
    s.branch false target = .next s.haltFlush := by
  simp [State.branch, h]

/-- A branch redirects, faults, halts or does nothing. -/
theorem State.branch_cases {taken : Bool} {target : Word} {r : Result}
    (h : s.branch taken target = r) :
    (taken = true ∧ targetAligned target ∧ r = .next (s.redirect target)) ∨
    (taken = true ∧ ¬targetAligned target ∧ r = .fault (.misalignedTarget target)) ∨
    (taken = false ∧ s.params.fetchMode = .looping ∧ r = .next s.haltFlush) ∨
    (taken = false ∧ s.params.fetchMode = .linear ∧ r = .next s) := by
  cases taken with
  | true =>
    rcases State.transfer_cases h with ⟨ha, hr⟩ | ⟨ha, hr⟩
    · exact .inl ⟨rfl, ha, hr⟩
    · exact .inr (.inl ⟨rfl, ha, hr⟩)
  | false =>
    cases hm : s.params.fetchMode with
    | looping => exact .inr (.inr (.inl ⟨rfl, rfl, h.symm.trans (State.branch_looping hm)⟩))
    | linear => exact .inr (.inr (.inr ⟨rfl, rfl, h.symm.trans (State.branch_linear hm)⟩))

/-! ## The trace (R220) -/

theorem mem_logEvent {trace : List TraceEvent} {k c : Nat} {g : Stage} {ev : TraceEvent} :
    ev ∈ logEvent trace k g c ↔
      (ev ∈ trace ∧ ¬(ev.idx = k ∧ ev.stage = g)) ∨ ev = ⟨k, g, c⟩ := by
  simp only [logEvent, List.mem_append, List.mem_filter, List.mem_singleton]
  by_cases h1 : ev.idx = k <;> by_cases h2 : ev.stage = g <;> simp [h1, h2]

/-- Logging keeps a trace with at most one event per entry and stage so. -/
theorem logEvent_pairwise {trace : List TraceEvent} {k c : Nat} {g : Stage}
    (h : trace.Pairwise (fun a b => ¬(a.idx = b.idx ∧ a.stage = b.stage))) :
    (logEvent trace k g c).Pairwise (fun a b => ¬(a.idx = b.idx ∧ a.stage = b.stage)) := by
  unfold logEvent
  rw [List.pairwise_append]
  refine ⟨h.filter _, List.pairwise_singleton _ _, ?_⟩
  intro a ha b hb
  simp only [List.mem_singleton] at hb
  simp only [List.mem_filter, Bool.not_eq_true', Bool.and_eq_false_iff, beq_eq_false_iff_ne] at ha
  subst hb
  rintro ⟨h1, h2⟩
  exact ha.2.elim (· h1) (· h2)

/-! ## The stream and the fetch address (R60, R211, R212) -/

theorem State.streamWord_some_iff {a w : Word} :
    s.streamWord a = some w ↔ a.toNat % 4 = 0 ∧ s.prog[a.toNat / 4]? = some w := by
  unfold State.streamWord
  split <;> simp [*]

theorem State.streamWord_none_iff {a : Word} :
    s.streamWord a = none ↔ ¬(a.toNat % 4 = 0 ∧ a.toNat / 4 < s.prog.length) := by
  unfold State.streamWord
  split <;> simp [*]

/-- The fetch address stays a multiple of 4 in either mode. -/
theorem State.advance_aligned {a : Word} (h : a.toNat % 4 = 0) : (s.advance a).toNat % 4 = 0 := by
  unfold State.advance
  split
  · rw [BitVec.toNat_add]
    simp only [BitVec.toNat_ofNat]
    omega
  · simp only [BitVec.toNat_ofNat]
    have : (a.toNat + 4) % (4 * s.prog.length) % 4 = 0 := by rw [Nat.mod_mul_right_mod]; omega
    omega

/-! ## The inversion of `exec` -/

/-- The shapes of a commit's next state. -/
inductive CommitCase (s : State) : State → Prop where
  /-- An unsupported mnemonic (R111, R188). -/
  | unsupported : CommitCase s s.recordUnrecognized
  /-- One integer register written (R110). -/
  | wroteX (rd : Reg) (v : Word) : CommitCase s (s.writeX rd v)
  /-- A floating register written by arithmetic (R171). -/
  | wroteF (rd : Reg) (v : Word) : CommitCase s ((s.writeF rd v).addStall 2)
  /-- An integer load (R162). -/
  | loadedX (rd : Reg) (ea : Word) (ok : s.accessFault ea = none) :
      CommitCase s (s.chargeRead.writeX rd (s.mem.readWord ea.toNat))
  /-- A floating load (R164). -/
  | loadedF (rd : Reg) (ea : Word) (ok : s.accessFault ea = none) :
      CommitCase s ((s.chargeRead.writeF rd (s.mem.readWord ea.toNat)).addStall 1)
  /-- A store (R163, R165). -/
  | stored (ea v : Word) (ok : s.accessFault ea = none) : CommitCase s (s.storeWord ea v)
  /-- A taken branch (R140). -/
  | branched (target : Word) (ok : targetAligned target) : CommitCase s (s.redirect target)
  /-- A jump (R147, R148). -/
  | jumped (rd : Reg) (target : Word) (ok : targetAligned target) :
      CommitCase s ((s.writeX rd s.linkValue).redirect target)
  /-- A branch not taken in Looping mode (R140, R208). -/
  | haltedLoop (mode : s.params.fetchMode = .looping) : CommitCase s s.haltFlush
  /-- A branch not taken in Linear mode (R140). -/
  | fellThrough (mode : s.params.fetchMode = .linear) : CommitCase s s

/-- What no commit changes. -/
theorem CommitCase.keeps (h : CommitCase s t) :
    t.params = s.params ∧ t.prog = s.prog ∧ t.slotE = s.slotE ∧ t.slotS = s.slotS ∧
      t.cycle = s.cycle ∧ t.trace = s.trace ∧ t.status = s.status := by
  cases h <;> exact ⟨rfl, rfl, rfl, rfl, rfl, rfl, rfl⟩

/-- What a commit does to the fetch: nothing, a redirect with its flush, or a halt with its flush. -/
theorem CommitCase.flow (h : CommitCase s t) :
    (t.pc = s.pc ∧ t.halt = s.halt ∧ t.slotF = s.slotF ∧ t.slotD = s.slotD) ∨
    (targetAligned t.pc ∧ t.halt = s.halt ∧ t.slotF = none ∧ t.slotD = none ∧
      t.stall = s.stall) ∨
    (s.params.fetchMode = .looping ∧ t.pc = s.pc ∧ t.halt = true ∧ t.slotF = none ∧
      t.slotD = none ∧ t.stall = s.stall) := by
  cases h with
  | branched _ ok => exact .inr (.inl ⟨ok, rfl, rfl, rfl, rfl⟩)
  | jumped _ _ ok => exact .inr (.inl ⟨ok, rfl, rfl, rfl, rfl⟩)
  | haltedLoop m => exact .inr (.inr ⟨m, rfl, rfl, rfl, rfl, rfl⟩)
  | _ => exact .inl ⟨rfl, rfl, rfl, rfl⟩

/-- What a commit appends to the observations. -/
theorem CommitCase.observes (h : CommitCase s t) :
    t.unrec = s.unrec ∨ t.unrec = s.unrec ++ [(s.current.idx, s.current.word, s.cycle)] := by
  cases h <;> first | exact .inl rfl | exact .inr rfl

/-- A commit keeps the canonical form of memory and its capacity. -/
theorem CommitCase.memory_canonical (h : CommitCase s t) (hwf : s.mem.wf = true)
    (hb : s.mem.below s.params.memCapacity = true) :
    t.mem.wf = true ∧ t.mem.below s.params.memCapacity = true := by
  cases h with
  | stored ea v ok =>
    exact ⟨Memory.writeWord_wf hwf _ _,
      Memory.writeWord_below hb (State.accessFault_none_iff.1 ok).1 _⟩
  | _ => exact ⟨hwf, hb⟩

/-- What a commit can answer: one of the shapes, an access fault, or a misaligned target (R181). -/
inductive CommitOutcome (s : State) : Result → Prop where
  | next (t : State) (shape : CommitCase s t) : CommitOutcome s (.next t)
  | access (ea : Word) (f : Fault) (bad : s.accessFault ea = some f) : CommitOutcome s (.fault f)
  | target (t : Word) (bad : ¬targetAligned t) : CommitOutcome s (.fault (.misalignedTarget t))

theorem commitOutcome_gated {m : Mnemonic} {c : Result} (hc : CommitOutcome s c) :
    CommitOutcome s (s.gated m c) := by
  unfold State.gated
  split
  · exact hc
  · exact .next _ .unsupported

theorem commitOutcome_branch {taken : Bool} {target : Word} :
    CommitOutcome s (s.branch taken target) := by
  rcases State.branch_cases (rfl : s.branch taken target = _) with
    ⟨-, ha, h⟩ | ⟨-, ha, h⟩ | ⟨-, hm, h⟩ | ⟨-, hm, h⟩ <;> rw [h]
  · exact .next _ (.branched _ ha)
  · exact .target _ ha
  · exact .next _ (.haltedLoop hm)
  · exact .next _ (.fellThrough hm)

theorem commitOutcome_jump {rd : Reg} {target : Word} :
    CommitOutcome s (s.transfer target (fun u => u.writeX rd s.linkValue)) := by
  by_cases ha : targetAligned target
  · rw [State.transfer_aligned ha]; exact .next _ (.jumped _ _ ha)
  · rw [State.transfer_misaligned ha]; exact .target _ ha

theorem commitOutcome_read {ea : Word} {use : Word → State → State}
    (hc : s.accessFault ea = none → CommitCase s (use (s.mem.readWord ea.toNat) s.chargeRead)) :
    CommitOutcome s (s.memRead ea use) := by
  cases hf : s.accessFault ea with
  | none => rw [State.memRead_ok hf]; exact .next _ (hc hf)
  | some f => rw [State.memRead_fault hf]; exact .access _ _ hf

theorem commitOutcome_write {ea v : Word} : CommitOutcome s (s.memWrite ea v) := by
  cases hf : s.accessFault ea with
  | none => rw [State.memWrite_ok hf]; exact .next _ (.stored _ _ hf)
  | some f => rw [State.memWrite_fault hf]; exact .access _ _ hf

/-- Everything a commit can answer, for every instruction. -/
theorem exec_outcome (i : Instr) (s : State) : CommitOutcome s (exec i s) := by
  cases i <;> simp only [exec]
  case add => exact .next _ (.wroteX _ _)
  case sub => exact .next _ (.wroteX _ _)
  case addi => exact .next _ (.wroteX _ _)
  case srli => exact .next _ (.wroteX _ _)
  case srai => exact .next _ (.wroteX _ _)
  case auipc => exact .next _ (.wroteX _ _)
  case beq => exact commitOutcome_branch
  case bne => exact commitOutcome_branch
  case blt => exact commitOutcome_branch
  case bge => exact commitOutcome_branch
  case bltu => exact commitOutcome_gated commitOutcome_branch
  case bgeu => exact commitOutcome_gated commitOutcome_branch
  case jal => exact commitOutcome_gated commitOutcome_jump
  case jalr => exact commitOutcome_gated commitOutcome_jump
  case lw => exact commitOutcome_gated (commitOutcome_read fun ok => .loadedX _ _ ok)
  case sw => exact commitOutcome_gated commitOutcome_write
  case flw => exact commitOutcome_read fun ok => .loadedF _ _ ok
  case fsw => exact commitOutcome_write
  case fadd => exact .next _ (.wroteF _ _)
  case fsub => exact .next _ (.wroteF _ _)
  case fmul => exact .next _ (.wroteF _ _)
  case fdiv => exact .next _ (.wroteF _ _)
  all_goals exact commitOutcome_gated (.next _ (.wroteX _ _))

/-- Every next state of a commit is one of the shapes. -/
theorem exec_next_cases {i : Instr} (h : exec i s = .next t) : CommitCase s t := by
  have ho := exec_outcome i s
  rw [h] at ho
  cases ho with
  | next _ shape => exact shape

/-- The faults of a commit. -/
theorem exec_fault_cases {i : Instr} {f : Fault} (h : exec i s = .fault f) :
    (∃ ea, s.accessFault ea = some f) ∨ ∃ t, ¬targetAligned t ∧ f = .misalignedTarget t := by
  have ho := exec_outcome i s
  rw [h] at ho
  cases ho with
  | access ea _ bad => exact .inl ⟨ea, bad⟩
  | target t bad => exact .inr ⟨t, bad, rfl⟩

/-- No commit is refused. -/
theorem exec_not_refused {i : Instr} {r : Refusal} : exec i s ≠ .refused r := by
  intro h
  have ho := exec_outcome i s
  rw [h] at ho
  cases ho

end Sys2Proof.Machine
end

