-- ==== Sys2Proof/Laws/PerInstr.lean ====
section
/-! SUPPORT. Statements made per instruction. `EncodedOpcode`: the word of an instruction carries the
opcode of its mnemonic in bits 6:0 (30_encoding.md R71, R84). -/

namespace Sys2Proof.Laws

/-- The opcode of a mnemonic, from the table of R84. -/
def tableOpcode (m : Mnemonic) : Option (BitVec 7) :=
  (mnemonicTable.find? (fun row => row.2.any (fun key =>
    match key.2 with
    | .direct n => n == m
    | .nested byFunct7 => byFunct7.any (fun e => e.2 == m)))).map (fun row => row.1)

end Sys2Proof.Laws

namespace Sys2Proof.Laws.EncodedOpcode

/-- The encoded word carries the opcode that the table gives the mnemonic. -/
def Statement (i : Instr) : Prop := some (opcodeOf (encode i)) = tableOpcode i.mnemonic

theorem add (rd rs1 rs2 : Reg) :
    Statement (.add rd rs1 rs2) := congrArg some (encodeR_opcode ..)

theorem sub (rd rs1 rs2 : Reg) :
    Statement (.sub rd rs1 rs2) := congrArg some (encodeR_opcode ..)

theorem sll (rd rs1 rs2 : Reg) :
    Statement (.sll rd rs1 rs2) := congrArg some (encodeR_opcode ..)

theorem slt (rd rs1 rs2 : Reg) :
    Statement (.slt rd rs1 rs2) := congrArg some (encodeR_opcode ..)

theorem sltu (rd rs1 rs2 : Reg) :
    Statement (.sltu rd rs1 rs2) := congrArg some (encodeR_opcode ..)

theorem xor (rd rs1 rs2 : Reg) :
    Statement (.xor rd rs1 rs2) := congrArg some (encodeR_opcode ..)

theorem srl (rd rs1 rs2 : Reg) :
    Statement (.srl rd rs1 rs2) := congrArg some (encodeR_opcode ..)

theorem sra (rd rs1 rs2 : Reg) :
    Statement (.sra rd rs1 rs2) := congrArg some (encodeR_opcode ..)

theorem or (rd rs1 rs2 : Reg) :
    Statement (.or rd rs1 rs2) := congrArg some (encodeR_opcode ..)

theorem and (rd rs1 rs2 : Reg) :
    Statement (.and rd rs1 rs2) := congrArg some (encodeR_opcode ..)

theorem addi (rd rs1 : Reg) (imm : Word) :
    Statement (.addi rd rs1 imm) := congrArg some (encodeI_opcode ..)

theorem slti (rd rs1 : Reg) (imm : Word) :
    Statement (.slti rd rs1 imm) := congrArg some (encodeI_opcode ..)

theorem sltiu (rd rs1 : Reg) (imm : Word) :
    Statement (.sltiu rd rs1 imm) := congrArg some (encodeI_opcode ..)

theorem xori (rd rs1 : Reg) (imm : Word) :
    Statement (.xori rd rs1 imm) := congrArg some (encodeI_opcode ..)

theorem ori (rd rs1 : Reg) (imm : Word) :
    Statement (.ori rd rs1 imm) := congrArg some (encodeI_opcode ..)

theorem andi (rd rs1 : Reg) (imm : Word) :
    Statement (.andi rd rs1 imm) := congrArg some (encodeI_opcode ..)

theorem slli (rd rs1 : Reg) (imm : Word) :
    Statement (.slli rd rs1 imm) := congrArg some (encodeI_opcode ..)

theorem srli (rd rs1 : Reg) (imm : Word) :
    Statement (.srli rd rs1 imm) := congrArg some (encodeI_opcode ..)

theorem srai (rd rs1 : Reg) (imm : Word) :
    Statement (.srai rd rs1 imm) := congrArg some (encodeI_opcode ..)

theorem lui (rd : Reg) (imm : Word) :
    Statement (.lui rd imm) := congrArg some (encodeU_opcode ..)

theorem auipc (rd : Reg) (imm : Word) :
    Statement (.auipc rd imm) := congrArg some (encodeU_opcode ..)

theorem beq (rs1 rs2 : Reg) (imm : Word) :
    Statement (.beq rs1 rs2 imm) := congrArg some (encodeB_opcode ..)

theorem bne (rs1 rs2 : Reg) (imm : Word) :
    Statement (.bne rs1 rs2 imm) := congrArg some (encodeB_opcode ..)

theorem blt (rs1 rs2 : Reg) (imm : Word) :
    Statement (.blt rs1 rs2 imm) := congrArg some (encodeB_opcode ..)

theorem bge (rs1 rs2 : Reg) (imm : Word) :
    Statement (.bge rs1 rs2 imm) := congrArg some (encodeB_opcode ..)

theorem bltu (rs1 rs2 : Reg) (imm : Word) :
    Statement (.bltu rs1 rs2 imm) := congrArg some (encodeB_opcode ..)

theorem bgeu (rs1 rs2 : Reg) (imm : Word) :
    Statement (.bgeu rs1 rs2 imm) := congrArg some (encodeB_opcode ..)

theorem jal (rd : Reg) (imm : Word) :
    Statement (.jal rd imm) := congrArg some (encodeJ_opcode ..)

theorem jalr (rd rs1 : Reg) (imm : Word) :
    Statement (.jalr rd rs1 imm) := congrArg some (encodeI_opcode ..)

theorem lw (rd rs1 : Reg) (imm : Word) :
    Statement (.lw rd rs1 imm) := congrArg some (encodeI_opcode ..)

theorem sw (rs2 rs1 : Reg) (imm : Word) :
    Statement (.sw rs2 rs1 imm) := congrArg some (encodeS_opcode ..)

theorem flw (rd rs1 : Reg) (imm : Word) :
    Statement (.flw rd rs1 imm) := congrArg some (encodeI_opcode ..)

theorem fsw (rs2 rs1 : Reg) (imm : Word) :
    Statement (.fsw rs2 rs1 imm) := congrArg some (encodeS_opcode ..)

theorem fadd (rd rs1 rs2 : Reg) (rm : BitVec 3) :
    Statement (.fadd rd rs1 rs2 rm) := congrArg some (encodeR_opcode ..)

theorem fsub (rd rs1 rs2 : Reg) (rm : BitVec 3) :
    Statement (.fsub rd rs1 rs2 rm) := congrArg some (encodeR_opcode ..)

theorem fmul (rd rs1 rs2 : Reg) (rm : BitVec 3) :
    Statement (.fmul rd rs1 rs2 rm) := congrArg some (encodeR_opcode ..)

theorem fdiv (rd rs1 rs2 : Reg) (rm : BitVec 3) :
    Statement (.fdiv rd rs1 rs2 rm) := congrArg some (encodeR_opcode ..)

end Sys2Proof.Laws.EncodedOpcode
end

