-- ==== Sys2Proof/Laws/Pipeline.lean ====
section
/-! SUPPORT. What each part of the cycle can answer, and the inversion of `step`. -/

namespace Sys2Proof.Machine

variable {s t : State}

/-! ## Commit and the Store step (R204) -/

theorem State.commit_next_cases {e : InFlight} (h : s.commit e = .next t) : CommitCase s t := by
  unfold State.commit at h
  split at h
  · exact exec_next_cases h
  · cases h; exact .unsupported

theorem State.storeStep_empty (h : s.slotE = none) :
    s.storeStep = .next { s with slotS := none } := by
  simp [State.storeStep, h]

theorem State.storeStep_next {e : InFlight} (he : s.slotE = some e) (h : s.commit e = .next t) :
    s.storeStep = .next (t.retire e) := by
  simp [State.storeStep, he, h]

theorem State.storeStep_fault {e : InFlight} {f : Fault} (he : s.slotE = some e)
    (h : s.commit e = .fault f) : s.storeStep = .fault f := by
  simp [State.storeStep, he, h]

/-- The Store step retires the old occupant, or commits the record in Execute. -/
theorem State.storeStep_next_cases (h : s.storeStep = .next t) :
    (s.slotE = none ∧ t = { s with slotS := none }) ∨
      ∃ e u, s.slotE = some e ∧ s.commit e = .next u ∧ t = u.retire e := by
  unfold State.storeStep at h
  split at h
  · cases h; exact .inl ⟨‹_›, rfl⟩
  · split at h
    · cases h; exact .inr ⟨_, _, ‹_›, ‹_›, rfl⟩
    · cases h
    · cases h

/-! ## The gated steps (R209 to R214) -/

/-- A Fetch step that answers a next state: suppressed, a valid fetch, or the Linear end of stream. -/
theorem State.fetchStep_next_cases (h : s.fetchStep = .next t) :
    (s.halt = true ∧ t = s) ∨
    (s.halt = false ∧ ∃ w, s.streamWord s.pc = some w ∧ t = s.fetchWord w) ∨
    (s.halt = false ∧ s.streamWord s.pc = none ∧ s.params.fetchMode = .linear ∧
      ((s.slotD = none ∧ s.slotE = none ∧ t = { s with halt := true }) ∨
        (¬(s.slotD = none ∧ s.slotE = none) ∧ t = s))) := by
  unfold State.fetchStep at h
  split at h
  · cases h; exact .inl ⟨‹_›, rfl⟩
  · rename_i hn
    have hh : s.halt = false := Bool.eq_false_iff.2 hn
    split at h
    · cases h; exact .inr (.inl ⟨hh, _, ‹_›, rfl⟩)
    · split at h
      · cases h
      · split at h
        · cases h; exact .inr (.inr ⟨hh, ‹_›, ‹_›, .inl ⟨(‹_ ∧ _›).1, (‹_ ∧ _›).2, rfl⟩⟩)
        · cases h; exact .inr (.inr ⟨hh, ‹_›, ‹_›, .inr ⟨‹_›, rfl⟩⟩)

/-- The only fault of the Fetch step (R185). -/
theorem State.fetchStep_fault_cases {f : Fault} (h : s.fetchStep = .fault f) :
    s.halt = false ∧ s.streamWord s.pc = none ∧ s.params.fetchMode = .looping ∧
      f = .fetchOutOfStream s.pc := by
  unfold State.fetchStep at h
  split at h
  · cases h
  · rename_i hn
    have hh : s.halt = false := Bool.eq_false_iff.2 hn
    split at h
    · cases h
    · split at h
      · cases h; exact ⟨hh, ‹_›, ‹_›, rfl⟩
      · split at h <;> cases h

theorem State.gatedSteps_stalled (h : s.stall ≠ 0) : s.gatedSteps = .next s := by
  simp [State.gatedSteps, h]

theorem State.gatedSteps_open (h : s.stall = 0) :
    s.gatedSteps = s.executeStep.decodeStep.fetchStep := by
  simp [State.gatedSteps, h]

/-- What the Execute and Decode steps together change: the two records move one stage each. -/
theorem State.moved_slots (he : s.slotE = none) :
    s.executeStep.decodeStep.slotE = s.slotD.map (fun d => { d with enter := s.cycle }) ∧
    s.executeStep.decodeStep.slotD = s.slotF.map (fun d => { d with enter := s.cycle }) ∧
    s.executeStep.decodeStep.slotF = none := by
  rcases hD : s.slotD with _ | d <;> rcases hF : s.slotF with _ | i <;>
    simp [State.executeStep, State.decodeStep, hD, hF, he]

/-- What they leave unchanged. -/
theorem State.moved_keeps :
    s.executeStep.decodeStep.params = s.params ∧ s.executeStep.decodeStep.prog = s.prog ∧
    s.executeStep.decodeStep.x = s.x ∧ s.executeStep.decodeStep.f = s.f ∧
    s.executeStep.decodeStep.pc = s.pc ∧ s.executeStep.decodeStep.slotS = s.slotS ∧
    s.executeStep.decodeStep.stall = s.stall ∧ s.executeStep.decodeStep.halt = s.halt ∧
    s.executeStep.decodeStep.cycle = s.cycle ∧ s.executeStep.decodeStep.ticks = s.ticks ∧
    s.executeStep.decodeStep.mem = s.mem ∧ s.executeStep.decodeStep.unrec = s.unrec ∧
    s.executeStep.decodeStep.status = s.status := by
  rcases hD : s.slotD with _ | d <;> rcases hF : s.slotF with _ | i <;>
    simp [State.executeStep, State.decodeStep, hD, hF]

/-! ## The termination check (R217, R218) -/

theorem State.checkedStatus_cases :
    (s.checkedStatus = .halted ∧ s.halt = true ∧ s.drained = true) ∨
    (s.checkedStatus = .limitReached ∧ ¬(s.halt = true ∧ s.drained = true) ∧
      0 < s.params.cycleLimit ∧ s.params.cycleLimit ≤ s.cycle) ∨
    (s.checkedStatus = s.status ∧ ¬(s.halt = true ∧ s.drained = true) ∧
      ¬(0 < s.params.cycleLimit ∧ s.params.cycleLimit ≤ s.cycle)) := by
  unfold State.checkedStatus
  by_cases h1 : (s.halt && s.drained) = true
  · exact .inl ⟨by simp [h1], by simpa using h1⟩
  · have h1' : ¬(s.halt = true ∧ s.drained = true) := by simpa using h1
    by_cases h2 : 0 < s.params.cycleLimit ∧ s.params.cycleLimit ≤ s.cycle
    · exact .inr (.inl ⟨by simp only [if_neg h1, if_pos h2], h1', h2⟩)
    · exact .inr (.inr ⟨by simp only [if_neg h1, if_neg h2], h1', h2⟩)

/-! ## What no step refuses -/

theorem State.storeStep_not_refused {r : Refusal} : s.storeStep ≠ .refused r := by
  intro h
  unfold State.storeStep at h
  split at h
  · cases h
  · split at h
    · cases h
    · cases h
    · rename_i hc
      cases h
      unfold State.commit at hc
      split at hc
      · exact exec_not_refused hc
      · cases hc

theorem State.gatedSteps_not_refused {r : Refusal} : s.gatedSteps ≠ .refused r := by
  intro h
  unfold State.gatedSteps State.fetchStep at h
  repeat' split at h
  all_goals cases h

/-! ## The inversion of `step` -/

/-- The cases of a step (R201, R203, R219): a run that has ended stays; a fault of the Store or the
Fetch step ends the run; or the cycle is completed. -/
inductive StepCase (s : State) : State → Prop where
  | ended (h : s.status ≠ .running) : StepCase s s
  | storeFault (running : s.status = .running) (f : Fault) (h : s.storeStep = .fault f) :
      StepCase s (s.enterFault f)
  | fetchFault (running : s.status = .running) (f : Fault) (u : State)
      (hu : s.storeStep = .next u) (h : u.gatedSteps = .fault f) : StepCase s (s.enterFault f)
  | completed (running : s.status = .running) (u v : State) (hu : s.storeStep = .next u)
      (hv : u.gatedSteps = .next v) : StepCase s v.finishCycle

theorem step_cases (h : step s = .next t) : StepCase s t := by
  unfold step State.stepOnce at h
  split at h
  · rename_i hr
    unfold State.cycleStep at h
    split at h
    · cases h; exact .storeFault hr _ ‹_›
    · cases h
    · split at h
      · cases h; exact .fetchFault hr _ _ ‹_› ‹_›
      · cases h
      · cases h; exact .completed hr _ _ ‹_› ‹_›
  · cases h; exact .ended ‹_›

/-- A completed cycle, from its parts. -/
theorem step_completed {u v : State} (hr : s.status = .running) (hu : s.storeStep = .next u)
    (hv : u.gatedSteps = .next v) : step s = .next v.finishCycle := by
  simp [step, State.stepOnce, hr, State.cycleStep, hu, hv]

theorem step_storeFault {f : Fault} (hr : s.status = .running) (h : s.storeStep = .fault f) :
    step s = .next (s.enterFault f) := by
  simp [step, State.stepOnce, hr, State.cycleStep, h]

theorem step_fetchFault {f : Fault} {u : State} (hr : s.status = .running)
    (hu : s.storeStep = .next u) (h : u.gatedSteps = .fault f) : step s = .next (s.enterFault f) := by
  simp [step, State.stepOnce, hr, State.cycleStep, hu, h]

theorem step_ended (h : s.status ≠ .running) : step s = .next s := by
  simp [step, State.stepOnce, h]

end Sys2Proof.Machine
end

