-- ==== Sys2Proof/Laws/Shapes.lean ====
section
/-! SUPPORT. From the state a commit answers to the shape the statements speak of (Safety.lean): one lemma
per shape, with its frame. -/

namespace Sys2Proof.Machine

variable {s : State} {i : Instr}

/-- R110. -/
theorem commitsX_of_writeX {rd : Reg} {v : Word} (h : exec i s = .next (s.writeX rd v)) :
    CommitsX i s rd v :=
  ⟨_, h, ⟨fun hr => State.readX_writeX_same s v hr, State.readX_zero _,
      fun _ hq => State.readX_writeX_other s v hq⟩,
    fun _ => rfl, fun _ => rfl, ⟨rfl, rfl, rfl, rfl⟩, rfl, rfl, rfl,
    ⟨rfl, rfl, rfl, rfl, rfl, rfl, rfl⟩⟩

/-- R171. -/
theorem commitsFloat_of_writeF {rd : Reg} {v : Word}
    (h : exec i s = .next ((s.writeF rd v).addStall 2)) : CommitsFloat i s rd v :=
  ⟨_, h, ⟨State.readF_writeF_same s rd v, fun _ hq => State.readF_writeF_other s v hq⟩,
    fun _ => rfl, fun _ => rfl, ⟨rfl, rfl, rfl, rfl⟩, rfl, rfl, rfl,
    ⟨rfl, rfl, rfl, rfl, rfl, rfl, rfl⟩⟩

/-- R188. -/
theorem commitsNothing_record : CommitsNothing s s.recordUnrecognized s.current :=
  ⟨rfl, fun _ => rfl, fun _ => rfl, fun _ => rfl, ⟨rfl, rfl, rfl, rfl⟩, rfl, rfl,
    ⟨rfl, rfl, rfl, rfl, rfl, rfl, rfl⟩⟩

/-- R147, R148: an aligned jump that `exec` makes by `transfer`. -/
theorem commitsJump_of_transfer {rd : Reg} {target : Word}
    (h : exec i s = s.transfer target (fun t => t.writeX rd s.linkValue)) (ha : targetAligned target) :
    CommitsJump i s rd s.linkValue target :=
  ⟨_, h.trans (State.transfer_aligned ha),
    ⟨fun hr => State.readX_writeX_same s _ hr, State.readX_zero _,
      fun _ hq => State.readX_writeX_other s _ hq⟩,
    ⟨rfl, rfl, rfl, rfl⟩, fun _ => rfl, fun _ => rfl, rfl, rfl, rfl,
    ⟨rfl, rfl, rfl, rfl, rfl, rfl, rfl⟩⟩

/-- R140: a branch that `exec` makes by `branch`. -/
theorem commitsBranch_of_branch {c : Bool} {taken : Prop} {target : Word} (hc : c = true ↔ taken)
    (h : exec i s = s.branch c target) : CommitsBranch i s taken target := by
  refine ⟨fun ht ha => ?_, fun ht ha => ?_, fun hn hm => ?_, fun hn hm => ?_⟩
  · rw [hc.2 ht] at h
    exact ⟨_, h.trans (State.transfer_aligned ha), ⟨rfl, rfl, rfl, rfl⟩, fun _ => rfl, fun _ => rfl,
      fun _ => rfl, rfl, rfl, rfl, ⟨rfl, rfl, rfl, rfl, rfl, rfl, rfl⟩⟩
  · rw [hc.2 ht] at h
    exact h.trans (State.transfer_misaligned ha)
  · rw [Bool.eq_false_iff.2 (fun k => hn (hc.1 k))] at h
    exact ⟨_, h.trans (State.branch_linear hm), ⟨rfl, rfl, rfl, rfl⟩, fun _ => rfl, fun _ => rfl,
      fun _ => rfl, rfl, rfl, rfl, ⟨rfl, rfl, rfl, rfl, rfl, rfl, rfl⟩⟩
  · rw [Bool.eq_false_iff.2 (fun k => hn (hc.1 k))] at h
    exact ⟨_, h.trans (State.branch_looping hm), rfl, rfl, rfl, rfl, fun _ => rfl, fun _ => rfl,
      fun _ => rfl, rfl, rfl, rfl, ⟨rfl, rfl, rfl, rfl, rfl, rfl, rfl⟩⟩

/-- The fetch order depends on the parameters and the stream only. -/
theorem FetchOrder.congr {s t : State} {l : List Word} (h : FetchOrder s l)
    (hp : t.params = s.params) (hg : t.prog = s.prog) : FetchOrder t l := by
  have hadv : t.advance = s.advance := by funext a; simp [State.advance, hp, hg]
  induction l with
  | nil => trivial
  | cons a l ih =>
    cases l with
    | nil => trivial
    | cons b l => exact ⟨hadv ▸ h.1, ih h.2⟩

theorem FetchOrder.tail {a : Word} {l : List Word} (h : FetchOrder s (a :: l)) : FetchOrder s l := by
  cases l with
  | nil => trivial
  | cons b l => exact h.2

/-- A fetch at the pc extends the order by the next fetch address. -/
theorem FetchOrder.snoc {a : Word} {l : List Word} (h : FetchOrder s (l ++ [a])) :
    FetchOrder s (l ++ [a, s.advance a]) := by
  induction l with
  | nil => exact ⟨rfl, trivial⟩
  | cons b l ih =>
    cases l with
    | nil => exact ⟨h.1, ih h.2⟩
    | cons c l => exact ⟨h.1, ih h.2⟩

/-! ## Which instructions move the fetch -/

/-- A core branch is supported. -/
theorem supports_core_branch {p : Params} :
    supports p .beq = true ∧ supports p .bne = true ∧ supports p .blt = true ∧
      supports p .bge = true := by
  refine ⟨?_, ?_, ?_, ?_⟩ <;> simp [supports, extendedSet]

/-- What a branch does to the pc and the halt flag, from what its condition means. -/
theorem branch_flow {t : State} {c : Bool} {target : Word} (h : s.branch c target = .next t)
    (ht : c = true → TakesTransfer i s target) (hf : c = false → FallsThrough i s) :
    (t.pc = s.pc ∧ t.halt = s.halt) ∨
    (∃ a, TakesTransfer i s a ∧ t.pc = a ∧ t.halt = s.halt) ∨
    (s.params.fetchMode = .looping ∧ FallsThrough i s ∧ t.pc = s.pc ∧ t.halt = true) := by
  rcases State.branch_cases h with ⟨hc, -, he⟩ | ⟨hc, -, he⟩ | ⟨hc, hm, he⟩ | ⟨hc, hm, he⟩ <;> cases he
  · exact .inr (.inl ⟨_, ht hc, rfl, rfl⟩)
  · exact .inr (.inr ⟨hm, hf hc, rfl, rfl⟩)
  · exact .inl ⟨rfl, rfl⟩

/-- Every commit keeps the pc and the halt flag, or makes the transfer its instruction takes, or is the
halt of a branch not taken in Looping mode. -/
theorem exec_flow {t : State} (h : exec i s = .next t) :
    (t.pc = s.pc ∧ t.halt = s.halt) ∨
    (∃ a, TakesTransfer i s a ∧ t.pc = a ∧ t.halt = s.halt) ∨
    (s.params.fetchMode = .looping ∧ FallsThrough i s ∧ t.pc = s.pc ∧ t.halt = true) := by
  obtain ⟨s1, s2, s3, s4⟩ := supports_core_branch (p := s.params)
  cases i
  case beq =>
    refine branch_flow h ?_ ?_ <;>
      simp [TakesTransfer, FallsThrough, Instr.mnemonic, State.relativeTarget, s1]
  case bne =>
    refine branch_flow h ?_ ?_ <;>
      simp [TakesTransfer, FallsThrough, Instr.mnemonic, State.relativeTarget, s2]
  case blt =>
    refine branch_flow h ?_ ?_ <;>
      simp [TakesTransfer, FallsThrough, Instr.mnemonic, State.relativeTarget, lessSigned, s3]
  case bge =>
    refine branch_flow h ?_ ?_ <;>
      simp [TakesTransfer, FallsThrough, Instr.mnemonic, State.relativeTarget, lessSigned, s4]
  case bltu =>
    rcases State.gated_cases h with ⟨hs, h⟩ | ⟨-, h⟩
    · refine branch_flow h ?_ ?_ <;>
        simp [TakesTransfer, FallsThrough, hs, Instr.mnemonic, State.relativeTarget, lessUnsigned]
    · cases h; exact .inl ⟨rfl, rfl⟩
  case bgeu =>
    rcases State.gated_cases h with ⟨hs, h⟩ | ⟨-, h⟩
    · refine branch_flow h ?_ ?_ <;>
        simp [TakesTransfer, FallsThrough, hs, Instr.mnemonic, State.relativeTarget, lessUnsigned]
    · cases h; exact .inl ⟨rfl, rfl⟩
  case jal =>
    rcases State.gated_cases h with ⟨hs, h⟩ | ⟨-, h⟩
    · rcases State.transfer_cases h with ⟨-, h⟩ | ⟨-, h⟩ <;> cases h
      exact .inr (.inl ⟨_, ⟨hs, rfl⟩, rfl, rfl⟩)
    · cases h; exact .inl ⟨rfl, rfl⟩
  case jalr =>
    rcases State.gated_cases h with ⟨hs, h⟩ | ⟨-, h⟩
    · rcases State.transfer_cases h with ⟨-, h⟩ | ⟨-, h⟩ <;> cases h
      exact .inr (.inl ⟨_, ⟨hs, rfl⟩, rfl, rfl⟩)
    · cases h; exact .inl ⟨rfl, rfl⟩
  case lw =>
    rcases State.gated_cases h with ⟨-, h⟩ | ⟨-, h⟩
    · rcases State.memRead_cases h with ⟨-, h⟩ | ⟨f, -, h⟩ <;> cases h
      exact .inl ⟨rfl, rfl⟩
    · cases h; exact .inl ⟨rfl, rfl⟩
  case sw =>
    rcases State.gated_cases h with ⟨-, h⟩ | ⟨-, h⟩
    · rcases State.memWrite_cases h with ⟨-, h⟩ | ⟨f, -, h⟩ <;> cases h
      exact .inl ⟨rfl, rfl⟩
    · cases h; exact .inl ⟨rfl, rfl⟩
  case flw =>
    unfold exec execFlw at h
    rcases State.memRead_cases h with ⟨-, h⟩ | ⟨f, -, h⟩ <;> cases h
    exact .inl ⟨rfl, rfl⟩
  case fsw =>
    unfold exec execFsw at h
    rcases State.memWrite_cases h with ⟨-, h⟩ | ⟨f, -, h⟩ <;> cases h
    exact .inl ⟨rfl, rfl⟩
  all_goals first
    | (cases h; exact .inl ⟨rfl, rfl⟩)
    | (rcases State.gated_cases h with ⟨-, h⟩ | ⟨-, h⟩ <;> cases h <;> exact .inl ⟨rfl, rfl⟩)

end Sys2Proof.Machine
end

