-- ==== Sys2Proof/Tests/Slice0.lean ====
section
/-! SUPPORT. The model's own tests. Every expected value is a vector of spec/95_test_vectors.md or an example
of the rule named; a `witness_` theorem shows that the hypotheses of the obligation of that name can be
met, clause by clause. -/

open Sys2Proof Sys2Proof.Machine

namespace Sys2Proof.Tests

/-! ## Helpers -/

/-- The reset state with x1 and x2 set. -/
def regs (v1 v2 : Word) : State := (State.reset.writeX 1 v1).writeX 2 v2

/-- The reset state with f2 and f3 set, under the reference instance. -/
def floats (v2 v3 : Word) : State :=
  { (State.reset.writeF 2 v2).writeF 3 v3 with params := { resetParams with fpOps := .reference } }

/-- The same state in Looping mode. -/
def looping (s : State) : State := { s with params := { s.params with fetchMode := .looping } }

/-- The same state with the four bytes 78 56 34 12 at 60 to 63 (V4). -/
def withBytes (s : State) : State := { s with mem := s.mem.writeWord 60 0x12345678#32 }

/-- The same state with a word's record in the Execute slot, fetched from an address. -/
def atAddress (s : State) (a w : Word) : State :=
  { s with slotE := some ⟨a.toNat / 4, a, w, decode w, 0⟩ }

/-- One step from the state in which the word is placed. -/
def run1 (s : State) (w : Nat) : State :=
  match step (s.withFetchWord 32 w) with
  | .next t => t
  | .fault _ => s
  | .refused _ => s

/-- The next state of an answer, or the given state. -/
def nextOr (s : State) (r : Result) : State :=
  match r with
  | .next t => t
  | .fault _ => s
  | .refused _ => s

/-- The fault of an answer. -/
def faultOf (r : Result) : Option Fault :=
  match r with
  | .next _ => none
  | .fault f => some f
  | .refused _ => none

/-! ## Decoding: one word of each constructor, from the encodings of the spec (V1 to V5, section 3) -/

theorem test_decode_op :
    decodeTableWord 32 0x002081B3 = some (.add 3 1 2) ∧
    decodeTableWord 32 0x402081B3 = some (.sub 3 1 2) ∧
    decodeTableWord 32 0x002091B3 = some (.sll 3 1 2) ∧
    decodeTableWord 32 0x0020A1B3 = some (.slt 3 1 2) ∧
    decodeTableWord 32 0x0020B1B3 = some (.sltu 3 1 2) ∧
    decodeTableWord 32 0x0020C1B3 = some (.xor 3 1 2) ∧
    decodeTableWord 32 0x0020D1B3 = some (.srl 3 1 2) ∧
    decodeTableWord 32 0x4020D1B3 = some (.sra 3 1 2) ∧
    decodeTableWord 32 0x0020E1B3 = some (.or 3 1 2) ∧
    decodeTableWord 32 0x0020F1B3 = some (.and 3 1 2) := by decide

theorem test_decode_op_imm :
    decodeTableWord 32 0xFF808093 = some (.addi 1 1 0xFFFFFFF8#32) ∧
    decodeTableWord 32 0xFFF0A193 = some (.slti 3 1 0xFFFFFFFF#32) ∧
    decodeTableWord 32 0x0010B193 = some (.sltiu 3 1 1#32) ∧
    decodeTableWord 32 0xFFF0C193 = some (.xori 3 1 0xFFFFFFFF#32) ∧
    decodeTableWord 32 0x0F00E193 = some (.ori 3 1 240#32) ∧
    decodeTableWord 32 0xFF00F193 = some (.andi 3 1 0xFFFFFFF0#32) ∧
    decodeTableWord 32 0x02509193 = some (.slli 3 1 37#32) ∧
    decodeTableWord 32 0x0040D193 = some (.srli 3 1 4#32) ∧
    decodeTableWord 32 0x40315093 = some (.srai 1 2 1027#32) ∧
    decodeTableWord 32 0x123451B7 = some (.lui 3 0x12345#32) ∧
    decodeTableWord 32 0x800001B7 = some (.lui 3 0xFFF80000#32) ∧
    decodeTableWord 32 0x00002197 = some (.auipc 3 2#32) := by decide

theorem test_decode_control :
    decodeTableWord 32 0x7E000FE3 = some (.beq 0 0 4094#32) ∧
    decodeTableWord 32 0x80000063 = some (.beq 0 0 0xFFFFF000#32) ∧
    decodeTableWord 32 0xFE209EE3 = some (.bne 1 2 0xFFFFFFFC#32) ∧
    decodeTableWord 32 0x0020C463 = some (.blt 1 2 8#32) ∧
    decodeTableWord 32 0x0020D463 = some (.bge 1 2 8#32) ∧
    decodeTableWord 32 0x0020E463 = some (.bltu 1 2 8#32) ∧
    decodeTableWord 32 0x0020F463 = some (.bgeu 1 2 8#32) ∧
    decodeTableWord 32 0x7FFFF06F = some (.jal 0 1048574#32) ∧
    decodeTableWord 32 0x8000006F = some (.jal 0 0xFFF00000#32) ∧
    decodeTableWord 32 0x0000306F = some (.jal 0 12288#32) ∧
    decodeTableWord 32 0x005100E7 = some (.jalr 1 2 5#32) := by decide

theorem test_decode_memory_and_float :
    decodeTableWord 32 0xFFC0A183 = some (.lw 3 1 0xFFFFFFFC#32) ∧
    decodeTableWord 32 0xFE532E23 = some (.sw 5 6 0xFFFFFFFC#32) ∧
    decodeTableWord 32 0x7E002FA3 = some (.sw 0 0 2047#32) ∧
    decodeTableWord 32 0x00402107 = some (.flw 2 0 4#32) ∧
    decodeTableWord 32 0x00102127 = some (.fsw 1 0 2#32) ∧
    decodeTableWord 32 0x003100D3 = some (.fadd 1 2 3 0#3) ∧
    decodeTableWord 32 0x083170D3 = some (.fsub 1 2 3 7#3) ∧
    decodeTableWord 32 0x103170D3 = some (.fmul 1 2 3 7#3) ∧
    decodeTableWord 32 0x183170D3 = some (.fdiv 1 2 3 7#3) := by decide

/-- M-extension words that alias Direct entries (R85). -/
theorem test_decode_alias :
    decodeTableWord 32 0x022091B3 = some (.sll 3 1 2) ∧
    decodeTableWord 32 0x0220A1B3 = some (.slt 3 1 2) ∧
    decodeTableWord 32 0x0220B1B3 = some (.sltu 3 1 2) ∧
    decodeTableWord 32 0x0220C1B3 = some (.xor 3 1 2) ∧
    decodeTableWord 32 0x0220E1B3 = some (.or 3 1 2) ∧
    decodeTableWord 32 0x0220F1B3 = some (.and 3 1 2) := by decide

/-- Words outside the 37 mnemonics (V1; R86, R89, R90). -/
theorem test_decode_unrecognized :
    [0x022081B3, 0x0220D1B3, 0x20000033, 0x0240D193, 0xC020D193, 0x580170D3, 0x003150D3, 0x003160D3,
      0x00008183, 0x00003083, 0x0020A463, 0x0020B463, 0x00000073, 0x0000000F, 0x00000000,
      0xFFFFFFFF].all (fun w => (decodeTableWord 32 w).isNone) = true := by decide

/-- Bits above `nbits` are 0, so the low 8 bits of `addi x1, x0, -1` alone are `addi x1, x0, 0`. -/
theorem test_decode_short_word : decodeTableWord 8 0xFFF00093 = some (.addi 1 0 0#32) := by decide

/-! ## Encoding -/

theorem test_encode :
    encode (.srai 1 2 1027#32) = 0x40315093#32 ∧ encode (.sw 5 6 0xFFFFFFFC#32) = 0xFE532E23#32 ∧
    encode (.bne 1 2 0xFFFFFFFC#32) = 0xFE209EE3#32 ∧ encode (.jal 1 8#32) = 0x008000EF#32 ∧
    encode (.lui 3 0x7FFFF#32) = 0x7FFFF1B7#32 ∧ encode (.fdiv 1 2 3 7#3) = 0x183170D3#32 ∧
    encode (.slli 3 1 37#32) = 0x02509193#32 := by decide

/-! ## WellFormed: an ill-formed term for each check, which the check refuses -/

theorem test_wellFormed_refuses :
    (Instr.addi 1 1 2048#32).wellFormed = false ∧ (Instr.addi 1 1 0xFFFFF7FF#32).wellFormed = false ∧
    (Instr.sw 1 1 2048#32).wellFormed = false ∧ (Instr.srli 1 1 32#32).wellFormed = false ∧
    (Instr.srai 1 1 31#32).wellFormed = false ∧ (Instr.srai 1 1 1056#32).wellFormed = false ∧
    (Instr.lui 1 524288#32).wellFormed = false ∧ (Instr.auipc 1 0xFFF7FFFF#32).wellFormed = false ∧
    (Instr.beq 1 1 4096#32).wellFormed = false ∧ (Instr.beq 1 1 3#32).wellFormed = false ∧
    (Instr.jal 1 1048576#32).wellFormed = false ∧ (Instr.jal 1 1#32).wellFormed = false ∧
    (Instr.fadd 1 1 1 5#3).wellFormed = false ∧ (Instr.fdiv 1 1 1 6#3).wellFormed = false := by decide

theorem test_wellFormed_admits :
    (Instr.addi 1 1 0xFFFFF800#32).wellFormed = true ∧ (Instr.srai 1 1 1055#32).wellFormed = true ∧
    (Instr.jal 1 0xFFF00000#32).wellFormed = true ∧ (Instr.fadd 1 1 1 7#3).wellFormed = true := by
  decide

/-! ## Integer instructions (V2 and the examples of 40_integer.md) -/

theorem test_add_wraps :
    (run1 (regs 0x7FFFFFFF#32 1#32) 0x002081B3).readX 3 = 0x80000000#32 := by decide
theorem test_sub_wraps : (run1 (regs 0#32 1#32) 0x402081B3).readX 3 = 0xFFFFFFFF#32 := by decide
theorem test_sll_amount : (run1 (regs 1#32 33#32) 0x002091B3).readX 3 = 2#32 := by decide
theorem test_slt_signed : (run1 (regs 0xFFFFFFFF#32 1#32) 0x0020A1B3).readX 3 = 1#32 := by decide
theorem test_sltu_unsigned :
    (run1 ((regs 0xFFFFFFFF#32 1#32).writeX 3 9#32) 0x0020B1B3).readX 3 = 0#32 := by decide
theorem test_xor :
    (run1 (regs 0xF0F0F0F0#32 0xFF00FF00#32) 0x0020C1B3).readX 3 = 0x0FF00FF0#32 := by decide
theorem test_srl : (run1 (regs 0x80000000#32 31#32) 0x0020D1B3).readX 3 = 1#32 := by decide
theorem test_sra_amount :
    (run1 (regs 0x80000000#32 36#32) 0x4020D1B3).readX 3 = 0xF8000000#32 := by decide
theorem test_or : (run1 (regs 0xF0#32 0x0F#32) 0x0020E1B3).readX 3 = 0xFF#32 := by decide
theorem test_and : (run1 (regs 0xF0#32 0x3C#32) 0x0020F1B3).readX 3 = 0x30#32 := by decide
theorem test_addi_same_register :
    (run1 (regs 160#32 0#32) 0xFF808093).readX 1 = 152#32 := by decide
theorem test_addi_to_zero : (run1 (regs 0#32 0#32) 0x00500013).readX 0 = 0#32 := by decide
theorem test_slti : (run1 (regs 0xFFFFFFFE#32 0#32) 0xFFF0A193).readX 3 = 1#32 := by decide
theorem test_sltiu_sign_extends : (run1 (regs 0#32 0#32) 0xFFF0B193).readX 3 = 1#32 := by decide
theorem test_xori : (run1 (regs 0x12345678#32 0#32) 0xFFF0C193).readX 3 = 0xEDCBA987#32 := by decide
theorem test_ori_negative : (run1 (regs 1#32 0#32) 0x8000E193).readX 3 = 0xFFFFF801#32 := by decide
theorem test_andi : (run1 (regs 0xFFFF#32 0#32) 0xFF00F193).readX 3 = 0xFFF0#32 := by decide
theorem test_slli_low_five_bits : (run1 (regs 1#32 0#32) 0x02509193).readX 3 = 0x20#32 := by decide
theorem test_srli : (run1 (regs 0xF0000000#32 0#32) 0x0040D193).readX 3 = 0x0F000000#32 := by decide
theorem test_srai : (run1 (regs 0xF0000000#32 0#32) 0x4040D193).readX 3 = 0xFF000000#32 := by decide
theorem test_srai_by_zero :
    (run1 (regs 0x80000000#32 0#32) 0x4000D193).readX 3 = 0x80000000#32 := by decide
theorem test_lui : (run1 (regs 0#32 0#32) 0xFFFFF1B7).readX 3 = 0xFFFFF000#32 := by decide
/-- R132: at `ipc` 8. -/
theorem test_auipc_own_address :
    (run1 { regs 0#32 0#32 with pc := 8#32 } 0x00002197).readX 3 = 0x2008#32 := by decide

/-! ## Control transfer (V3) -/

theorem test_beq_taken : (run1 (regs 5#32 5#32) 0x00208463).pc = 8#32 := by decide
theorem test_beq_not_taken : (run1 (regs 1#32 2#32) 0x00208463).pc = 4#32 := by decide
theorem test_bne_backwards :
    (run1 { regs 8#32 0#32 with pc := 4#32, prog := [0xFF808093#32] } 0xFE209EE3).pc = 4#32 ∧
    (run1 { regs 8#32 0#32 with pc := 4#32, prog := [0xFF808093#32] } 0xFE209EE3).slotF.map
      InFlight.ipc = some 0#32 := by decide
theorem test_blt_signed : (run1 (regs 0xFFFFFFFF#32 1#32) 0x0020C463).pc = 8#32 := by decide
theorem test_bge_equal : (run1 (regs 5#32 5#32) 0x0020D463).pc = 8#32 := by decide
theorem test_bltu_unsigned : (run1 (regs 0xFFFFFFFF#32 1#32) 0x0020E463).pc = 4#32 := by decide
theorem test_bgeu_unsigned : (run1 (regs 0#32 0xFFFFFFFF#32) 0x0020F463).pc = 4#32 := by decide
/-- Section 3, P4: `jal x1, 12` at 4. -/
theorem test_jal_link :
    (run1 { regs 0#32 0#32 with pc := 4#32 } 0x00C000EF).readX 1 = 8#32 ∧
    (run1 { regs 0#32 0#32 with pc := 4#32 } 0x00C000EF).pc = 16#32 := by decide
theorem test_jalr_clears_bit_zero :
    (run1 (regs 0#32 3#32) 0x005100E7).pc = 8#32 ∧ (run1 (regs 0#32 3#32) 0x005100E7).readX 1 = 4#32 := by
  decide
theorem test_jalr_old_register :
    (run1 (State.reset.writeX 7 8#32) 0x000383E7).pc = 8#32 ∧
    (run1 (State.reset.writeX 7 8#32) 0x000383E7).readX 7 = 4#32 := by decide
theorem test_misaligned_target :
    (run1 (State.reset.writeX 7 6#32) 0x000380E7).status = .faulted (.misalignedTarget 6#32) ∧
    (run1 (State.reset.writeX 7 6#32) 0x000380E7).readX 1 = 0#32 ∧
    (run1 State.reset 0x00000363).status = .faulted (.misalignedTarget 6#32) := by decide
theorem test_fetch_out_of_stream :
    (run1 (looping State.reset) 0x18000863).status = .faulted (.fetchOutOfStream 400#32) ∧
    (run1 State.reset 0x18000863).status = .running := by decide
theorem test_looping_halt :
    (run1 (looping State.reset) 0x00001463).halt = true ∧
    (run1 (looping State.reset) 0x00001463).slotF = none := by decide

/-! ## Loads and stores (V4) -/

theorem test_lw_little_endian :
    (run1 (withBytes State.reset) 0x03C02183).readX 3 = 0x12345678#32 ∧
    (run1 (withBytes State.reset) 0x03C02183).ticks = 3 := by decide
theorem test_lw_bounds_first :
    (run1 State.reset 0x03E02183).status = .faulted (.bounds 62#32) ∧
    (run1 State.reset 0x00202183).status = .faulted (.misalignedAccess 2#32) := by decide
theorem test_sw_bytes :
    (run1 ((State.reset.writeX 5 0xAABBCCDD#32).writeX 6 24#32) 0xFE532E23).mem =
      [(20, 0xDD#8), (21, 0xCC#8), (22, 0xBB#8), (23, 0xAA#8)] ∧
    (run1 ((State.reset.writeX 5 0xAABBCCDD#32).writeX 6 24#32) 0xFE532E23).ticks = 5 := by decide
theorem test_sw_zero_stays_canonical : (run1 (withBytes State.reset) 0x02002E23).mem = [] := by decide
theorem test_flw_pattern :
    (run1 (withBytes State.reset) 0x03C02087).readF 1 = 0x12345678#32 ∧
    (run1 State.reset 0xFFC02087).status = .faulted (.bounds 0xFFFFFFFC#32) := by decide
theorem test_fsw_pattern :
    (run1 (State.reset.writeF 1 0x7FC00001#32) 0x00102227).mem =
      [(4, 0x01#8), (6, 0xC0#8), (7, 0x7F#8)] ∧
    (run1 State.reset 0x00102127).status = .faulted (.misalignedAccess 2#32) := by decide

/-! ## Floating arithmetic (V5, reference instance) -/

theorem test_fadd :
    (run1 (floats 0x3FC00000#32 0x40100000#32) 0x003170D3).readF 1 = 0x40700000#32 ∧
    (run1 (floats 0x3FC00000#32 0x40100000#32) 0x003170D3).stall = 1 := by decide
theorem test_fadd_overflow :
    (run1 (floats 0x7F7FFFFF#32 0x7F7FFFFF#32) 0x003170D3).readF 1 = 0x7F800000#32 := by decide
theorem test_fsub :
    (run1 (floats 0x3FC00000#32 0x40100000#32) 0x083170D3).readF 1 = 0xBF400000#32 := by decide
theorem test_fsub_zero :
    (run1 (floats 0x3F800000#32 0x3F800000#32) 0x083170D3).readF 1 = 0#32 := by decide
theorem test_fmul :
    (run1 (floats 0x3FC00000#32 0x40100000#32) 0x103170D3).readF 1 = 0x40580000#32 := by decide
theorem test_fmul_negative_zero :
    (run1 (floats 0x80000000#32 0x3F800000#32) 0x103170D3).readF 1 = 0x80000000#32 := by decide
theorem test_fdiv_rounds :
    (run1 (floats 0x3F800000#32 0x40400000#32) 0x183170D3).readF 1 = 0x3EAAAAAB#32 := by decide
theorem test_fdiv_by_zero :
    (run1 (floats 0x3F800000#32 0#32) 0x183170D3).readF 1 = 0x7F800000#32 := by decide

/-! ## Unrecognized words, faults, loader, rendering -/

theorem test_unrecognized :
    (run1 (regs 3#32 4#32) 0x022081B3).unrec = [(0, 0x022081B3#32, 0)] ∧
    (run1 (regs 3#32 4#32) 0x022081B3).x = (regs 3#32 4#32).x := by decide
theorem test_unsupported :
    (run1 { regs 3#32 4#32 with params := { resetParams with extSupported := [] } } 0x002091B3).unrec =
      [(0, 0x002091B3#32, 0)] := by decide
/-- V6: the empty stream, Linear and Looping. -/
theorem test_empty_stream :
    step State.reset = .next { State.reset with halt := true, cycle := 1, status := .halted } ∧
    step (looping State.reset) =
      .next { looping State.reset with status := .faulted (.fetchOutOfStream 0#32) } := ⟨rfl, rfl⟩
/-- R61: little-endian words, a repeated word not added, a final fragment ignored. -/
theorem test_load_image :
    loadImage [0x13#8, 0x05#8, 0x05#8, 0x00#8, 0x13#8, 0x05#8, 0x05#8, 0x00#8, 0x17#8, 0x05#8, 0x00#8,
      0x00#8, 0x17#8] = [0x00050513#32, 0x00000517#32] := by decide
/-- R61: of the words A, A, B, A only the second is left out. -/
theorem test_load_image_repeat_later :
    loadImage [1#8, 0#8, 0#8, 0#8, 1#8, 0#8, 0#8, 0#8, 2#8, 0#8, 0#8, 0#8, 1#8, 0#8, 0#8, 0#8] =
      [1#32, 2#32, 1#32] := by decide
theorem test_render :
    render (decode 0x00050513#32) = "addi x10, x10, 0" ∧
    render (decode 0x80002023#32) = "sw x0, -2048(x0)" ∧
    render (decode 0x8000006F#32) = "jal x0, -1048576" ∧
    render (decode 0x00000053#32) = "fadd.s f0, f0, f0" := by decide

/-! ## Witnesses: decoder and encoder -/

theorem witness_FieldsAtFixedPositions :
    (decode 0x402081B3#32).rd = some 3#5 ∧ (decode 0x402081B3#32).funct3 = some 0#3 ∧
    (decode 0x402081B3#32).rs1 = some 1#5 ∧ (decode 0x402081B3#32).rs2 = some 2#5 ∧
    (decode 0x402081B3#32).funct7 = some 0x20#7 := by decide

theorem witness_FormatFromLowSevenBits :
    (0x80000053#32).toNat % 128 ∈ [0x33, 0x53] ∧
    (0x80000067#32).toNat % 128 ∈ [0x13, 0x03, 0x07, 0x67] ∧
    (0x80000027#32).toNat % 128 ∈ [0x23, 0x27] ∧ (0x80000063#32).toNat % 128 = 0x63 ∧
    (0x80000017#32).toNat % 128 ∈ [0x37, 0x17] ∧ (0x8000006F#32).toNat % 128 = 0x6F ∧
    (0xFFFFFFFF#32).toNat % 128 ∉
      [0x33, 0x53, 0x13, 0x03, 0x07, 0x67, 0x23, 0x27, 0x63, 0x37, 0x17, 0x6F] := by decide

theorem witness_FieldsOfEachFormat :
    (decode 0x002081B3#32).format = some .R ∧ (decode 0xFF808093#32).format = some .I ∧
    (decode 0x40315093#32).format = some .I ∧
    ((0x40315093#32).toNat % 128 = 0x13 ∧
      (funct3Of 0x40315093#32 = 1#3 ∨ funct3Of 0x40315093#32 = 5#3)) ∧
    ¬((0xFF808093#32).toNat % 128 = 0x13 ∧
      (funct3Of 0xFF808093#32 = 1#3 ∨ funct3Of 0xFF808093#32 = 5#3)) ∧
    (decode 0xFE532E23#32).format = some .S ∧ (decode 0xFE209EE3#32).format = some .B ∧
    (decode 0x800001B7#32).format = some .U ∧ (decode 0x008000EF#32).format = some .J ∧
    (decode 0x00000073#32).format = none := by decide

/-- Each format, and each side of each immediate's sign: the bounds of V1. -/
theorem witness_ImmediateValues :
    (decode 0x7FF00093#32).format = some .I ∧ (0x7FF00093#32).toNat / 2 ^ 20 = 2047 ∧
    (decode 0x80000093#32).format = some .I ∧ (0x80000093#32).toNat / 2 ^ 20 = 2048 ∧
    (decode 0x7E002FA3#32).format = some .S ∧ (decode 0x80002023#32).format = some .S ∧
    (decode 0x7E000FE3#32).format = some .B ∧ (decode 0x80000063#32).format = some .B ∧
    (decode 0x7FFFF1B7#32).format = some .U ∧ (decode 0x800001B7#32).format = some .U ∧
    (decode 0x7FFFF06F#32).format = some .J ∧ (decode 0x8000006F#32).format = some .J := by decide

theorem witness_LookupAgreesWithOpcodeTable :
    decodeInstr 0x002081B3#32 = some (.add 3 1 2) ∧
    (⟨.add, 0x00000033#32, 0xFE00707F#32⟩ : OpcodeRow) ∈ opcodeRows ∧
    (decode 0x002081B3#32).mnemonic = .add ∧ (decode 0x00000073#32).mnemonic = .unrecognized := by
  decide

theorem witness_DecodeOfEncodeIsInstruction :
    (Instr.addi 31 31 0xFFFFF800#32).wellFormed = true ∧ (Instr.beq 31 0 4094#32).wellFormed = true ∧
    (Instr.srai 1 2 1055#32).wellFormed = true := by decide

/-- Both branches: a Direct OP entry with bits 31:25 set, and an entry that consults them. -/
theorem witness_EncodeOfDecodeIsWord :
    decodeInstr 0x022091B3#32 = some (.sll 3 1 2) ∧
    (opcodeOf 0x022091B3#32 = 0x33#7 ∧ funct3Of 0x022091B3#32 ≠ 0#3 ∧ funct3Of 0x022091B3#32 ≠ 5#3) ∧
    decodeInstr 0x402081B3#32 = some (.sub 3 1 2) ∧
    ¬(opcodeOf 0x402081B3#32 = 0x33#7 ∧ funct3Of 0x402081B3#32 ≠ 0#3 ∧ funct3Of 0x402081B3#32 ≠ 5#3) := by
  decide

/-- The hypotheses of `DecodesAs`. -/
abbrev Meets (w : Word) (op : BitVec 7) (f3 : Option (BitVec 3)) (f7 : Option (BitVec 7)) : Prop :=
  opcodeOf w = op ∧ (∀ k, f3 = some k → funct3Of w = k) ∧ (∀ k, f7 = some k → funct7Of w = k)

theorem meets_nested {w : Word} {op : BitVec 7} {f3 : BitVec 3} {f7 : BitVec 7} (h : opcodeOf w = op)
    (h3 : funct3Of w = f3) (h7 : funct7Of w = f7) : Meets w op (some f3) (some f7) :=
  ⟨h, fun _ e => Option.some.inj e ▸ h3, fun _ e => Option.some.inj e ▸ h7⟩

theorem meets_direct {w : Word} {op : BitVec 7} {f3 : BitVec 3} (h : opcodeOf w = op)
    (h3 : funct3Of w = f3) : Meets w op (some f3) none :=
  ⟨h, fun _ e => Option.some.inj e ▸ h3, by simp⟩

theorem meets_sentinel {w : Word} {op : BitVec 7} (h : opcodeOf w = op) : Meets w op none none :=
  ⟨h, by simp, by simp⟩

/-! ## Witnesses: integer instructions -/

theorem witness_AddSubCommit :
    Meets 0x002081B3#32 0x33#7 (some 0#3) (some 0#7) ∧
    Meets 0x402081B3#32 0x33#7 (some 0#3) (some 0x20#7) :=
  ⟨meets_nested (by decide) (by decide) (by decide), meets_nested (by decide) (by decide) (by decide)⟩

theorem witness_RegisterShiftsCommit :
    Meets 0x022091B3#32 0x33#7 (some 1#3) none ∧
    Meets 0x0020D1B3#32 0x33#7 (some 5#3) (some 0#7) ∧
    Meets 0x4020D1B3#32 0x33#7 (some 5#3) (some 0x20#7) ∧
    supports State.reset.params .sll = true ∧ supports State.reset.params .srl = true ∧
    supports State.reset.params .sra = true :=
  ⟨meets_direct (by decide) (by decide), meets_nested (by decide) (by decide) (by decide),
    meets_nested (by decide) (by decide) (by decide), by decide, by decide, by decide⟩

theorem witness_RegisterComparesCommit :
    Meets 0x0220A1B3#32 0x33#7 (some 2#3) none ∧ Meets 0x0220B1B3#32 0x33#7 (some 3#3) none ∧
    supports State.reset.params .slt = true ∧ supports State.reset.params .sltu = true :=
  ⟨meets_direct (by decide) (by decide), meets_direct (by decide) (by decide), by decide, by decide⟩

theorem witness_RegisterBitwiseCommit :
    Meets 0x0220C1B3#32 0x33#7 (some 4#3) none ∧ Meets 0x0220E1B3#32 0x33#7 (some 6#3) none ∧
    Meets 0x0220F1B3#32 0x33#7 (some 7#3) none ∧
    supports State.reset.params .xor = true ∧ supports State.reset.params .or = true ∧
    supports State.reset.params .and = true :=
  ⟨meets_direct (by decide) (by decide), meets_direct (by decide) (by decide),
    meets_direct (by decide) (by decide), by decide, by decide, by decide⟩

theorem witness_ImmediateAddAndComparesCommit :
    Meets 0xFF808093#32 0x13#7 (some 0#3) none ∧ Meets 0xFFF0A193#32 0x13#7 (some 2#3) none ∧
    Meets 0xFFF0B193#32 0x13#7 (some 3#3) none ∧
    supports State.reset.params .slti = true ∧ supports State.reset.params .sltiu = true :=
  ⟨meets_direct (by decide) (by decide), meets_direct (by decide) (by decide),
    meets_direct (by decide) (by decide), by decide, by decide⟩

theorem witness_ImmediateBitwiseCommit :
    Meets 0xFFF0C193#32 0x13#7 (some 4#3) none ∧ Meets 0x0F00E193#32 0x13#7 (some 6#3) none ∧
    Meets 0xFF00F193#32 0x13#7 (some 7#3) none ∧
    supports State.reset.params .xori = true ∧ supports State.reset.params .ori = true ∧
    supports State.reset.params .andi = true :=
  ⟨meets_direct (by decide) (by decide), meets_direct (by decide) (by decide),
    meets_direct (by decide) (by decide), by decide, by decide, by decide⟩

theorem witness_ImmediateShiftsCommit :
    Meets 0x02509193#32 0x13#7 (some 1#3) none ∧ Meets 0x0040D193#32 0x13#7 (some 5#3) (some 0#7) ∧
    Meets 0x4040D193#32 0x13#7 (some 5#3) (some 0x20#7) ∧
    supports State.reset.params .slli = true :=
  ⟨meets_direct (by decide) (by decide), meets_nested (by decide) (by decide) (by decide),
    meets_nested (by decide) (by decide) (by decide), by decide⟩

theorem witness_UpperImmediatesCommit :
    Meets 0xFFFFF1B7#32 0x37#7 none none ∧ Meets 0x80000517#32 0x17#7 none none ∧
    supports State.reset.params .lui = true ∧
    (atAddress State.reset 8#32 0x00002197#32).slotE =
      some ⟨2, 8#32, 0x00002197#32, decode 0x00002197#32, 0⟩ :=
  ⟨meets_sentinel (by decide), meets_sentinel (by decide), by decide, rfl⟩

/-- A core mnemonic, a supported and an unsupported extended one. -/
theorem witness_UnsupportedCommitsAsUnrecognized :
    (Instr.add 3 1 2).mnemonic ∉ extendedSet ∧ (Instr.sll 3 1 2).mnemonic ∈ extendedSet ∧
    supports { resetParams with extSupported := [.slt] } (Instr.sll 3 1 2).mnemonic = false ∧
    supports { resetParams with extSupported := [.slt] } (Instr.slt 3 1 2).mnemonic = true := by decide

theorem witness_RegisterZeroIsHardwired :
    supports State.reset.params .jal = true ∧ (State.reset.ipc + 8#32).toNat % 4 = 0 ∧
    State.reset.status = .running ∧
    (decode 0x00500013#32).toInstr = some (.addi 0 0 5#32) ∧
    State.reset.params.fetchMode = .linear := by decide

/-! ## Witnesses: control transfer -/

/-- Taken and aligned, taken and misaligned, not taken in each mode: at address 0, `beq` by 8 and by 6. -/
theorem witness_EqualityBranchesCommit :
    Meets 0x00208463#32 0x63#7 (some 0#3) none ∧ Meets 0xFE209EE3#32 0x63#7 (some 1#3) none ∧
    (regs 5#32 5#32).readX 1 = (regs 5#32 5#32).readX 2 ∧
    (regs 1#32 2#32).readX 1 ≠ (regs 1#32 2#32).readX 2 ∧
    ((regs 5#32 5#32).ipc + 8#32).toNat % 4 = 0 ∧ ((regs 5#32 5#32).ipc + 6#32).toNat % 4 ≠ 0 ∧
    (regs 1#32 2#32).params.fetchMode = .linear ∧
    (looping (regs 1#32 2#32)).params.fetchMode = .looping :=
  ⟨meets_direct (by decide) (by decide), meets_direct (by decide) (by decide), by decide, by decide,
    by decide, by decide, rfl, rfl⟩

theorem witness_SignedBranchesCommit :
    Meets 0x0020C463#32 0x63#7 (some 4#3) none ∧ Meets 0x0020D463#32 0x63#7 (some 5#3) none ∧
    ((regs 0xFFFFFFFF#32 1#32).readX 1).toInt < ((regs 0xFFFFFFFF#32 1#32).readX 2).toInt ∧
    ((regs 5#32 5#32).readX 1).toInt ≥ ((regs 5#32 5#32).readX 2).toInt ∧
    ((regs 5#32 5#32).ipc + 8#32).toNat % 4 = 0 ∧ ((regs 5#32 5#32).ipc + 6#32).toNat % 4 ≠ 0 ∧
    (regs 1#32 2#32).params.fetchMode = .linear ∧
    (looping (regs 1#32 2#32)).params.fetchMode = .looping :=
  ⟨meets_direct (by decide) (by decide), meets_direct (by decide) (by decide), by decide, by decide,
    by decide, by decide, rfl, rfl⟩

theorem witness_UnsignedBranchesCommit :
    Meets 0x0020E463#32 0x63#7 (some 6#3) none ∧ Meets 0x0020F463#32 0x63#7 (some 7#3) none ∧
    supports State.reset.params .bltu = true ∧ supports State.reset.params .bgeu = true ∧
    ((regs 1#32 0xFFFFFFFF#32).readX 1).toNat < ((regs 1#32 0xFFFFFFFF#32).readX 2).toNat ∧
    ((regs 5#32 5#32).readX 1).toNat ≥ ((regs 5#32 5#32).readX 2).toNat ∧
    ((regs 5#32 5#32).ipc + 8#32).toNat % 4 = 0 ∧ ((regs 5#32 5#32).ipc + 6#32).toNat % 4 ≠ 0 ∧
    (regs 1#32 2#32).params.fetchMode = .linear ∧
    (looping (regs 1#32 2#32)).params.fetchMode = .looping :=
  ⟨meets_direct (by decide) (by decide), meets_direct (by decide) (by decide), by decide, by decide,
    by decide, by decide, by decide, by decide, rfl, rfl⟩

theorem witness_JalCommits :
    Meets 0x00C000EF#32 0x6F#7 none none ∧ supports State.reset.params .jal = true ∧
    (State.reset.ipc + 12#32).toNat % 4 = 0 ∧ (State.reset.ipc + 6#32).toNat % 4 ≠ 0 :=
  ⟨meets_sentinel (by decide), by decide, by decide, by decide⟩

/-- The target of R148's own example, 3 + 5, and that of V3's misaligned one, 6. -/
theorem witness_JalrCommits :
    Meets 0x005100E7#32 0x67#7 (some 0#3) none ∧ supports State.reset.params .jalr = true ∧
    8#32 = ((regs 0#32 3#32).readX 2 + 5#32) &&& 0xFFFFFFFE#32 ∧ (8#32).toNat % 4 = 0 ∧
    6#32 = ((regs 0#32 6#32).readX 2 + 0#32) &&& 0xFFFFFFFE#32 ∧ (6#32).toNat % 4 ≠ 0 :=
  ⟨meets_direct (by decide) (by decide), by decide, by decide, by decide, by decide, by decide⟩

/-! ## Witnesses: loads and stores -/

/-- The last aligned word of a memory of 64 bytes, 60; the first address out of bounds, 61, which is also
misaligned; the first aligned one out of bounds, 64; the last misaligned one within bounds, 59. -/
theorem witness_LoadsCommit :
    Meets 0xFFC0A183#32 0x03#7 (some 2#3) none ∧ Meets 0x00402107#32 0x07#7 (some 2#3) none ∧
    60#32 = (regs 64#32 0#32).readX 1 + 0xFFFFFFFC#32 ∧ AccessOk (regs 64#32 0#32) 60#32 ∧
    (regs 64#32 0#32).params.memCapacity < (61#32).toNat + 4 ∧
    (regs 64#32 0#32).params.memCapacity < (64#32).toNat + 4 ∧
    (59#32).toNat + 4 ≤ (regs 64#32 0#32).params.memCapacity ∧ (59#32).toNat % 4 ≠ 0 ∧
    supports (regs 64#32 0#32).params .lw = true :=
  ⟨meets_direct (by decide) (by decide), meets_direct (by decide) (by decide), by decide,
    ⟨by decide, by decide⟩, by decide, by decide, by decide, by decide, by decide⟩

theorem witness_StoresCommit :
    Meets 0xFE532E23#32 0x23#7 (some 2#3) none ∧ Meets 0x00402427#32 0x27#7 (some 2#3) none ∧
    (withBytes (regs 64#32 0#32)).mem.wf = true ∧
    60#32 = (withBytes (regs 64#32 0#32)).effectiveAddress 1 0xFFFFFFFC#32 ∧
    AccessOk (withBytes (regs 64#32 0#32)) 60#32 ∧
    (withBytes (regs 64#32 0#32)).params.memCapacity < (61#32).toNat + 4 ∧
    (59#32).toNat + 4 ≤ (withBytes (regs 64#32 0#32)).params.memCapacity ∧ (59#32).toNat % 4 ≠ 0 ∧
    supports (withBytes (regs 64#32 0#32)).params .sw = true :=
  ⟨meets_direct (by decide) (by decide), meets_direct (by decide) (by decide), by decide, by decide,
    ⟨by decide, by decide⟩, by decide, by decide, by decide, by decide⟩

/-- The state after `sw x1, 60(x0)` and the state after `lw x3, 60(x0)` then. -/
def stored : State := nextOr State.reset (exec (.sw 1 0 60#32) (regs 7#32 0#32))
def storedF : State := nextOr State.reset (exec (.fsw 2 0 60#32) (floats 7#32 0#32))

theorem witness_StoreThenLoadGivesWord :
    (regs 7#32 0#32).mem.wf = true ∧ (regs 7#32 0#32).readX 0 + 60#32 = stored.readX 0 + 60#32 ∧
    supports (regs 7#32 0#32).params .sw = true ∧ supports (regs 7#32 0#32).params .lw = true ∧
    (3 : Reg) ≠ 0 ∧ exec (.sw 1 0 60#32) (regs 7#32 0#32) = .next stored ∧
    exec (.lw 3 0 60#32) stored = .next (nextOr stored (exec (.lw 3 0 60#32) stored)) ∧
    (floats 7#32 0#32).mem.wf = true ∧
    (floats 7#32 0#32).readX 0 + 60#32 = storedF.readX 0 + 60#32 ∧
    exec (.fsw 2 0 60#32) (floats 7#32 0#32) = .next storedF ∧
    exec (.flw 3 0 60#32) storedF = .next (nextOr storedF (exec (.flw 3 0 60#32) storedF)) :=
  ⟨by decide, by decide, by decide, by decide, by decide, rfl, rfl, by decide, by decide, rfl, rfl⟩

/-! ## Witnesses: floating arithmetic -/

theorem witness_FloatArithmeticCommits :
    (7#3 ≠ 5#3 ∧ 7#3 ≠ 6#3) ∧ Meets 0x003170D3#32 0x53#7 (some 7#3) (some 0x00#7) ∧
    Meets 0x083170D3#32 0x53#7 (some 7#3) (some 0x04#7) ∧
    Meets 0x103170D3#32 0x53#7 (some 7#3) (some 0x08#7) ∧
    Meets 0x183170D3#32 0x53#7 (some 7#3) (some 0x0C#7) ∧
    State.reset.params.fpOps = .given 0 ∧ (floats 1#32 2#32).params.fpOps = .reference :=
  ⟨by decide, meets_nested (by decide) (by decide) (by decide),
    meets_nested (by decide) (by decide) (by decide), meets_nested (by decide) (by decide) (by decide),
    meets_nested (by decide) (by decide) (by decide), rfl, rfl⟩

/-- The record of a word, for the witnesses. -/
def recordOf (w : Word) : InFlight := ⟨0, 0#32, w, decode w, 0⟩

/-- Supported, unsupported, unrecognized; and a step that faults. -/
theorem witness_StallPerMnemonic :
    State.reset.commit (recordOf 0x00002087#32) =
      .next (nextOr State.reset (State.reset.commit (recordOf 0x00002087#32))) ∧
    (recordOf 0x00002087#32).dec.toInstr = some (.flw 1 0 0#32) ∧
    supports State.reset.params (Instr.flw 1 0 0#32).mnemonic = true ∧
    (recordOf 0x002091B3#32).dec.toInstr = some (.sll 3 1 2) ∧
    supports { resetParams with extSupported := [] } (Instr.sll 3 1 2).mnemonic = false ∧
    (recordOf 0x00000073#32).dec.toInstr = none ∧
    (looping State.reset).status = .running ∧
    step (looping State.reset) = .next ((looping State.reset).enterFault (.fetchOutOfStream 0#32)) :=
  ⟨rfl, by decide, by decide, by decide, by decide, by decide, rfl, rfl⟩

/-! ## Witnesses: the cycle -/

/-- A fault of the commit, a fault of the fetch after it, and neither. -/
theorem witness_StepCommitsDecodedInstruction :
    (atAddress State.reset 0#32 0x03E02183#32).status = .running ∧
    (decode 0x03E02183#32).toInstr = some (.lw 3 0 62#32) ∧
    exec (.lw 3 0 62#32) (atAddress State.reset 0#32 0x03E02183#32) = .fault (.bounds 62#32) ∧
    (decode 0x18000863#32).toInstr = some (.beq 0 0 400#32) ∧
    exec (.beq 0 0 400#32) (atAddress (looping State.reset) 0#32 0x18000863#32) =
      .next ((atAddress (looping State.reset) 0#32 0x18000863#32).redirect 400#32) ∧
    (((atAddress (looping State.reset) 0#32 0x18000863#32).redirect 400#32).retire
      (recordOf 0x18000863#32)).gatedSteps = .fault (.fetchOutOfStream 400#32) ∧
    exec (.beq 0 0 400#32) (atAddress State.reset 0#32 0x18000863#32) =
      .next ((atAddress State.reset 0#32 0x18000863#32).redirect 400#32) ∧
    (((atAddress State.reset 0#32 0x18000863#32).redirect 400#32).retire
      (recordOf 0x18000863#32)).gatedSteps =
      .next (nextOr State.reset (((atAddress State.reset 0#32 0x18000863#32).redirect 400#32).retire
        (recordOf 0x18000863#32)).gatedSteps) :=
  ⟨rfl, by decide, rfl, by decide, rfl, rfl, rfl, rfl⟩

/-- A launch of one `add`, Linear: the state in which the first word is fetched. -/
def launched : State := { State.reset with prog := [0x002081B3#32] }

theorem witness_ValidFetchAdvances :
    launched.status = .running ∧ launched.storeStep = .next launched ∧ launched.stall = 0 ∧
    launched.halt = false ∧ launched.pc.toNat % 4 = 0 ∧
    launched.prog[launched.pc.toNat / 4]? = some 0x002081B3#32 ∧
    launched.params.fetchMode = .linear ∧ (looping launched).params.fetchMode = .looping ∧
    (looping State.reset).storeStep = .next (looping State.reset) ∧
    ¬((looping State.reset).pc.toNat % 4 = 0 ∧
      (looping State.reset).pc.toNat / 4 < (looping State.reset).prog.length) :=
  ⟨rfl, rfl, rfl, rfl, rfl, rfl, rfl, rfl, rfl, by decide⟩

theorem witness_PlacedWordRunsNext :
    decodeInstr 0x002081B3#32 = some (.add 3 1 2) ∧ State.reset.pc.toNat % 4 = 0 ∧
    exec (.add 3 1 2) (State.reset.withFetchWord 32 (0x002081B3#32).toNat) =
      .next ((State.reset.withFetchWord 32 (0x002081B3#32).toNat).writeX 3 0#32) ∧
    State.reset.params.fetchMode = .linear ∧
    decodeInstr 0x03E02183#32 = some (.lw 3 0 62#32) ∧
    exec (.lw 3 0 62#32) (State.reset.withFetchWord 32 (0x03E02183#32).toNat) =
      .fault (.bounds 62#32) :=
  ⟨by decide, rfl, rfl, rfl, by decide, rfl⟩

/-- Both clauses at the boundary addresses 61 and 59. -/
theorem witness_FailedAccessEndsRun :
    (atAddress State.reset 0#32 0x03D02183#32).status = .running ∧
    (decode 0x03D02183#32).toInstr = some (.lw 3 0 61#32) ∧
    Instr.lw 3 0 61#32 ∈
      [.lw 3 0 61#32, .sw 3 0 61#32, .flw 3 0 61#32, .fsw 3 0 61#32] ∧
    supports State.reset.params (Instr.lw 3 0 61#32).mnemonic = true ∧
    61#32 = State.reset.readX 0 + 61#32 ∧
    State.reset.params.memCapacity < (61#32).toNat + 4 ∧
    (decode 0x03B02183#32).toInstr = some (.lw 3 0 59#32) ∧
    (59#32).toNat + 4 ≤ State.reset.params.memCapacity ∧ (59#32).toNat % 4 ≠ 0 := by decide

theorem witness_MisalignedTargetEndsRun :
    (atAddress State.reset 0#32 0x00000363#32).status = .running ∧
    (decode 0x00000363#32).toInstr = some (.beq 0 0 6#32) ∧
    TakesTransfer (.beq 0 0 6#32) (atAddress State.reset 0#32 0x00000363#32) 6#32 ∧
    (6#32).toNat % 4 ≠ 0 ∧ FallsThrough (.bne 0 0 6#32) State.reset :=
  ⟨rfl, by decide, ⟨by decide, by decide, by decide⟩, by decide, by decide, by decide⟩

/-- The clauses: an empty stream in Looping mode; a redirect to the first address past a stream of one
word; and a step in Linear mode. -/
theorem witness_FetchOutOfStreamEndsRun :
    (looping State.reset).status = .running ∧ (looping State.reset).params.fetchMode = .looping ∧
    (looping State.reset).storeStep = .next (looping State.reset) ∧
    (looping State.reset).halt = false ∧ (looping State.reset).stall = 0 ∧
    ¬((looping State.reset).pc.toNat % 4 = 0 ∧
      (looping State.reset).pc.toNat / 4 < (looping State.reset).prog.length) ∧
    (decode 0x00000263#32).toInstr = some (.beq 0 0 4#32) ∧
    TakesTransfer (.beq 0 0 4#32) (atAddress (looping launched) 0#32 0x00000263#32) 4#32 ∧
    (4#32).toNat % 4 = 0 ∧ (looping launched).prog.length ≤ (4#32).toNat / 4 ∧
    launched.params.fetchMode = .linear ∧ step launched = .next (nextOr launched (step launched)) :=
  ⟨rfl, rfl, rfl, rfl, rfl, by decide, by decide, ⟨by decide, by decide, by decide⟩, by decide,
    by decide, rfl, rfl⟩

/-- A fault of the commit, and one of the fetch after a commit that is thereby undone (V3). -/
theorem witness_FaultAbandonsCycle :
    step (atAddress State.reset 0#32 0x03E02183#32) =
      .next ((atAddress State.reset 0#32 0x03E02183#32).enterFault (.bounds 62#32)) ∧
    step (atAddress (looping State.reset) 0#32 0x18000863#32) =
      .next ((atAddress (looping State.reset) 0#32 0x18000863#32).enterFault
        (.fetchOutOfStream 400#32)) := ⟨rfl, rfl⟩

theorem witness_UnrecognizedCommitsAsNoOp :
    (atAddress State.reset 0#32 0x00000073#32).status = .running ∧
    (atAddress State.reset 0#32 0x00000073#32).slotE = some (recordOf 0x00000073#32) ∧
    (recordOf 0x00000073#32).dec.mnemonic = .unrecognized ∧
    (atAddress State.reset 0#32 0x00000073#32).params.fetchMode = .linear ∧
    (recordOf 0x002091B3#32).dec.toInstr = some (.sll 3 1 2) ∧
    supports { resetParams with extSupported := [] } (Instr.sll 3 1 2).mnemonic = false := by decide

theorem witness_RedirectFetchesTarget :
    (atAddress launched 0#32 0x00000063#32).status = .running ∧
    (decode 0x00000063#32).toInstr = some (.beq 0 0 0#32) ∧
    TakesTransfer (.beq 0 0 0#32) (atAddress launched 0#32 0x00000063#32) 0#32 ∧
    (0#32).toNat % 4 = 0 ∧ launched.prog[(0#32).toNat / 4]? = some 0x002081B3#32 ∧
    launched.halt = false ∧ launched.stall = 0 := by
  refine ⟨rfl, by decide, ⟨by decide, by decide, by decide⟩, by decide, by decide, rfl, rfl⟩

theorem witness_LoopingHaltDrains :
    (atAddress (looping launched) 0#32 0x00001463#32).status = .running ∧
    (decode 0x00001463#32).toInstr = some (.bne 0 0 8#32) ∧
    FallsThrough (.bne 0 0 8#32) (atAddress (looping launched) 0#32 0x00001463#32) ∧
    (looping launched).params.fetchMode = .looping ∧
    (nextOr launched (step (atAddress (looping launched) 0#32 0x00001463#32))).status = .running := by
  refine ⟨rfl, by decide, ⟨by decide, by decide⟩, rfl, by decide⟩

/-- A floating add in Execute, an `addi` in Decode (V5, vector T2). -/
def floatThenAddi : State :=
  { atAddress (floats 1#32 2#32) 0#32 0x003170D3#32 with
      prog := [0x003170D3#32, 0x00128293#32]
      pc := 8#32
      slotD := some ⟨1, 4#32, 0x00128293#32, decode 0x00128293#32, 0⟩ }

/-- A record in Decode and one in Fetch, none in Execute. -/
def twoMoving : State :=
  { State.reset with
      prog := [0x003170D3#32, 0x00128293#32]
      pc := 8#32
      slotD := some ⟨0, 0#32, 0x003170D3#32, decode 0x003170D3#32, 0⟩
      slotF := some ⟨1, 4#32, 0x00128293#32, decode 0x00128293#32, 0⟩ }

theorem notFaulted_of_running {t : State} (h : t.status = .running) : NotFaulted t := by
  intro f; rw [h]; exact fun k => nomatch k

/-- The stalled clause, and the other one with both slots moving. -/
theorem witness_StallGatesStages :
    floatThenAddi.status = .running ∧
    floatThenAddi.storeStep = .next (nextOr launched floatThenAddi.storeStep) ∧
    (nextOr launched floatThenAddi.storeStep).stall ≠ 0 ∧
    twoMoving.storeStep = .next twoMoving ∧ twoMoving.stall = 0 ∧
    step twoMoving = .next (nextOr launched (step twoMoving)) ∧
    NotFaulted (nextOr launched (step twoMoving)) ∧ twoMoving.slotD ≠ none ∧
    twoMoving.slotF ≠ none :=
  ⟨rfl, rfl, by decide, rfl, rfl, rfl, notFaulted_of_running (by decide), by decide, by decide⟩

/-- A completed cycle in which each of the four clauses has its case, held and moved. -/
theorem witness_NoStageIsSkipped :
    floatThenAddi.status = .running ∧ step floatThenAddi = .next (nextOr launched (step floatThenAddi)) ∧
    NotFaulted (nextOr launched (step floatThenAddi)) ∧
    (nextOr launched (step floatThenAddi)).slotD = floatThenAddi.slotD ∧
    NotFaulted (nextOr launched (step launched)) ∧
    (nextOr launched (step launched)).slotF ≠ none := by
  exact ⟨rfl, rfl, notFaulted_of_running (by decide), by decide, notFaulted_of_running (by decide),
    by decide⟩

theorem witness_LinearEndOfStream :
    State.reset.status = .running ∧ State.reset.params.fetchMode = .linear ∧
    State.reset.storeStep = .next State.reset ∧ State.reset.stall = 0 ∧ State.reset.halt = false ∧
    ¬(State.reset.pc.toNat % 4 = 0 ∧ State.reset.pc.toNat / 4 < State.reset.prog.length) := by
  refine ⟨rfl, rfl, rfl, rfl, rfl, by decide⟩

theorem witness_CycleBookkeeping :
    floatThenAddi.status = .running ∧
    floatThenAddi.storeStep = .next (nextOr launched floatThenAddi.storeStep) ∧
    step floatThenAddi = .next (nextOr launched (step floatThenAddi)) ∧
    (nextOr launched (step floatThenAddi)).status = .running ∧
    (nextOr launched (step State.reset)).status = .halted ∧
    (nextOr launched (step { launched with params := { resetParams with cycleLimit := 1 } })).status =
      .limitReached := by
  refine ⟨rfl, rfl, rfl, by decide, by decide, by decide⟩

theorem witness_EndedRunStays : { State.reset with status := .halted }.status ≠ .running := by decide

theorem witness_PcChangesByFetchOrRedirect :
    step launched = .next (nextOr launched (step launched)) ∧
    (nextOr launched (step launched)).pc ≠ launched.pc ∧
    (atAddress State.reset 8#32 0x00002197#32).slotE ≠ none ∧
    exec (.auipc 3 2#32) (atAddress State.reset 8#32 0x00002197#32) =
      .next ((atAddress State.reset 8#32 0x00002197#32).writeX 3 0x2008#32) :=
  ⟨rfl, by decide, by decide, rfl⟩

/-- The halt flag set in each mode. -/
theorem witness_HaltFlagSources :
    step State.reset = .next (nextOr launched (step State.reset)) ∧ State.reset.halt = false ∧
    (nextOr launched (step State.reset)).halt = true ∧
    step (atAddress (looping launched) 0#32 0x00001463#32) =
      .next (nextOr launched (step (atAddress (looping launched) 0#32 0x00001463#32))) ∧
    (nextOr launched (step (atAddress (looping launched) 0#32 0x00001463#32))).halt = true :=
  ⟨rfl, rfl, by decide, rfl, by decide⟩

theorem witness_OnlyCommitsChangeArchitecture :
    launched.slotE = none ∧ step launched = .next (nextOr launched (step launched)) ∧
    twoMoving.gatedSteps = .next (nextOr launched twoMoving.gatedSteps) ∧
    (looping launched).gatedSteps = .next (nextOr launched (looping launched).gatedSteps) ∧
    (looping launched).params.fetchMode = .looping := ⟨rfl, rfl, rfl, rfl, rfl⟩

theorem witness_StreamAndParametersFixed :
    step floatThenAddi = .next (nextOr launched (step floatThenAddi)) := rfl

/-! ## Witnesses: launch and the invariant -/

theorem witness_LaunchState :
    State.reset = State.launch resetParams [] (Vector.replicate 32 0#32) (Vector.replicate 32 0#32) [] ∧
    (5 : Reg) ≠ 0 ∧ [1#8, 2#8][1]? = some 2#8 := ⟨rfl, by decide, rfl⟩

theorem witness_ImageLoads :
    [1#8, 2#8, 3#8, 4#8, 5#8][0]? = some 1#8 ∧ [1#8, 2#8, 3#8, 4#8, 5#8][3]? = some 4#8 ∧
    (imageWords [1#8, 2#8, 3#8, 4#8]).IsChain (· ≠ ·) ∧ 0x13#32 ≠ 0x93#32 ∧
    launchOk { resetParams with memCapacity := 2 } (loadImage [1#8, 2#8, 3#8, 4#8]) [0#8, 0#8] = true := by
  refine ⟨rfl, rfl, ?_, by decide, by decide⟩
  simp [imageWords]

theorem witness_LaunchMeetsInv :
    launchOk { resetParams with memCapacity := 2 } [0x002081B3#32] [7#8, 0#8] = true := by decide

/-- The invariant in a state with a word placed in Execute, the slots behind it empty. -/
theorem inv_placed (s : State) (w : Word) (hx : s.x = State.reset.x) (hm : s.mem = [])
    (hp : s.prog = [w]) (he : s.slotE = some (recordOf w)) (hF : s.slotF = none) (hD : s.slotD = none)
    (hS : s.slotS = none) (hpc : s.pc = s.advance 0#32) (ha : s.pc.toNat % 4 = 0) (hst : s.stall = 0)
    (hh : s.halt = false) (ht : s.trace = []) (hu : s.unrec = []) (hr : s.status = .running)
    (hl : s.params.cycleLimit = 0) : Inv s where
  pcAligned := ha
  zeroCell := by rw [hx]; decide
  memCanonical := by rw [hm]; rfl
  memBelow := by rw [hm]; rfl
  slotsFromStream := by
    intro e h
    rw [hF, hD, he, hS] at h
    rcases h with h | h | h | h <;> cases h
    exact ⟨rfl, by rw [hp]; rfl, rfl⟩
  inFetchOrder := by
    simp only [State.uncommitted, he, hD, hF, Option.toList_some, Option.toList_none, List.append_nil,
      List.map_cons, List.map_nil, List.cons_append, List.nil_append]
    exact ⟨hpc, trivial⟩
  stallAtMostOne := by omega
  noStallAtCommit := fun _ => hst
  haltDrains := by simp [hh]
  linearHaltAtEnd := by simp [hh]
  traceOnce := by rw [ht]; exact List.Pairwise.nil
  traceInStream := by simp [ht]
  unrecInStream := by simp [hu]
  runningGoesOn := fun _ => ⟨by simp [hh], .inl hl⟩
  haltedDrained := by simp [hr]
  limitIsCycle := by simp [hr]

/-- `add x3, x1, x2`, `lw x3, 62(x0)` and `beq x0, x0, 400`, each placed. -/
def placedAdd : State := State.reset.withFetchWord 32 0x002081B3
def placedBadLoad : State := State.reset.withFetchWord 32 0x03E02183
def placedFarBranch : State := (looping State.reset).withFetchWord 32 0x18000863

theorem inv_placedAdd : Inv placedAdd :=
  inv_placed placedAdd 0x002081B3#32 rfl rfl rfl rfl rfl rfl rfl rfl rfl rfl rfl rfl rfl rfl rfl
theorem inv_placedBadLoad : Inv placedBadLoad :=
  inv_placed placedBadLoad 0x03E02183#32 rfl rfl rfl rfl rfl rfl rfl rfl rfl rfl rfl rfl rfl rfl rfl
theorem inv_placedFarBranch : Inv placedFarBranch :=
  inv_placed placedFarBranch 0x18000863#32 rfl rfl rfl rfl rfl rfl rfl rfl rfl rfl rfl rfl rfl rfl rfl

theorem witness_StepKeepsInv :
    Inv placedAdd ∧ step placedAdd = .next (nextOr placedAdd (step placedAdd)) := ⟨inv_placedAdd, rfl⟩

theorem witness_PcStaysAligned :
    launched.pc.toNat % 4 = 0 ∧ step launched = .next (nextOr launched (step launched)) := ⟨rfl, rfl⟩

/-- `sw x1, 60(x0)` in Execute, over a memory with bytes. -/
theorem witness_MemoryStaysCanonical :
    (atAddress (withBytes (regs 7#32 0#32)) 0#32 0x02102E23#32).mem.wf = true ∧
    (atAddress (withBytes (regs 7#32 0#32)) 0#32 0x02102E23#32).mem.below
      (atAddress (withBytes (regs 7#32 0#32)) 0#32 0x02102E23#32).params.memCapacity = true ∧
    step (atAddress (withBytes (regs 7#32 0#32)) 0#32 0x02102E23#32) =
      .next (nextOr launched (step (atAddress (withBytes (regs 7#32 0#32)) 0#32 0x02102E23#32))) :=
  ⟨by decide, by decide, rfl⟩

theorem witness_PipelineRefinesSequential :
    Inv placedAdd ∧ placedAdd.status = .running ∧
    step placedAdd = .next (nextOr placedAdd (step placedAdd)) ∧
    NotFaulted (nextOr placedAdd (step placedAdd)) ∧ placedAdd.slotE ≠ none := by
  exact ⟨inv_placedAdd, rfl, rfl, notFaulted_of_running (by decide), by decide⟩

/-- The fault of the instruction itself, and the fetch fault that undoes the instruction before it. -/
theorem witness_PipelineFaultsAsSequential :
    Inv placedBadLoad ∧ placedBadLoad.status = .running ∧
    step placedBadLoad = .next (placedBadLoad.enterFault (.bounds 62#32)) ∧
    (placedBadLoad.enterFault (.bounds 62#32)).status = .faulted (.bounds 62#32) ∧
    Inv placedFarBranch ∧ placedFarBranch.status = .running ∧
    step placedFarBranch = .next (placedFarBranch.enterFault (.fetchOutOfStream 400#32)) :=
  ⟨inv_placedBadLoad, rfl, rfl, rfl, inv_placedFarBranch, rfl, rfl⟩

/-- The empty stream's run in Linear mode: it is halted after its first cycle (V6). -/
theorem inv_halted : Inv { State.reset with halt := true, cycle := 1, status := .halted } where
  pcAligned := rfl
  zeroCell := by decide
  memCanonical := rfl
  memBelow := rfl
  slotsFromStream := by
    intro e h
    rcases h with h | h | h | h <;> cases h
  inFetchOrder := trivial
  stallAtMostOne := by decide
  noStallAtCommit := fun _ => rfl
  haltDrains := fun _ => ⟨rfl, rfl, rfl, rfl⟩
  linearHaltAtEnd := fun _ _ => rfl
  traceOnce := List.Pairwise.nil
  traceInStream := fun _ h => nomatch h
  unrecInStream := fun _ h => nomatch h
  runningGoesOn := fun h => nomatch h
  haltedDrained := fun _ => ⟨rfl, rfl⟩
  limitIsCycle := fun h => nomatch h

theorem witness_HaltedRunIsSequentialStop :
    Inv { State.reset with halt := true, cycle := 1, status := .halted } ∧
    { State.reset with halt := true, cycle := 1, status := .halted }.params.fetchMode = .linear :=
  ⟨inv_halted, rfl⟩

end Sys2Proof.Tests
end

/-! PROOF. The launch state meets the invariant of a run. -/

namespace Sys2Proof.Machine

/-- The bounds of R8, as statements about the launch inputs. -/
theorem launchOk_iff {p : Params} {prog : List Word} {initMem : List Byte} :
    launchOk p prog initMem = true ↔
      p.memCapacity ≤ 2 ^ 32 ∧ prog.length ≤ 2 ^ 30 ∧ initMem.length = p.memCapacity := by
  simp only [launchOk, Bool.and_eq_true, decide_eq_true_eq, and_assoc]

/-- Bytes listed from an address on stay within a capacity that has room for all of them. -/
theorem Memory.ofBytesAt_below {cap a : Nat} {bytes : List Byte} (h : a + bytes.length ≤ cap) :
    (Memory.ofBytesAt a bytes).below cap = true := by
  induction bytes generalizing a with
  | nil => rfl
  | cons b rest ih =>
    rw [List.length_cons] at h
    have hrest : (Memory.ofBytesAt (a + 1) rest).below cap = true := ih (by omega)
    exact Memory.all_cons (decide_eq_true (by omega)) hrest

/-- A launch meets the invariant as soon as `INIT_MEM` is no longer than the capacity: the pipeline is
empty and nothing is logged, so only the memory clauses say anything of the inputs. -/
theorem inv_launch {p : Params} {initMem : List Byte} (prog : List Word) (initX initF : Vector Word 32)
    (hmem : initMem.length ≤ p.memCapacity) : Inv (State.launch p prog initX initF initMem) where
  pcAligned := rfl
  zeroCell := setReg_get_same initX 0 0#32
  memCanonical := (Memory.ofBytesAt_wf 0 initMem).1
  memBelow := Memory.ofBytesAt_below (by rwa [Nat.zero_add])
  slotsFromStream := by
    intro e h
    rcases h with h | h | h | h <;> cases h
  inFetchOrder := trivial
  stallAtMostOne := Nat.zero_le 1
  noStallAtCommit := fun _ => rfl
  haltDrains := fun h => nomatch h
  linearHaltAtEnd := fun h => nomatch h
  traceOnce := List.Pairwise.nil
  traceInStream := fun _ h => nomatch h
  unrecInStream := fun _ h => nomatch h
  runningGoesOn := fun _ => ⟨(fun h => nomatch h.1), Nat.eq_zero_or_pos p.cycleLimit⟩
  haltedDrained := fun h => nomatch h
  limitIsCycle := fun h => nomatch h

/-- Settles O53: within R8's bounds `INIT_MEM` is exactly as long as the capacity. -/
theorem launchMeetsInv : Obligations.LaunchMeetsInv := by
  intro p prog initX initF initMem hok
  obtain ⟨-, -, hmem⟩ := launchOk_iff.1 hok
  exact inv_launch prog initX initF hmem.le

end Sys2Proof.Machine

/-! PROOF. What each part of a cycle changes: the frame of the gated steps (R42), what a step does to the
pc and the halt flag (R28, R34), register 0 (R21), and that no commit reads the pc (R28). -/

namespace Sys2Proof.Machine

/-! ## The frame of the Fetch, Decode and Execute steps (R42) -/

/-- From `s` to `t` only the pc, the Fetch, Decode and Execute slots, the halt flag and the trace change. -/
def ChangesFlowOnly (s t : State) : Prop :=
  t = { s with pc := t.pc, slotF := t.slotF, slotD := t.slotD, slotE := t.slotE, halt := t.halt,
               trace := t.trace }

variable {s t u : State}

theorem ChangesFlowOnly.refl (s : State) : ChangesFlowOnly s s := rfl

theorem ChangesFlowOnly.trans (hst : ChangesFlowOnly s t) (htu : ChangesFlowOnly t u) :
    ChangesFlowOnly s u := by
  unfold ChangesFlowOnly at *
  rw [hst] at htu
  exact htu

theorem ChangesFlowOnly.keeps (h : ChangesFlowOnly s t) :
    t.params = s.params ∧ t.prog = s.prog ∧ t.x = s.x ∧ t.f = s.f ∧ t.slotS = s.slotS ∧
      t.stall = s.stall ∧ t.cycle = s.cycle ∧ t.ticks = s.ticks ∧ t.mem = s.mem ∧
      t.unrec = s.unrec ∧ t.status = s.status := by
  unfold ChangesFlowOnly at h
  rw [h]
  exact ⟨rfl, rfl, rfl, rfl, rfl, rfl, rfl, rfl, rfl, rfl, rfl⟩

theorem State.executeStep_empty (hD : s.slotD = none) : s.executeStep = s := by
  simp only [State.executeStep, hD]

theorem State.executeStep_moves {d : InFlight} (hD : s.slotD = some d) :
    s.executeStep = State.logTrace
      { s with slotE := some { d with enter := s.cycle }, slotD := none } d.idx .execute := by
  simp only [State.executeStep, hD]

theorem State.decodeStep_empty (hF : s.slotF = none) : s.decodeStep = s := by
  simp only [State.decodeStep, hF]

theorem State.decodeStep_moves {i : InFlight} (hF : s.slotF = some i) :
    s.decodeStep = State.logTrace
      { s with slotD := some { i with enter := s.cycle }, slotF := none } i.idx .decode := by
  simp only [State.decodeStep, hF]

theorem State.executeStep_flowOnly (s : State) : ChangesFlowOnly s s.executeStep := by
  cases hD : s.slotD with
  | none => rw [State.executeStep_empty hD]; exact .refl s
  | some d => rw [State.executeStep_moves hD]; rfl

theorem State.decodeStep_flowOnly (s : State) : ChangesFlowOnly s s.decodeStep := by
  cases hF : s.slotF with
  | none => rw [State.decodeStep_empty hF]; exact .refl s
  | some i => rw [State.decodeStep_moves hF]; rfl

theorem State.fetchStep_flowOnly (h : s.fetchStep = .next t) : ChangesFlowOnly s t := by
  rcases State.fetchStep_next_cases h with
    ⟨-, rfl⟩ | ⟨-, w, -, rfl⟩ | ⟨-, -, -, ⟨-, -, rfl⟩ | ⟨-, rfl⟩⟩ <;> rfl

/-- The gated steps do nothing in a stalled cycle, and are made in their order in any other (R209). -/
theorem State.gatedSteps_next_cases (h : s.gatedSteps = .next t) :
    (s.stall ≠ 0 ∧ t = s) ∨ (s.stall = 0 ∧ s.executeStep.decodeStep.fetchStep = .next t) := by
  by_cases hst : s.stall = 0
  · rw [State.gatedSteps_open hst] at h
    exact .inr ⟨hst, h⟩
  · rw [State.gatedSteps_stalled hst] at h
    cases h
    exact .inl ⟨hst, rfl⟩

theorem State.gatedSteps_flowOnly (h : s.gatedSteps = .next t) : ChangesFlowOnly s t := by
  rcases State.gatedSteps_next_cases h with ⟨-, rfl⟩ | ⟨-, h⟩
  · exact .refl _
  · exact (s.executeStep_flowOnly.trans s.executeStep.decodeStep_flowOnly).trans
      (State.fetchStep_flowOnly h)

/-! ## The frame of the Store step (R204) -/

/-- What the Store step leaves unchanged whatever it commits; the Execute slot is empty after it. -/
theorem State.storeStep_keeps (h : s.storeStep = .next t) :
    t.params = s.params ∧ t.prog = s.prog ∧ t.slotE = none ∧ t.cycle = s.cycle ∧
      t.status = s.status := by
  rcases State.storeStep_next_cases h with ⟨hE, rfl⟩ | ⟨e, w, -, hc, rfl⟩
  · exact ⟨rfl, rfl, hE, rfl, rfl⟩
  · obtain ⟨hp, hg, -, -, hcy, -, hs⟩ := (State.commit_next_cases hc).keeps
    exact ⟨hp, hg, rfl, hcy, hs⟩

/-! ## The pc and the halt flag through a cycle (R28, R34) -/

theorem State.advance_congr (hp : t.params = s.params) (hg : t.prog = s.prog) (a : Word) :
    t.advance a = s.advance a := by
  simp only [State.advance, hp, hg]

theorem State.streamWord_congr (hg : t.prog = s.prog) (a : Word) :
    t.streamWord a = s.streamWord a := by
  simp only [State.streamWord, hg]

/-- The Store step keeps the pc and the halt flag, or makes the transfer of the committed instruction, or
is the halt of a branch not taken in Looping mode. -/
theorem State.storeStep_flow (h : s.storeStep = .next t) :
    (t.pc = s.pc ∧ t.halt = s.halt) ∨
    ∃ e i, s.slotE = some e ∧ e.dec.toInstr = some i ∧
      ((∃ a, TakesTransfer i s a ∧ t.pc = a ∧ t.halt = s.halt) ∨
       (s.params.fetchMode = .looping ∧ FallsThrough i s ∧ t.pc = s.pc ∧ t.halt = true)) := by
  rcases State.storeStep_next_cases h with ⟨-, rfl⟩ | ⟨e, w, hE, hc, rfl⟩
  · exact .inl ⟨rfl, rfl⟩
  · unfold State.commit at hc
    split at hc
    · rename_i i hi
      exact (exec_flow hc).imp_right fun moved => ⟨e, i, hE, hi, moved⟩
    · cases hc
      exact .inl ⟨rfl, rfl⟩

/-- The gated steps keep the halt flag and advance the pc at most once, or set the flag at the Linear
end of stream (R211 to R214). -/
theorem State.gatedSteps_flow (h : s.gatedSteps = .next t) :
    (t.halt = s.halt ∧ (t.pc = s.pc ∨ t.pc = s.advance s.pc)) ∨
    (t.halt = true ∧ t.pc = s.pc ∧ s.params.fetchMode = .linear ∧ s.streamWord s.pc = none) := by
  rcases State.gatedSteps_next_cases h with ⟨-, rfl⟩ | ⟨-, h⟩
  · exact .inl ⟨rfl, .inl rfl⟩
  obtain ⟨hp, hg, -, -, hpc, -, -, hh, -⟩ := s.moved_keeps
  rcases State.fetchStep_next_cases h with
    ⟨-, rfl⟩ | ⟨-, w, -, rfl⟩ | ⟨-, hnone, hmode, ⟨-, -, rfl⟩ | ⟨-, rfl⟩⟩
  · exact .inl ⟨hh, .inl hpc⟩
  · rw [State.fetchWord_pc, State.advance_congr hp hg, hpc]
    exact .inl ⟨hh, .inr rfl⟩
  · rw [State.streamWord_congr hg, hpc] at hnone
    exact .inr ⟨rfl, hpc, hp ▸ hmode, hnone⟩
  · exact .inl ⟨hh, .inl hpc⟩

/-- The Store step leaves an aligned pc: the old one, or a target that has passed its check (R151). -/
theorem State.storeStep_pc_aligned (ha : s.pc.toNat % 4 = 0) (h : s.storeStep = .next t) :
    t.pc.toNat % 4 = 0 := by
  rcases State.storeStep_next_cases h with ⟨-, rfl⟩ | ⟨e, w, -, hc, rfl⟩
  · exact ha
  · rcases (State.commit_next_cases hc).flow with ⟨hpc, -⟩ | ⟨htarget, -⟩ | ⟨-, hpc, -⟩
    · rwa [State.retire_pc, hpc]
    · exact htarget
    · rwa [State.retire_pc, hpc]

theorem State.gatedSteps_pc_aligned (ha : s.pc.toNat % 4 = 0) (h : s.gatedSteps = .next t) :
    t.pc.toNat % 4 = 0 := by
  rcases State.gatedSteps_flow h with ⟨-, hpc | hpc⟩ | ⟨-, hpc, -⟩ <;> rw [hpc]
  · exact ha
  · exact State.advance_aligned ha
  · exact ha

/-- Settles O55: a redirect's target has passed its check, and the fetch advance keeps alignment. -/
theorem pcStaysAligned : Obligations.PcStaysAligned := by
  intro s t ha h
  cases step_cases h with
  | ended | storeFault | fetchFault => exact ha
  | completed _ u v hu hv =>
    rw [State.finishCycle_pc]
    exact State.gatedSteps_pc_aligned (State.storeStep_pc_aligned ha hu) hv

/-- Settles O49: no commit changes them, and neither do the gated steps. -/
theorem streamAndParametersFixed : Obligations.StreamAndParametersFixed := by
  intro s t h
  cases step_cases h with
  | ended | storeFault | fetchFault => exact ⟨rfl, rfl⟩
  | completed _ u v hu hv =>
    obtain ⟨hp, hg, -⟩ := State.storeStep_keeps hu
    obtain ⟨hp', hg', -⟩ := (State.gatedSteps_flowOnly hv).keeps
    exact ⟨hg'.trans hg, hp'.trans hp⟩

/-- A step keeps the halt flag, or sets it for one of the two causes of R34. -/
theorem step_halt (h : step s = .next t) :
    t.halt = s.halt ∨
    (t.halt = true ∧
      ((s.params.fetchMode = .looping ∧
          ∃ e i, s.slotE = some e ∧ e.dec.toInstr = some i ∧ FallsThrough i s) ∨
       (s.params.fetchMode = .linear ∧ s.streamWord t.pc = none))) := by
  cases step_cases h with
  | ended | storeFault | fetchFault => exact .inl rfl
  | completed _ u v hu hv =>
    obtain ⟨hp, hg, -⟩ := State.storeStep_keeps hu
    rw [State.finishCycle_halt, State.finishCycle_pc]
    rcases State.gatedSteps_flow hv with ⟨hkept, -⟩ | ⟨hset, hpc, hmode, hnone⟩
    · rw [hkept]
      rcases State.storeStep_flow hu with ⟨-, hh⟩ | ⟨e, i, hE, hi, hmoved⟩
      · exact .inl hh
      · rcases hmoved with ⟨a, -, -, hh⟩ | ⟨hmode, hfall, -, hh⟩
        · exact .inl hh
        · exact .inr ⟨hh, .inl ⟨hmode, e, i, hE, hi, hfall⟩⟩
    · rw [← hpc, State.streamWord_congr hg] at hnone
      exact .inr ⟨hset, .inr ⟨hp ▸ hmode, hnone⟩⟩

/-- Settles O47, from the two causes of a change: each sets the flag. -/
theorem haltFlagSources : Obligations.HaltFlagSources := by
  refine ⟨rfl, fun s t h => ?_⟩
  rcases step_halt h with hkept | ⟨hset, hcause⟩
  · rw [hkept]
    exact ⟨id, fun hf ht => absurd (hf.symm.trans ht) Bool.false_ne_true⟩
  · exact ⟨fun _ => hset,
      fun _ _ => hcause.imp_right (And.imp_right State.streamWord_none_iff.1)⟩

/-- Settles O48: with nothing in Execute the Store step empties the Store slot only, and the gated steps
have the frame of R42. -/
theorem onlyCommitsChangeArchitecture : Obligations.OnlyCommitsChangeArchitecture := by
  refine ⟨fun s t hE h => ?_, fun u v h => ⟨State.gatedSteps_flowOnly h, fun hmode => ?_⟩⟩
  · cases step_cases h with
    | ended | storeFault | fetchFault => exact ⟨rfl, rfl, rfl, rfl, rfl⟩
    | completed _ u v hu hv =>
      rw [State.storeStep_empty hE] at hu
      cases hu
      obtain ⟨-, -, hx, hf, -, -, -, ht, hm, hn, -⟩ := (State.gatedSteps_flowOnly hv).keeps
      exact ⟨hx, hf, hm, ht, hn⟩
  · rcases State.gatedSteps_flow h with ⟨hh, -⟩ | ⟨-, -, hlinear, -⟩
    · exact hh
    · exact nomatch hmode.symm.trans hlinear

/-! ## Register 0 (R21) -/

/-- In Linear mode no gated step faults: the end of the stream is not a fetch out of it (R213). -/
theorem State.gatedSteps_linear (hmode : s.params.fetchMode = .linear) :
    ∃ t, s.gatedSteps = .next t := by
  cases hr : s.gatedSteps with
  | next t => exact ⟨t, rfl⟩
  | refused r => exact absurd hr State.gatedSteps_not_refused
  | fault f =>
    by_cases hst : s.stall = 0
    · rw [State.gatedSteps_open hst] at hr
      obtain ⟨-, -, hlooping, -⟩ := State.fetchStep_fault_cases hr
      obtain ⟨hp, -⟩ := s.moved_keeps
      rw [hp, hmode] at hlooping
      cases hlooping
    · rw [State.gatedSteps_stalled hst] at hr
      cases hr

/-- In Linear mode a commit that answers a next state completes its cycle, with the registers it
answers and its record in the Store slot (R204). -/
theorem step_linear_of_commit {e : InFlight} (hr : s.status = .running)
    (hmode : s.params.fetchMode = .linear) (hE : s.slotE = some e) (hc : s.commit e = .next t) :
    ∃ u, step s = .next u ∧ u.x = t.x ∧ u.slotS = some { e with enter := s.cycle } := by
  obtain ⟨hp, -, -, -, hcy, -⟩ := (State.commit_next_cases hc).keeps
  obtain ⟨v, hv⟩ := State.gatedSteps_linear (s := t.retire e) (hp ▸ hmode)
  obtain ⟨-, -, hx, -, hS, -⟩ := (State.gatedSteps_flowOnly hv).keeps
  exact ⟨_, step_completed hr (State.storeStep_next hE hc) hv, hx, hcy ▸ hS⟩

theorem State.readX_writeX_zero (s : State) (v : Word) (r : Reg) :
    (s.writeX 0 v).readX r = s.readX r := rfl

/-- Settles O19: a write to register 0 is no write, so a jump that links to it is its redirect alone, and
an `addi` to it completes its cycle as any commit does. -/
theorem registerZeroIsHardwired : Obligations.RegisterZeroIsHardwired := by
  refine ⟨State.readX_zero, State.readX_writeX_zero, fun s imm hsup ha => ?_,
    fun s e rs1 imm hr hE hdec hmode => ?_,
    fun p prog initX initF initMem => setReg_get_same initX 0 0#32⟩
  · have hexec : exec (.jal 0 imm) s = .next ((s.writeX 0 s.linkValue).redirect (s.ipc + imm)) :=
      (State.gated_supported hsup).trans (State.transfer_aligned ha)
    exact ⟨_, hexec, s.readX_writeX_zero s.linkValue, ⟨rfl, rfl, rfl, rfl⟩⟩
  · have hc : s.commit e = .next (s.writeX 0 (s.readX rs1 + imm)) := by
      simp only [State.commit, hdec]; rfl
    obtain ⟨u, hstep, hx, hS⟩ := step_linear_of_commit hr hmode hE hc
    refine ⟨u, hstep, fun r => ?_, hS⟩
    simp only [State.readX, hx, State.writeX_x, if_true]

/-! ## No commit reads the pc (R28) -/

/-- Where `r` answers a next state, `r'` answers that state but for its pc. -/
def AgreesButPc (r r' : Result) : Prop := ∀ t, r = .next t → ∃ pc, r' = .next { t with pc := pc }

theorem State.current_with_pc (hE : s.slotE ≠ none) (pc : Word) :
    { s with pc := pc }.current = s.current := by
  obtain ⟨e, he⟩ := Option.ne_none_iff_exists'.1 hE
  simp only [State.current, he]

theorem State.ipc_with_pc (hE : s.slotE ≠ none) (pc : Word) : { s with pc := pc }.ipc = s.ipc :=
  congrArg InFlight.ipc (State.current_with_pc hE pc)

theorem agreesButPc_next (t : State) (pc : Word) :
    AgreesButPc (.next t) (.next { t with pc := pc }) := by
  rintro _ ⟨⟩
  exact ⟨pc, rfl⟩

theorem agreesButPc_record (hE : s.slotE ≠ none) (pc : Word) :
    AgreesButPc (.next s.recordUnrecognized) (.next { s with pc := pc }.recordUnrecognized) := by
  have hrecord : { s with pc := pc }.recordUnrecognized = { s.recordUnrecognized with pc := pc } := by
    simp only [State.recordUnrecognized, State.current_with_pc hE]
  rw [hrecord]
  exact agreesButPc_next _ pc

theorem agreesButPc_gated (hE : s.slotE ≠ none) (pc : Word) {m : Mnemonic} {r r' : Result}
    (h : AgreesButPc r r') : AgreesButPc (s.gated m r) ({ s with pc := pc }.gated m r') := by
  unfold State.gated
  split
  · exact h
  · exact agreesButPc_record hE pc

theorem agreesButPc_transfer (s : State) (pc target : Word) {link link' : State → State}
    (h : (link' { s with pc := pc }).redirect target = (link s).redirect target) :
    AgreesButPc (s.transfer target link) ({ s with pc := pc }.transfer target link') := by
  unfold State.transfer
  split
  · rw [h]; exact agreesButPc_next _ target
  · exact fun t ht => nomatch ht

theorem agreesButPc_branch (s : State) (pc target : Word) (taken : Bool) :
    AgreesButPc (s.branch taken target) ({ s with pc := pc }.branch taken target) := by
  cases taken with
  | true => exact agreesButPc_transfer s pc target rfl
  | false =>
    unfold State.branch
    cases s.params.fetchMode with
    | looping => exact agreesButPc_next s.haltFlush pc
    | linear => exact agreesButPc_next s pc

theorem agreesButPc_memRead (s : State) (pc ea : Word) {use : Word → State → State}
    (h : ∀ v (t : State), use v { t with pc := pc } = { use v t with pc := pc }) :
    AgreesButPc (s.memRead ea use) ({ s with pc := pc }.memRead ea use) := by
  have hfault : { s with pc := pc }.accessFault ea = s.accessFault ea := rfl
  cases hf : s.accessFault ea with
  | none =>
    rw [State.memRead_ok hf, State.memRead_ok (hfault.trans hf)]
    have huse := h (s.mem.readWord ea.toNat) s.chargeRead
    exact huse ▸ agreesButPc_next _ pc
  | some f => rw [State.memRead_fault hf]; exact fun t ht => nomatch ht

theorem agreesButPc_memWrite (s : State) (pc ea v : Word) :
    AgreesButPc (s.memWrite ea v) ({ s with pc := pc }.memWrite ea v) := by
  have hfault : { s with pc := pc }.accessFault ea = s.accessFault ea := rfl
  cases hf : s.accessFault ea with
  | none =>
    rw [State.memWrite_ok hf, State.memWrite_ok (hfault.trans hf)]
    exact agreesButPc_next (s.storeWord ea v) pc
  | some f => rw [State.memWrite_fault hf]; exact fun t ht => nomatch ht

/-- With another pc a commit answers the same state but for the pc: an instruction's own address is
that of its record in Execute. -/
theorem exec_agreesButPc (hE : s.slotE ≠ none) (i : Instr) (pc : Word) :
    AgreesButPc (exec i s) (exec i { s with pc := pc }) := by
  have hipc := State.ipc_with_pc hE pc
  cases i
  case add | sub | addi | srli | srai => exact agreesButPc_next (s.writeX _ _) pc
  case auipc rd imm =>
    simp only [exec, execAuipc, hipc]
    exact agreesButPc_next (s.writeX _ _) pc
  case fadd | fsub | fmul | fdiv => exact agreesButPc_next ((s.writeF _ _).addStall 2) pc
  case beq | bne | blt | bge =>
    simp only [exec, execBeq, execBne, execBlt, execBge, State.relativeTarget, hipc]
    exact agreesButPc_branch s pc _ _
  case bltu | bgeu =>
    simp only [exec, execBltu, execBgeu, State.relativeTarget, hipc]
    exact agreesButPc_gated hE pc (agreesButPc_branch s pc _ _)
  case jal rd imm =>
    simp only [exec, execJal, State.relativeTarget, State.linkValue, hipc]
    exact agreesButPc_gated hE pc (agreesButPc_transfer s pc _ rfl)
  case jalr rd rs1 imm =>
    simp only [exec, execJalr, State.linkValue, hipc]
    exact agreesButPc_gated hE pc (agreesButPc_transfer s pc _ rfl)
  case lw => exact agreesButPc_gated hE pc (agreesButPc_memRead s pc _ fun _ _ => rfl)
  case flw rd rs1 imm =>
    exact agreesButPc_memRead s pc _ (use := fun v t => (t.writeF rd v).addStall 1) fun _ _ => rfl
  case sw => exact agreesButPc_gated hE pc (agreesButPc_memWrite s pc _ _)
  case fsw => exact agreesButPc_memWrite s pc _ _
  all_goals exact agreesButPc_gated hE pc (agreesButPc_next (s.writeX _ _) pc)

/-- Settles O46: the Store step makes the redirects, the Fetch step the advance, and no commit reads the
pc. -/
theorem pcChangesByFetchOrRedirect : Obligations.PcChangesByFetchOrRedirect := by
  refine ⟨fun s t h hne => ?_, fun i s t pc hE h => ?_⟩
  · cases step_cases h with
    | ended | storeFault | fetchFault => exact absurd rfl hne
    | completed _ u v hu hv =>
      obtain ⟨hp, hg, -⟩ := State.storeStep_keeps hu
      rw [State.finishCycle_pc] at hne ⊢
      have hfetch : v.pc = u.pc ∨ v.pc = s.advance u.pc := by
        rcases State.gatedSteps_flow hv with ⟨-, hpc | hpc⟩ | ⟨-, hpc, -⟩
        · exact .inl hpc
        · exact .inr (hpc.trans (State.advance_congr hp hg u.pc))
        · exact .inl hpc
      have kept (hpc : u.pc = s.pc) : v.pc = s.advance s.pc := by
        rw [hpc] at hfetch
        exact hfetch.resolve_left hne
      rcases State.storeStep_flow hu with ⟨hpc, -⟩ | ⟨e, i, hE, hi, hmoved⟩
      · exact .inl (kept hpc)
      · rcases hmoved with ⟨a, ha, rfl, -⟩ | ⟨-, -, hpc, -⟩
        · exact .inr ⟨e, i, _, hE, hi, ha, hfetch⟩
        · exact .inl (kept hpc)
  · obtain ⟨pc', hu⟩ := exec_agreesButPc hE i pc t h
    exact ⟨_, hu, rfl, rfl, rfl, rfl⟩

end Sys2Proof.Machine

/-! PROOF. Every step keeps the invariant of a run: a weaker invariant, which allows for the stall and
the events of the cycle being executed, holds between any two parts of a cycle. -/

namespace Sys2Proof.Machine

variable {s t : State}

/-! ## What a commit does to the parts the invariant speaks of -/

/-- A write to an integer register leaves the cell behind `x0` (R21). -/
theorem State.writeX_zeroCell (s : State) (r : Reg) (v : Word) :
    (s.writeX r v).x.get 0 = s.x.get 0 := by
  rw [State.writeX_x]
  split
  · rfl
  · rename_i hr
    exact setReg_get_other s.x v (Ne.symm hr)

theorem CommitCase.zeroCell (h : CommitCase s t) : t.x.get 0 = s.x.get 0 := by
  cases h with
  | wroteX rd v => exact s.writeX_zeroCell rd v
  | loadedX rd ea => exact s.chargeRead.writeX_zeroCell rd _
  | jumped rd => exact s.writeX_zeroCell rd _
  | _ => rfl

/-- No commit injects more than two stall cycles (R206). -/
theorem CommitCase.stall_le (h : CommitCase s t) : t.stall ≤ s.stall + 2 := by
  cases h with
  | wroteF => exact le_rfl
  | loadedF => exact Nat.le_succ _
  | _ => exact Nat.le_add_right _ 2

/-- A commit leaves the fetched records and the pc, or flushes the records. -/
theorem CommitCase.fetched_kept_or_flushed (h : CommitCase s t) :
    (t.pc = s.pc ∧ t.slotF = s.slotF ∧ t.slotD = s.slotD) ∨ (t.slotF = none ∧ t.slotD = none) := by
  rcases h.flow with ⟨hpc, -, hF, hD⟩ | ⟨-, -, hF, hD, -⟩ | ⟨-, -, -, hF, hD, -⟩
  · exact .inl ⟨hpc, hF, hD⟩
  · exact .inr ⟨hF, hD⟩
  · exact .inr ⟨hF, hD⟩

/-! ## What the clauses on the stream and the trace depend on -/

theorem FromStream.congr {e : InFlight} (h : FromStream s e) (hg : t.prog = s.prog) :
    FromStream t e := by
  unfold FromStream at *
  rwa [hg]

theorem FromStream.idx_lt {e : InFlight} (h : FromStream s e) : e.idx < s.prog.length := by
  obtain ⟨-, hword, -⟩ := h
  exact (List.getElem?_eq_some_iff.1 hword).1

theorem State.fetched_fromStream {w : Word} (h : s.streamWord s.pc = some w) :
    FromStream s (s.fetched w) := by
  obtain ⟨ha, hw⟩ := State.streamWord_some_iff.1 h
  exact ⟨(Nat.mul_div_cancel' (Nat.dvd_of_mod_eq_zero ha)).symm, hw, rfl⟩

theorem State.current_eq {e : InFlight} (hE : s.slotE = some e) : s.current = e := by
  simp only [State.current, hE]

theorem logEvent_inStream {trace : List TraceEvent} {n k c : Nat} {g : Stage}
    (h : ∀ ev ∈ trace, ev.idx < n ∧ ev.cycle ≤ c) (hk : k < n) :
    ∀ ev ∈ logEvent trace k g c, ev.idx < n ∧ ev.cycle ≤ c := by
  intro ev hev
  rcases mem_logEvent.1 hev with ⟨hold, -⟩ | rfl
  · exact h ev hold
  · exact ⟨hk, le_rfl⟩

/-! ## The invariant within a cycle -/

/-- What holds of a running state at the start of a cycle and after each of its parts: `Inv`, but that
up to two stall cycles may be pending and that events and observations may be of the present cycle. -/
structure CycleInv (s : State) : Prop where
  pcAligned : s.pc.toNat % 4 = 0
  zeroCell : s.x.get 0 = 0#32
  memCanonical : s.mem.wf = true
  memBelow : s.mem.below s.params.memCapacity = true
  slotsFromStream : ∀ e, s.slotF = some e ∨ s.slotD = some e ∨ s.slotE = some e ∨ s.slotS = some e →
    FromStream s e
  inFetchOrder : FetchOrder s (s.uncommitted.map InFlight.ipc ++ [s.pc])
  stallAtMostTwo : s.stall ≤ 2
  noStallAtCommit : s.slotE ≠ none → s.stall = 0
  haltDrains : s.halt = true → s.slotF = none ∧ s.slotD = none ∧ s.slotE = none ∧ s.stall = 0
  linearHaltAtEnd : s.halt = true → s.params.fetchMode = .linear → s.streamWord s.pc = none
  traceOnce : s.trace.Pairwise (fun a b => ¬(a.idx = b.idx ∧ a.stage = b.stage))
  traceInStream : ∀ ev ∈ s.trace, ev.idx < s.prog.length ∧ ev.cycle ≤ s.cycle
  unrecInStream : ∀ o ∈ s.unrec, s.prog[o.1]? = some o.2.1 ∧ o.2.2 ≤ s.cycle
  running : s.status = .running
  underLimit : s.params.cycleLimit = 0 ∨ s.cycle < s.params.cycleLimit

theorem CycleInv.of_inv (h : Inv s) (hr : s.status = .running) : CycleInv s :=
  { h with
    stallAtMostTwo := h.stallAtMostOne.trans one_le_two
    traceInStream := fun ev hev => (h.traceInStream ev hev).imp_right le_of_lt
    unrecInStream := fun o ho => (h.unrecInStream o ho).imp_right le_of_lt
    running := hr
    underLimit := (h.runningGoesOn hr).2 }

/-- The meaning of the status that the termination check gives (R217, R218): the limit was not reached
before this cycle, so the count meets it exactly. -/
theorem CycleInv.checkedStatus (h : CycleInv s) :
    (s.countCycle.checkedStatus = .running → ¬(s.halt = true ∧ s.drained = true) ∧
      (s.params.cycleLimit = 0 ∨ s.cycle + 1 < s.params.cycleLimit)) ∧
    (s.countCycle.checkedStatus = .halted → s.halt = true ∧ s.drained = true) ∧
    (s.countCycle.checkedStatus = .limitReached →
      0 < s.params.cycleLimit ∧ s.cycle + 1 = s.params.cycleLimit) := by
  have hunder := h.underLimit
  rcases State.checkedStatus_cases (s := s.countCycle) with
    ⟨hc, hdone⟩ | ⟨hc, -, hpos, hle⟩ | ⟨hc, hgoes, hbelow⟩
  · rw [hc]
    exact ⟨nofun, fun _ => hdone, nofun⟩
  · rw [State.countCycle_params] at hpos hle
    rw [State.countCycle_cycle] at hle
    rw [hc]
    exact ⟨nofun, nofun, fun _ => ⟨hpos, by omega⟩⟩
  · rw [State.countCycle_params, State.countCycle_cycle] at hbelow
    rw [hc, State.countCycle_status, h.running]
    exact ⟨fun _ => ⟨hgoes, by omega⟩, nofun, nofun⟩

/-- The end of a cycle: the stall decrement brings the stall back to at most 1, the cycle count takes the
cycle's events into the past, and the termination check gives each status its meaning. -/
theorem CycleInv.finishCycle (h : CycleInv s) : Inv s.finishCycle := by
  obtain ⟨hgoes, hhalted, hlimit⟩ := h.checkedStatus
  exact { h with
    inFetchOrder := h.inFetchOrder.congr rfl rfl
    stallAtMostOne := Nat.sub_le_of_le_add h.stallAtMostTwo
    noStallAtCommit := fun hE => by rw [State.finishCycle_stall, h.noStallAtCommit hE]
    haltDrains := fun hh => by
      obtain ⟨hF, hD, hE, hst⟩ := h.haltDrains hh
      exact ⟨hF, hD, hE, by rw [State.finishCycle_stall, hst]⟩
    traceInStream := fun ev hev => (h.traceInStream ev hev).imp_right Nat.lt_succ_of_le
    unrecInStream := fun o ho => (h.unrecInStream o ho).imp_right Nat.lt_succ_of_le
    runningGoesOn := hgoes
    haltedDrained := hhalted
    limitIsCycle := hlimit }

/-! ## The gated steps -/

/-- Logging an event of a stream entry in the present cycle. -/
theorem CycleInv.logTrace (h : CycleInv s) {k : Nat} (hk : k < s.prog.length) (g : Stage) :
    CycleInv (s.logTrace k g) :=
  { h with
    inFetchOrder := h.inFetchOrder.congr rfl rfl
    traceOnce := logEvent_pairwise h.traceOnce
    traceInStream := logEvent_inStream h.traceInStream hk }

theorem CycleInv.executeStep (h : CycleInv s) (hE : s.slotE = none) (hst : s.stall = 0) :
    CycleInv s.executeStep := by
  cases hD : s.slotD with
  | none => rw [State.executeStep_empty hD]; exact h
  | some d =>
    have hd : FromStream s d := h.slotsFromStream d (.inr (.inl hD))
    rw [State.executeStep_moves hD]
    refine CycleInv.logTrace (s := { s with slotE := _, slotD := none }) { h with
      slotsFromStream := ?_
      inFetchOrder := ?_
      noStallAtCommit := fun _ => hst
      haltDrains := fun hh => ?_ } hd.idx_lt .execute
    · rintro e (hF | ⟨⟨⟩⟩ | ⟨⟨⟩⟩ | hS)
      · exact h.slotsFromStream e (.inl hF)
      · exact hd
      · exact h.slotsFromStream e (.inr (.inr (.inr hS)))
    · refine FetchOrder.congr (s := s) ?_ rfl rfl
      simpa [State.uncommitted, hE, hD] using h.inFetchOrder
    · obtain ⟨-, hD', -⟩ := h.haltDrains hh
      exact nomatch hD.symm.trans hD'

theorem CycleInv.decodeStep (h : CycleInv s) (hD : s.slotD = none) : CycleInv s.decodeStep := by
  cases hF : s.slotF with
  | none => rw [State.decodeStep_empty hF]; exact h
  | some i =>
    have hi : FromStream s i := h.slotsFromStream i (.inl hF)
    rw [State.decodeStep_moves hF]
    refine CycleInv.logTrace (s := { s with slotD := _, slotF := none }) { h with
      slotsFromStream := ?_
      inFetchOrder := ?_
      haltDrains := fun hh => ?_ } hi.idx_lt .decode
    · rintro e (⟨⟨⟩⟩ | ⟨⟨⟩⟩ | hE | hS)
      · exact hi
      · exact h.slotsFromStream e (.inr (.inr (.inl hE)))
      · exact h.slotsFromStream e (.inr (.inr (.inr hS)))
    · refine FetchOrder.congr (s := s) ?_ rfl rfl
      simpa [State.uncommitted, hD, hF] using h.inFetchOrder
    · obtain ⟨hF', -⟩ := h.haltDrains hh
      exact nomatch hF.symm.trans hF'

theorem CycleInv.fetchWord (h : CycleInv s) (hF : s.slotF = none) (hh : s.halt = false) {w : Word}
    (hw : s.streamWord s.pc = some w) : CycleInv (s.fetchWord w) := by
  have hfetched := State.fetched_fromStream hw
  refine CycleInv.logTrace
    (s := { s with slotF := some (s.fetched w), pc := s.advance s.pc }) { h with
    pcAligned := State.advance_aligned h.pcAligned
    slotsFromStream := ?_
    inFetchOrder := ?_
    haltDrains := fun hh' => nomatch hh.symm.trans hh'
    linearHaltAtEnd := fun hh' => nomatch hh.symm.trans hh' } hfetched.idx_lt .fetch
  · rintro e (⟨⟨⟩⟩ | hold)
    · exact hfetched
    · exact h.slotsFromStream e (.inr hold)
  · refine FetchOrder.congr (s := s) ?_ rfl rfl
    simpa [State.uncommitted, hF, State.fetched] using h.inFetchOrder.snoc

theorem CycleInv.fetchStep (h : CycleInv s) (hF : s.slotF = none) (hst : s.stall = 0)
    (hs : s.fetchStep = .next t) : CycleInv t := by
  rcases State.fetchStep_next_cases hs with
    ⟨-, rfl⟩ | ⟨hh, w, hw, rfl⟩ | ⟨-, hnone, -, ⟨hD, hE, rfl⟩ | ⟨-, rfl⟩⟩
  · exact h
  · exact h.fetchWord hF hh hw
  · exact { h with
      inFetchOrder := h.inFetchOrder.congr rfl rfl
      haltDrains := fun _ => ⟨hF, hD, hE, hst⟩
      linearHaltAtEnd := fun _ _ => hnone }
  · exact h

theorem State.executeStep_slotD (s : State) : s.executeStep.slotD = none := by
  cases hD : s.slotD with
  | none => rw [State.executeStep_empty hD, hD]
  | some d => rw [State.executeStep_moves hD]; rfl

theorem CycleInv.gatedSteps (h : CycleInv s) (hE : s.slotE = none) (hs : s.gatedSteps = .next t) :
    CycleInv t := by
  rcases State.gatedSteps_next_cases hs with ⟨-, rfl⟩ | ⟨hst, hs⟩
  · exact h
  · have hmoved := (h.executeStep hE hst).decodeStep s.executeStep_slotD
    obtain ⟨-, -, hF⟩ := State.moved_slots hE
    obtain ⟨-, -, -, -, -, -, hst', -⟩ := s.moved_keeps
    exact hmoved.fetchStep hF (hst'.trans hst) hs

/-! ## The Store step -/

theorem CycleInv.stall_eq_zero {e : InFlight} (h : CycleInv s) (hE : s.slotE = some e) :
    s.stall = 0 :=
  h.noStallAtCommit (by rw [hE]; exact Option.some_ne_none e)

/-- The record that commits leaves the order of the fetch at its old end; a redirect or a halt flushes
the rest. -/
theorem CycleInv.commit_order {e : InFlight} (h : CycleInv s) (hE : s.slotE = some e)
    (hc : CommitCase s t) :
    FetchOrder s ((t.retire e).uncommitted.map InFlight.ipc ++ [(t.retire e).pc]) := by
  simp only [State.uncommitted, State.retire_slotE, State.retire_slotD, State.retire_slotF,
    State.retire_pc]
  rcases hc.fetched_kept_or_flushed with ⟨hpc, hF, hD⟩ | ⟨hF, hD⟩ <;> rw [hF, hD]
  · have horder := h.inFetchOrder
    simp only [State.uncommitted, hE] at horder
    rw [hpc]
    exact horder.tail
  · trivial

/-- The records in the slots after a commit were in the slots before it. -/
theorem CycleInv.commit_slots {e d : InFlight} (h : CycleInv s) (hE : s.slotE = some e)
    (hc : CommitCase s t)
    (hd : t.slotF = some d ∨ t.slotD = some d ∨ some { e with enter := t.cycle } = some d) :
    FromStream s d := by
  rcases hd with hd | hd | ⟨⟨⟩⟩
  · rcases hc.fetched_kept_or_flushed with ⟨-, hF, -⟩ | ⟨hF, -⟩ <;> rw [hF] at hd
    · exact h.slotsFromStream d (.inl hd)
    · cases hd
  · rcases hc.fetched_kept_or_flushed with ⟨-, -, hD⟩ | ⟨-, hD⟩ <;> rw [hD] at hd
    · exact h.slotsFromStream d (.inr (.inl hd))
    · cases hd
  · exact h.slotsFromStream e (.inr (.inr (.inl hE)))

/-- A commit sets the halt flag in Looping mode only, and then with the flush (R208). A state that is
halted already has nothing to commit. -/
theorem CycleInv.commit_halt {e : InFlight} (h : CycleInv s) (hE : s.slotE = some e)
    (hc : CommitCase s t) (hh : t.halt = true) :
    s.params.fetchMode = .looping ∧ t.slotF = none ∧ t.slotD = none ∧ t.stall = 0 := by
  have hrunning : s.halt ≠ true := fun hh' => by
    obtain ⟨-, -, hE', -⟩ := h.haltDrains hh'
    exact nomatch hE.symm.trans hE'
  rcases hc.flow with ⟨-, hh', -⟩ | ⟨-, hh', -⟩ | ⟨hmode, -, -, hF, hD, hst⟩
  · exact absurd (hh'.symm.trans hh) hrunning
  · exact absurd (hh'.symm.trans hh) hrunning
  · exact ⟨hmode, hF, hD, hst.trans (h.stall_eq_zero hE)⟩

theorem CycleInv.commit_unrec {e : InFlight} (h : CycleInv s) (hE : s.slotE = some e)
    (hc : CommitCase s t) : ∀ o ∈ t.unrec, s.prog[o.1]? = some o.2.1 ∧ o.2.2 ≤ s.cycle := by
  rcases hc.observes with hn | hn <;> rw [hn]
  · exact h.unrecInStream
  · intro o ho
    rcases List.mem_append.1 ho with hold | hnew
    · exact h.unrecInStream o hold
    · rw [List.mem_singleton.1 hnew, State.current_eq hE]
      obtain ⟨-, hword, -⟩ := h.slotsFromStream e (.inr (.inr (.inl hE)))
      exact ⟨hword, le_rfl⟩

/-- The Store step of a record that commits. -/
theorem CycleInv.commit {e : InFlight} (h : CycleInv s) (hE : s.slotE = some e)
    (hs : s.storeStep = .next (t.retire e)) (hc : CommitCase s t) : CycleInv (t.retire e) := by
  obtain ⟨hp, hg, -, -, hcy, htr, hrun⟩ := hc.keeps
  obtain ⟨hwf, hbelow⟩ := hc.memory_canonical h.memCanonical h.memBelow
  have hlt : e.idx < s.prog.length := (h.slotsFromStream e (.inr (.inr (.inl hE)))).idx_lt
  exact {
    pcAligned := State.storeStep_pc_aligned h.pcAligned hs
    zeroCell := hc.zeroCell.trans h.zeroCell
    memCanonical := hwf
    memBelow := by rw [State.retire_params, hp]; exact hbelow
    slotsFromStream := by
      rintro d (hd | hd | ⟨⟨⟩⟩ | hd)
      · exact (h.commit_slots hE hc (.inl hd)).congr hg
      · exact (h.commit_slots hE hc (.inr (.inl hd))).congr hg
      · exact (h.commit_slots hE hc (.inr (.inr hd))).congr hg
    inFetchOrder := (h.commit_order hE hc).congr hp hg
    stallAtMostTwo := hc.stall_le.trans (by rw [h.stall_eq_zero hE])
    noStallAtCommit := fun hE' => absurd rfl hE'
    haltDrains := fun hh => by
      obtain ⟨-, hF, hD, hst'⟩ := h.commit_halt hE hc hh
      exact ⟨hF, hD, rfl, hst'⟩
    linearHaltAtEnd := fun hh hmode => by
      obtain ⟨hlooping, -⟩ := h.commit_halt hE hc hh
      rw [State.retire_params, hp, hlooping] at hmode
      cases hmode
    traceOnce := logEvent_pairwise (htr ▸ h.traceOnce)
    traceInStream := by
      rw [State.retire_trace, State.retire_prog, State.retire_cycle, htr, hg, hcy]
      exact logEvent_inStream h.traceInStream hlt
    unrecInStream := by
      rw [State.retire_unrec, State.retire_prog, State.retire_cycle, hg, hcy]
      exact h.commit_unrec hE hc
    running := hrun.trans h.running
    underLimit := by rw [State.retire_params, State.retire_cycle, hp, hcy]; exact h.underLimit }

theorem CycleInv.storeStep (h : CycleInv s) (hs : s.storeStep = .next t) : CycleInv t := by
  rcases State.storeStep_next_cases hs with ⟨hE, rfl⟩ | ⟨e, w, hE, hc, rfl⟩
  · refine { h with slotsFromStream := ?_, inFetchOrder := h.inFetchOrder.congr rfl rfl }
    rintro e (hF | hD | hE | ⟨⟨⟩⟩)
    · exact h.slotsFromStream e (.inl hF)
    · exact h.slotsFromStream e (.inr (.inl hD))
    · exact h.slotsFromStream e (.inr (.inr (.inl hE)))
  · exact h.commit hE hs (State.commit_next_cases hc)

/-! ## The step -/

/-- A fault changes the status only, so that every clause is of the state before the cycle, and none is of
the status `faulted` (R186). -/
theorem Inv.enterFault (h : Inv s) (f : Fault) : Inv (s.enterFault f) :=
  { h with
    inFetchOrder := h.inFetchOrder.congr rfl rfl
    runningGoesOn := fun hr => nomatch hr
    haltedDrained := fun hr => nomatch hr
    limitIsCycle := fun hr => nomatch hr }

/-- Settles O54: the invariant within a cycle carries `Inv` from the start of the cycle to its end. -/
theorem stepKeepsInv : Obligations.StepKeepsInv := by
  intro s t h hs
  cases step_cases hs with
  | ended => exact h
  | storeFault _ f => exact h.enterFault f
  | fetchFault _ f => exact h.enterFault f
  | completed hr u v hu hv =>
    obtain ⟨-, -, hE, -⟩ := State.storeStep_keeps hu
    exact (((CycleInv.of_inv h hr).storeStep hu).gatedSteps hE hv).finishCycle

end Sys2Proof.Machine

/-! PROOF. Data memory: a load after a store to the same address (R65, R179), the words of an image and
the collapse of repeats (R61), and that every step keeps the canonical form (R50, R55). -/

namespace Sys2Proof.Machine

variable {s t : State}

/-! ## A word read back (R54, R55) -/

/-- The four bytes of a written word, put together again, are that word. -/
theorem Memory.readWord_writeWord_same {m : Memory} (hm : m.wf = true) (a : Nat) (v : Word) :
    (m.writeWord a v).readWord a = v := by
  obtain ⟨h0, h1, h2, h3⟩ := Memory.readByte_writeWord_inside hm a v
  rw [Memory.readWord, h0, h1, h2, h3,
    BitVec.extractLsb'_append_extractLsb'_eq_extractLsb' (by decide : 24 = 16 + 8),
    BitVec.extractLsb'_append_extractLsb'_eq_extractLsb' (by decide : 16 = 8 + 8),
    BitVec.extractLsb'_append_extractLsb'_eq_extractLsb' (by decide : 8 = 0 + 8)]
  exact BitVec.extractLsb'_eq_self

theorem State.memWrite_next {ea v : Word} (h : s.memWrite ea v = .next t) : t = s.storeWord ea v := by
  rcases State.memWrite_cases h with ⟨-, hr⟩ | ⟨f, -, hr⟩
  · cases hr; rfl
  · cases hr

theorem State.memRead_next {ea : Word} {use : Word → State → State} (h : s.memRead ea use = .next t) :
    t = use (s.mem.readWord ea.toNat) s.chargeRead := by
  rcases State.memRead_cases h with ⟨-, hr⟩ | ⟨f, -, hr⟩
  · cases hr; rfl
  · cases hr

/-! ## The accesses of the loads and stores (R162 to R165) -/

theorem exec_sw_supported {rs2 rs1 : Reg} {imm : Word} (h : supports s.params .sw = true) :
    exec (.sw rs2 rs1 imm) s = s.memWrite (s.effectiveAddress rs1 imm) (s.readX rs2) :=
  State.gated_supported h

theorem exec_lw_supported {rd rs1 : Reg} {imm : Word} (h : supports s.params .lw = true) :
    exec (.lw rd rs1 imm) s =
      s.memRead (s.effectiveAddress rs1 imm) (fun v u => u.writeX rd v) :=
  State.gated_supported h

theorem exec_fsw_eq (rs2 rs1 : Reg) (imm : Word) (s : State) :
    exec (.fsw rs2 rs1 imm) s = s.memWrite (s.effectiveAddress rs1 imm) (s.readF rs2) := rfl

theorem exec_flw_eq (rd rs1 : Reg) (imm : Word) (s : State) :
    exec (.flw rd rs1 imm) s =
      s.memRead (s.effectiveAddress rs1 imm) (fun v u => (u.writeF rd v).addStall 1) := rfl

/-- What a store leaves for a read at an equal address. -/
theorem State.memWrite_readWord {ea ea' v : Word} (hm : s.mem.wf = true)
    (h : s.memWrite ea v = .next t) (hea : ea = ea') : t.mem.readWord ea'.toNat = v := by
  rw [State.memWrite_next h, hea]
  exact Memory.readWord_writeWord_same hm _ v

/-- Settles O27: the load reads the word that the store left at the common address. -/
theorem storeThenLoadGivesWord : Obligations.StoreThenLoadGivesWord := by
  intro r a b rd i j s t u hm hea
  constructor
  · intro hsw hlw hrd hs hl
    have hparams : t.params = s.params := (exec_next_cases hs).keeps.1
    rw [exec_sw_supported hsw] at hs
    rw [exec_lw_supported (hparams ▸ hlw)] at hl
    rw [State.memRead_next hl, State.readX_writeX_same _ _ hrd]
    exact State.memWrite_readWord hm hs hea
  · intro hs hl
    rw [exec_fsw_eq] at hs
    rw [exec_flw_eq] at hl
    rw [State.memRead_next hl]
    calc (((t.chargeRead).writeF rd _).addStall 1).readF rd
        = t.mem.readWord (t.effectiveAddress b j).toNat := State.readF_writeF_same _ rd _
      _ = s.readF r := State.memWrite_readWord hm hs hea

/-! ## The words of an image (R61) -/

theorem imageWords_length : ∀ bytes : List Byte, (imageWords bytes).length = bytes.length / 4
  | [] | [_] | [_, _] | [_, _, _] => by simp [imageWords]
  | _ :: _ :: _ :: _ :: rest => by
    simp only [imageWords, List.length_cons, imageWords_length rest]
    omega

/-- Word `j` is made of the bytes `4j` to `4j + 3`, the first of them least significant. -/
theorem imageWords_getElem? {b0 b1 b2 b3 : Byte} : ∀ {bytes : List Byte} {j : Nat},
    bytes[4 * j]? = some b0 → bytes[4 * j + 1]? = some b1 → bytes[4 * j + 2]? = some b2 →
      bytes[4 * j + 3]? = some b3 → (imageWords bytes)[j]? = some (b3 ++ b2 ++ b1 ++ b0)
  | [], _, _, _, _, h3 | [_], _, _, _, _, h3 | [_, _], _, _, _, _, h3 | [_, _, _], _, _, _, _, h3 => by
    obtain ⟨hlt, -⟩ := List.getElem?_eq_some_iff.1 h3
    simp only [List.length_cons, List.length_nil] at hlt
    omega
  | _ :: _ :: _ :: _ :: _, 0, h0, h1, h2, h3 => by
    cases h0; cases h1; cases h2; cases h3
    rfl
  | _ :: _ :: _ :: _ :: rest, j + 1, h0, h1, h2, h3 =>
    imageWords_getElem? (bytes := rest) (j := j) h0 h1 h2 h3

/-! ## The collapse of repeats (R61) -/

theorem collapseRepeats_some_same (w : Word) (rest : List Word) :
    collapseRepeats (some w) (w :: rest) = collapseRepeats (some w) rest := if_pos rfl

theorem collapseRepeats_some_different {w v : Word} (h : w ≠ v) (rest : List Word) :
    collapseRepeats (some w) (v :: rest) = v :: collapseRepeats (some v) rest :=
  if_neg fun e => h (Option.some.inj e)

/-- After a kept word the collapse is Mathlib's removal of equal neighbours. -/
theorem cons_collapseRepeats (w : Word) (ws : List Word) :
    w :: collapseRepeats (some w) ws = ws.destutter' (· ≠ ·) w := by
  induction ws generalizing w with
  | nil => rfl
  | cons v rest ih =>
    by_cases h : w = v
    · subst h
      rw [collapseRepeats_some_same, List.destutter'_cons_neg _ (not_not_intro rfl), ih]
    · rw [collapseRepeats_some_different h, List.destutter'_cons_pos _ h, ih]

theorem collapseRepeats_none (ws : List Word) :
    collapseRepeats none ws = ws.destutter (· ≠ ·) := by
  cases ws with
  | nil => rfl
  | cons w rest => exact cons_collapseRepeats w rest

theorem collapseRepeats_none_same (w : Word) (rest : List Word) :
    collapseRepeats none (w :: w :: rest) = collapseRepeats none (w :: rest) :=
  congrArg (w :: ·) (collapseRepeats_some_same w rest)

theorem collapseRepeats_none_different {w v : Word} (h : w ≠ v) (rest : List Word) :
    collapseRepeats none (w :: v :: rest) = w :: collapseRepeats none (v :: rest) :=
  congrArg (w :: ·) (collapseRepeats_some_different h rest)

/-- Every word left out equals one that is kept. -/
theorem mem_collapseRepeats_none {w : Word} : ∀ {ws : List Word},
    w ∈ collapseRepeats none ws ↔ w ∈ ws
  | [] | [_] => Iff.rfl
  | v :: v' :: rest => by
    have ih := mem_collapseRepeats_none (w := w) (ws := v' :: rest)
    by_cases h : v = v'
    · subst h
      rw [collapseRepeats_none_same, ih]
      simp only [List.mem_cons, or_self_left]
    · rw [collapseRepeats_none_different h, List.mem_cons, ih, ← List.mem_cons]

theorem launchStream_ok {p : Params} {prog : List Word} {initX initF : Vector Word 32}
    {initMem : List Byte} (h : launchOk p prog initMem = true) :
    launchStream p prog initX initF initMem = .next (State.launch p prog initX initF initMem) :=
  if_pos h

/-- Settles O51: the words of an image by recursion on its groups, and their collapse as Mathlib's
`destutter`. -/
theorem imageLoads : Obligations.ImageLoads := by
  refine ⟨fun bytes j => ⟨imageWords_length bytes, fun _ _ _ _ => imageWords_getElem?⟩,
    ⟨rfl, fun _ => rfl, collapseRepeats_none_same, fun _ _ rest h =>
      collapseRepeats_none_different h rest, fun _ => rfl⟩,
    fun bytes => ⟨?_, fun _ => mem_collapseRepeats_none.symm, ?_, fun h => ?_⟩,
    fun _ _ _ _ => ⟨rfl, rfl, fun _ => launchStream_ok⟩⟩
  all_goals rw [loadImage, collapseRepeats_none]
  · exact List.destutter_sublist _ _
  · exact List.isChain_destutter _ _
  · exact List.destutter_of_isChain _ _ h

/-! ## The canonical form through a cycle (R50, R55) -/

/-- The Store step writes data memory by a commit only. -/
theorem State.storeStep_memory_canonical (hwf : s.mem.wf = true)
    (hbelow : s.mem.below s.params.memCapacity = true) (h : s.storeStep = .next t) :
    t.mem.wf = true ∧ t.mem.below s.params.memCapacity = true := by
  rcases State.storeStep_next_cases h with ⟨-, rfl⟩ | ⟨e, w, -, hc, rfl⟩
  · exact ⟨hwf, hbelow⟩
  · exact (State.commit_next_cases hc).memory_canonical hwf hbelow

/-- Settles O56: only a store's four bytes are written, after the bounds check, and the gated steps and
the end of a cycle leave memory alone. -/
theorem memoryStaysCanonical : Obligations.MemoryStaysCanonical := by
  intro s t hwf hbelow h
  obtain ⟨-, hparams⟩ := streamAndParametersFixed s t h
  rw [hparams]
  cases step_cases h with
  | ended | storeFault | fetchFault => exact ⟨hwf, hbelow⟩
  | completed _ u v hu hv =>
    obtain ⟨-, -, -, -, -, -, -, -, hmem, -⟩ := (State.gatedSteps_flowOnly hv).keeps
    rw [State.finishCycle_mem, hmem]
    exact State.storeStep_memory_canonical hwf hbelow hu

end Sys2Proof.Machine

/-! PROOF. The decoder: the record of a word, format by format (30_encoding.md R71 to R80). -/

namespace Sys2Proof.Machine

variable {w : Word}

/-! ## Fields and immediates as numbers -/

theorem opcodeOf_toNat (w : Word) : (opcodeOf w).toNat = w.toNat % 2 ^ 7 := by
  simp [opcodeOf, BitVec.extractLsb'_toNat]

theorem opcodeOf_eq_iff {op : BitVec 7} : opcodeOf w = op ↔ w.toNat % 128 = op.toNat := by
  rw [← BitVec.toNat_inj, opcodeOf_toNat, show (2 ^ 7 : Nat) = 128 from rfl]

/-- The bits of a concatenation as a number. -/
theorem toNat_append_add {m n : Nat} (x : BitVec m) (y : BitVec n) :
    (x ++ y).toNat = x.toNat * 2 ^ n + y.toNat := by
  rw [BitVec.toNat_append, ← Nat.shiftLeft_add_eq_or_of_lt y.isLt, Nat.shiftLeft_eq]

theorem toNat_extract (w : Word) (lo len : Nat) :
    (w.extractLsb' lo len).toNat = w.toNat / 2 ^ lo % 2 ^ len := by
  rw [BitVec.extractLsb'_toNat, Nat.shiftRight_eq_div_pow]

/-- The field that reaches the top of the word needs no reduction. -/
theorem toNat_extract_top (w : Word) {lo len : Nat} (h : lo + len = 32) :
    (w.extractLsb' lo len).toNat = w.toNat / 2 ^ lo := by
  rw [toNat_extract, Nat.mod_eq_of_lt]
  rw [Nat.div_lt_iff_lt_mul (by positivity), ← pow_add, Nat.add_comm, h]
  exact w.isLt

/-- The signed value of a sign-extended immediate, from its bits as a number (R76 to R80). -/
theorem toInt_signExtend_word {k : Nat} (hk : k + 1 ≤ 32) (b : BitVec (k + 1)) :
    (b.signExtend 32).toInt =
      if b.toNat < 2 ^ k then (b.toNat : Int) else (b.toNat : Int) - 2 ^ (k + 1) := by
  rw [BitVec.toInt_signExtend_of_le hk, BitVec.toInt_eq_toNat_cond]
  simp only [pow_succ, Nat.mul_comm 2, Nat.mul_lt_mul_right Nat.two_pos, Nat.cast_mul, Nat.cast_pow,
    Nat.cast_ofNat]

theorem iBits_toNat (w : Word) : (iBits w).toNat = w.toNat / 2 ^ 20 := toNat_extract_top w rfl

theorem sBits_toNat (w : Word) :
    (sBits w).toNat = w.toNat / 2 ^ 25 * 2 ^ 5 + w.toNat / 2 ^ 7 % 2 ^ 5 := by
  rw [sBits, toNat_append_add, toNat_extract_top w rfl, toNat_extract]

theorem bBits_toNat (w : Word) :
    (bBits w).toNat = w.toNat / 2 ^ 31 * 2 ^ 12 + w.toNat / 2 ^ 7 % 2 * 2 ^ 11 +
      w.toNat / 2 ^ 25 % 2 ^ 6 * 2 ^ 5 + w.toNat / 2 ^ 8 % 2 ^ 4 * 2 := by
  simp only [bBits_cast, BitVec.toNat_cast, toNat_append_add,
    toNat_extract_top w (show 31 + 1 = 32 from rfl), toNat_extract, BitVec.toNat_ofNat]
  omega

theorem uBits_toNat (w : Word) : (uBits w).toNat = w.toNat / 2 ^ 12 := toNat_extract_top w rfl

theorem jBits_toNat (w : Word) :
    (jBits w).toNat = w.toNat / 2 ^ 31 * 2 ^ 20 + w.toNat / 2 ^ 12 % 2 ^ 8 * 2 ^ 12 +
      w.toNat / 2 ^ 20 % 2 * 2 ^ 11 + w.toNat / 2 ^ 21 % 2 ^ 10 * 2 := by
  simp only [jBits_cast, BitVec.toNat_cast, toNat_append_add,
    toNat_extract_top w (show 31 + 1 = 32 from rfl), toNat_extract, BitVec.toNat_ofNat]
  omega

/-! ## The record of each format (R73, R74) -/

theorem decodeFields_format (w : Word) : (decodeFields w).format = formatOf (opcodeOf w) := by
  simp only [decodeFields]
  split <;> rfl

theorem decodeFields_opcode (w : Word) : (decodeFields w).opcode = opcodeOf w := by
  simp only [decodeFields]
  split <;> rfl

@[simp] theorem decode_format (w : Word) : (decode w).format = formatOf (opcodeOf w) :=
  decodeFields_format w

@[simp] theorem decode_opcode (w : Word) : (decode w).opcode = opcodeOf w := decodeFields_opcode w

theorem decode_of_R (h : formatOf (opcodeOf w) = some .R) :
    (decode w).rd = some (rdOf w) ∧ (decode w).funct3 = some (funct3Of w) ∧
    (decode w).rs1 = some (rs1Of w) ∧ (decode w).rs2 = some (rs2Of w) ∧
    (decode w).funct7 = some (funct7Of w) ∧ (decode w).imm = none := by
  simp [decode, decodeFields, h]

theorem decode_of_I (h : formatOf (opcodeOf w) = some .I) :
    (decode w).rd = some (rdOf w) ∧ (decode w).funct3 = some (funct3Of w) ∧
    (decode w).rs1 = some (rs1Of w) ∧ (decode w).rs2 = none ∧ (decode w).imm = some (immI w) ∧
    (decode w).funct7 = if opcodeOf w = 0x13#7 ∧ (funct3Of w = 1#3 ∨ funct3Of w = 5#3)
      then some (funct7Of w) else none := by
  simp [decode, decodeFields, h]

theorem decode_of_S (h : formatOf (opcodeOf w) = some .S) :
    (decode w).rd = none ∧ (decode w).funct3 = some (funct3Of w) ∧
    (decode w).rs1 = some (rs1Of w) ∧ (decode w).rs2 = some (rs2Of w) ∧
    (decode w).funct7 = none ∧ (decode w).imm = some (immS w) := by
  simp [decode, decodeFields, h]

theorem decode_of_B (h : formatOf (opcodeOf w) = some .B) :
    (decode w).rd = none ∧ (decode w).funct3 = some (funct3Of w) ∧
    (decode w).rs1 = some (rs1Of w) ∧ (decode w).rs2 = some (rs2Of w) ∧
    (decode w).funct7 = none ∧ (decode w).imm = some (immB w) := by
  simp [decode, decodeFields, h]

theorem decode_of_U (h : formatOf (opcodeOf w) = some .U) :
    (decode w).rd = some (rdOf w) ∧ (decode w).funct3 = none ∧ (decode w).rs1 = none ∧
    (decode w).rs2 = none ∧ (decode w).funct7 = none ∧ (decode w).imm = some (immU w) := by
  simp [decode, decodeFields, h]

theorem decode_of_J (h : formatOf (opcodeOf w) = some .J) :
    (decode w).rd = some (rdOf w) ∧ (decode w).funct3 = none ∧ (decode w).rs1 = none ∧
    (decode w).rs2 = none ∧ (decode w).funct7 = none ∧ (decode w).imm = some (immJ w) := by
  simp [decode, decodeFields, h]

theorem decode_of_no_format (h : formatOf (opcodeOf w) = none) :
    (decode w).rd = none ∧ (decode w).funct3 = none ∧ (decode w).rs1 = none ∧
    (decode w).rs2 = none ∧ (decode w).funct7 = none ∧ (decode w).imm = none ∧
    (decode w).mnemonic = .unrecognized := by
  simp [decode, decodeFields, h, lookupMnemonic]

/-- Every field that a record has is the word's (R71). -/
theorem decode_fields_eq (w : Word) :
    (∀ b, (decode w).rd = some b → b = rdOf w) ∧
    (∀ b, (decode w).funct3 = some b → b = funct3Of w) ∧
    (∀ b, (decode w).rs1 = some b → b = rs1Of w) ∧
    (∀ b, (decode w).rs2 = some b → b = rs2Of w) ∧
    (∀ b, (decode w).funct7 = some b → b = funct7Of w) := by
  rcases h : formatOf (opcodeOf w) with _ | _ | _ | _ | _ | _ | _
  · simp [decode_of_no_format h]
  · simp [decode_of_R h]
  · simp +contextual [decode_of_I h]
  · simp [decode_of_S h]
  · simp [decode_of_B h]
  · simp [decode_of_U h]
  · simp [decode_of_J h]

/-- Settles O1: each field is one extraction of bits, as a number a quotient and a remainder. -/
theorem fieldsAtFixedPositions : Obligations.FieldsAtFixedPositions := by
  intro w
  obtain ⟨hrd, hf3, hrs1, hrs2, hf7⟩ := decode_fields_eq w
  refine ⟨by rw [decode_opcode, opcodeOf_toNat], fun b h => ?_, fun b h => ?_, fun b h => ?_,
    fun b h => ?_, fun b h => ?_⟩
  · rw [hrd b h, rdOf, toNat_extract]
  · rw [hf3 b h, funct3Of, toNat_extract]
  · rw [hrs1 b h, rs1Of, toNat_extract]
  · rw [hrs2 b h, rs2Of, toNat_extract]
  · rw [hf7 b h, funct7Of, toNat_extract_top w rfl]

/-- The opcodes of each format, as numbers (R72). -/
theorem formatOf_ofNat :
    (∀ n ∈ [0x33, 0x53], formatOf (BitVec.ofNat 7 n) = some .R) ∧
    (∀ n ∈ [0x13, 0x03, 0x07, 0x67], formatOf (BitVec.ofNat 7 n) = some .I) ∧
    (∀ n ∈ [0x23, 0x27], formatOf (BitVec.ofNat 7 n) = some .S) ∧
    formatOf (BitVec.ofNat 7 0x63) = some .B ∧
    (∀ n ∈ [0x37, 0x17], formatOf (BitVec.ofNat 7 n) = some .U) ∧
    formatOf (BitVec.ofNat 7 0x6F) = some .J := by decide

/-- An opcode outside the map of R72 has no format. -/
theorem formatOf_eq_none {op : BitVec 7}
    (h : op.toNat ∉ [0x33, 0x53, 0x13, 0x03, 0x07, 0x67, 0x23, 0x27, 0x63, 0x37, 0x17, 0x6F]) :
    formatOf op = none := by
  have listed : ∀ p ∈ formatMap, p.1.toNat ∈
      [0x33, 0x53, 0x13, 0x03, 0x07, 0x67, 0x23, 0x27, 0x63, 0x37, 0x17, 0x6F] := by decide
  exact List.lookup_eq_none_iff.2 fun p hp => bne_iff_ne.2 fun e => h (e ▸ listed p hp)

/-- Settles O2: the format is the map's value at the opcode, whose number is `op`. -/
theorem formatFromLowSevenBits : Obligations.FormatFromLowSevenBits := by
  intro w op hop
  have hnum : (opcodeOf w).toNat = op := (opcodeOf_toNat w).trans hop.symm
  have hbits : opcodeOf w = BitVec.ofNat 7 op := by rw [← hnum, BitVec.ofNat_toNat, BitVec.setWidth_eq]
  obtain ⟨hR, hI, hS, hB, hU, hJ⟩ := formatOf_ofNat
  rw [decode_format]
  refine ⟨hbits ▸ hR op, hbits ▸ hI op, hbits ▸ hS op, fun h => hbits ▸ h ▸ hB, hbits ▸ hU op,
    fun h => hbits ▸ h ▸ hJ, fun h => ?_⟩
  have hnone : formatOf (opcodeOf w) = none := formatOf_eq_none (hnum.symm ▸ h)
  obtain ⟨-, -, -, -, -, -, hm⟩ := decode_of_no_format hnone
  exact ⟨hnone, hm⟩

/-- Settles O3: the record of each format, with the opcode 0x13 of R74 as a number. -/
theorem fieldsOfEachFormat : Obligations.FieldsOfEachFormat := by
  intro w
  rw [decode_format, ← show opcodeOf w = 0x13#7 ↔ w.toNat % 128 = 0x13 from opcodeOf_eq_iff]
  refine ⟨decode_opcode w, decode_of_R, fun h => ?_, fun h => ?_, fun h => ?_, fun h => ?_⟩
  · obtain ⟨hrd, hf3, hrs1, hrs2, himm, hf7⟩ := decode_of_I h
    exact ⟨hrd, hf3, hrs1, hrs2, by simp [himm], fun hc => hf7.trans (if_pos hc),
      fun hc => hf7.trans (if_neg hc)⟩
  · rcases h with h | h
    · simp [decode_of_S h]
    · simp [decode_of_B h]
  · rcases h with h | h
    · simp [decode_of_U h]
    · simp [decode_of_J h]
  · simp [decode_of_no_format h]

/-- Settles O4: each immediate is the sign extension of its assembled bits, whose number is `raw`. -/
theorem immediateValues : Obligations.ImmediateValues := by
  rintro w n rfl
  rw [decode_format]
  refine ⟨fun h => ?_, fun h => ?_, fun h => ?_, fun h => ?_, fun h => ?_⟩
  · obtain ⟨-, -, -, -, himm, -⟩ := decode_of_I h
    exact ⟨_, _, himm, iBits_toNat w, toInt_signExtend_word (by decide) (iBits w)⟩
  · obtain ⟨-, -, -, -, -, himm⟩ := decode_of_S h
    exact ⟨_, _, himm, sBits_toNat w, toInt_signExtend_word (by decide) (sBits w)⟩
  · obtain ⟨-, -, -, -, -, himm⟩ := decode_of_B h
    exact ⟨_, _, himm, bBits_toNat w, toInt_signExtend_word (by decide) (bBits w)⟩
  · obtain ⟨-, -, -, -, -, himm⟩ := decode_of_U h
    exact ⟨_, _, himm, uBits_toNat w, toInt_signExtend_word (by decide) (uBits w)⟩
  · obtain ⟨-, -, -, -, -, himm⟩ := decode_of_J h
    exact ⟨_, _, himm, jBits_toNat w, toInt_signExtend_word (by decide) (jBits w)⟩

/-- Settles O8: the decoder computes. -/
theorem sampleWordsDecode : Obligations.SampleWordsDecode := by
  unfold Obligations.SampleWordsDecode
  decide

/-- Settles O9: the rendering computes. -/
theorem sampleWordsRender : Obligations.SampleWordsRender := by
  unfold Obligations.SampleWordsRender
  decide

end Sys2Proof.Machine

/-! PROOF. The two-level lookup of R83 and the masks of the opcode table select the same mnemonic: both
are put as conditions on the opcode, funct3 and funct7 of a word, and compared entry by entry. -/

namespace Sys2Proof.Machine

variable {w : Word} {row : OpcodeRow} {op f7 : BitVec 7} {f3 : BitVec 3}

/-! ## The lookup as a function of opcode, funct3 and funct7 (R83) -/

/-- The entry that an opcode and its key select. -/
def tableEntry (op : BitVec 7) (f3 : BitVec 3) : Option TableEntry :=
  (mnemonicTable.lookup op).bind fun keys =>
    keys.lookup (if formatOf op = some .U ∨ formatOf op = some .J then none else some f3)

/-- The mnemonic of an entry. -/
def entryMnemonic (f7 : BitVec 7) : TableEntry → Mnemonic
  | .direct m => m
  | .nested byFunct7 => (byFunct7.lookup f7).getD .unrecognized

/-- Whether an entry consults funct7. -/
def entryReadsFunct7 : TableEntry → Bool
  | .direct _ => false
  | .nested _ => true

/-- The mnemonic of the table; `decode_mnemonic` ties it to the decoder. -/
def tableMnemonic (op : BitVec 7) (f3 : BitVec 3) (f7 : BitVec 7) : Mnemonic :=
  ((tableEntry op f3).map (entryMnemonic f7)).getD .unrecognized

theorem mem_of_lookup_eq_some {α β : Type} [BEq α] [LawfulBEq α] {l : List (α × β)} {k : α} {b : β}
    (h : l.lookup k = some b) : (k, b) ∈ l := by
  obtain ⟨l₁, l₂, rfl, -⟩ := List.lookup_eq_some_iff.1 h
  simp

/-- An entry found stands in the table, under the key asked for or the sentinel. -/
theorem mem_of_tableEntry {e : TableEntry} (h : tableEntry op f3 = some e) :
    ∃ p ∈ mnemonicTable, p.1 = op ∧ ∃ q ∈ p.2, (q.1 = none ∨ q.1 = some f3) ∧ q.2 = e := by
  obtain ⟨keys, hkeys, he⟩ := Option.bind_eq_some_iff.1 h
  refine ⟨_, mem_of_lookup_eq_some hkeys, rfl, _, mem_of_lookup_eq_some he, ?_, rfl⟩
  split
  · exact .inl rfl
  · exact .inr rfl

/-- Only words that have a funct7 reach a nested entry (R74, R84). -/
theorem hasFunct7_of_nested {byFunct7 : List (BitVec 7 × Mnemonic)}
    (h : tableEntry op f3 = some (.nested byFunct7)) :
    formatOf op = some .R ∨ op = 0x13#7 ∧ f3 = 5#3 := by
  have nested : ∀ p ∈ mnemonicTable, ∀ q ∈ p.2, entryReadsFunct7 q.2 = true →
      formatOf p.1 = some .R ∨ p.1 = 0x13#7 ∧ q.1 = some 5#3 := by decide
  obtain ⟨p, hp, rfl, q, hq, hkey, he⟩ := mem_of_tableEntry h
  rcases nested p hp q hq (he ▸ rfl) with hR | ⟨hop, h5⟩
  · exact .inl hR
  · refine .inr ⟨hop, ?_⟩
    rw [h5] at hkey
    simpa [eq_comm] using hkey

/-! ## The masks as conditions on opcode, funct3 and funct7 -/

/-- The row's mask covers bits 14:12. -/
def OpcodeRow.readsFunct3 (row : OpcodeRow) : Bool := row.mask &&& 0x7000#32 == 0x7000#32

/-- The row's mask covers bits 31:25. -/
def OpcodeRow.readsFunct7 (row : OpcodeRow) : Bool := row.mask &&& 0xFE000000#32 == 0xFE000000#32

/-- What a row asks of opcode and funct3, reserved rounding modes excluded (R89). -/
abbrev OpcodeRow.MatchesKey (row : OpcodeRow) (op : BitVec 7) (f3 : BitVec 3) : Prop :=
  op = opcodeOf row.pattern ∧ (row.readsFunct3 = true → f3 = funct3Of row.pattern) ∧
    (op = 0x53#7 → f3 ≠ 5#3 ∧ f3 ≠ 6#3)

/-- What a row asks of funct7. -/
abbrev OpcodeRow.MatchesFunct7 (row : OpcodeRow) (f7 : BitVec 7) : Prop :=
  row.readsFunct7 = true → f7 = funct7Of row.pattern

theorem and_or_eq_iff {a b v : Word} :
    w &&& (a ||| b) = v &&& (a ||| b) ↔ w &&& a = v &&& a ∧ w &&& b = v &&& b := by
  constructor
  · intro h
    have keep (u : Word) : u &&& a = u &&& (a ||| b) &&& a ∧ u &&& b = u &&& (a ||| b) &&& b := by
      constructor <;> ext i hi <;> simp <;> grind
    exact ⟨by rw [(keep w).1, h, ← (keep v).1], by rw [(keep w).2, h, ← (keep v).2]⟩
  · rintro ⟨ha, hb⟩
    rw [BitVec.and_or_distrib_left, BitVec.and_or_distrib_left, ha, hb]

/-- A mask of a run of ones compares the field at its place. -/
theorem and_mask_eq_iff {v mask : Word} {lo len : Nat}
    (hmask : ∀ i < 32, mask.getLsbD i = decide (lo ≤ i ∧ i < lo + len)) :
    w &&& mask = v &&& mask ↔ w.extractLsb' lo len = v.extractLsb' lo len := by
  constructor
  · intro h
    ext i hi
    have bit := congrArg (BitVec.getLsbD · (lo + i)) h
    by_cases hlo : lo + i < 32
    · simpa [hmask _ hlo, hi] using bit
    · simp [BitVec.getLsbD_of_ge _ _ (Nat.le_of_not_lt hlo)]
  · intro h
    refine BitVec.eq_of_getLsbD_eq fun i hi => ?_
    rw [BitVec.getLsbD_and, BitVec.getLsbD_and, hmask i hi]
    by_cases hin : lo ≤ i ∧ i < lo + len
    · have bit := congrArg (BitVec.getLsbD · (i - lo)) h
      simp only [BitVec.getLsbD_extractLsb', show i - lo < len by omega, decide_true,
        Bool.true_and, Nat.add_sub_cancel' hin.1] at bit
      rw [bit]
    · rw [decide_eq_false hin, Bool.and_false, Bool.and_false]

theorem and_opcode_eq_iff {v : Word} : w &&& 0x7F#32 = v &&& 0x7F#32 ↔ opcodeOf w = opcodeOf v :=
  and_mask_eq_iff (by decide)

theorem and_funct3_eq_iff {v : Word} :
    w &&& 0x7000#32 = v &&& 0x7000#32 ↔ funct3Of w = funct3Of v := and_mask_eq_iff (by decide)

theorem and_funct7_eq_iff {v : Word} :
    w &&& 0xFE000000#32 = v &&& 0xFE000000#32 ↔ funct7Of w = funct7Of v :=
  and_mask_eq_iff (by decide)

/-- A row's mask is made of the masks of the three fields, and its pattern is within the mask. -/
theorem mask_eq_fields : ∀ row ∈ opcodeRows,
    row.mask = 0x7F#32 ||| ((if row.readsFunct3 then 0x7000#32 else 0#32) |||
      (if row.readsFunct7 then 0xFE000000#32 else 0#32)) ∧
    row.pattern &&& row.mask = row.pattern := by decide

/-- The reserved rounding modes as values of funct3. -/
theorem and_funct3_ne_iff {k : BitVec 3} {v : Word} (hv : v &&& 0x7000#32 = v) (hk : funct3Of v = k) :
    w &&& 0x7000#32 ≠ v ↔ funct3Of w ≠ k := by
  rw [← hv, ne_eq, and_funct3_eq_iff, hk]

/-- A row of the table selects a word by its opcode, funct3 and funct7 alone. -/
theorem selects_iff (hrow : row ∈ opcodeRows) :
    row.selects w ↔ row.MatchesKey (opcodeOf w) (funct3Of w) ∧ row.MatchesFunct7 (funct7Of w) := by
  obtain ⟨hmask, hpat⟩ := mask_eq_fields row hrow
  have hopfp : row.pattern &&& 0x7F#32 = 0x53#32 ↔ opcodeOf row.pattern = 0x53#7 :=
    and_opcode_eq_iff (v := 0x53#32)
  have hfields : w &&& row.mask = row.pattern ↔ opcodeOf w = opcodeOf row.pattern ∧
      (row.readsFunct3 = true → funct3Of w = funct3Of row.pattern) ∧
      row.MatchesFunct7 (funct7Of w) := by
    conv_lhs => rhs; rw [← hpat]
    rw [hmask, and_or_eq_iff, and_or_eq_iff, and_opcode_eq_iff]
    refine and_congr_right' (and_congr ?_ ?_)
    · cases row.readsFunct3 <;> simp [and_funct3_eq_iff]
    · cases hf : row.readsFunct7 <;> simp [OpcodeRow.MatchesFunct7, hf, and_funct7_eq_iff]
  rw [OpcodeRow.selects, hfields, hopfp, and_funct3_ne_iff (k := 5#3) rfl rfl,
    and_funct3_ne_iff (k := 6#3) rfl rfl]
  constructor
  · rintro ⟨⟨hop, h3, h7⟩, hrm⟩
    exact ⟨⟨hop, h3, fun h => hrm (hop ▸ h)⟩, h7⟩
  · rintro ⟨⟨hop, h3, hrm⟩, h7⟩
    exact ⟨⟨hop, h3, h7⟩, fun h => hrm (hop.trans h)⟩

/-! ## The two tables entry by entry -/

/-- Each row finds its mnemonic in the table. -/
theorem tableMnemonic_of_row (hrow : row ∈ opcodeRows) (hkey : row.MatchesKey op f3)
    (h7 : row.MatchesFunct7 f7) : tableMnemonic op f3 f7 = row.mnemonic := by
  have nested : ∀ row ∈ opcodeRows, ∀ f3, row.MatchesKey (opcodeOf row.pattern) f3 →
      row.readsFunct7 = true →
      tableMnemonic (opcodeOf row.pattern) f3 (funct7Of row.pattern) = row.mnemonic := by decide
  have direct : ∀ row ∈ opcodeRows, ∀ f3, row.MatchesKey (opcodeOf row.pattern) f3 →
      row.readsFunct7 = false →
      tableEntry (opcodeOf row.pattern) f3 = some (.direct row.mnemonic) := by decide
  obtain rfl : op = opcodeOf row.pattern := hkey.left
  cases hf : row.readsFunct7
  · rw [tableMnemonic, direct row hrow f3 hkey hf]
    rfl
  · rw [h7 hf]
    exact nested row hrow f3 hkey hf

/-- Whether each mnemonic of an entry has a row that asks what the entry asks. -/
def entryHasRows (op : BitVec 7) (f3 : BitVec 3) : TableEntry → Bool
  | .direct m => opcodeRows.any fun row =>
      row.mnemonic = m ∧ row.MatchesKey op f3 ∧ row.readsFunct7 = false
  | .nested byFunct7 => byFunct7.all fun e => opcodeRows.any fun row =>
      row.mnemonic = e.2 ∧ row.MatchesKey op f3 ∧ e.1 = funct7Of row.pattern

theorem entryHasRows_of_tableEntry {e : TableEntry} (h : tableEntry op f3 = some e) :
    entryHasRows op f3 e = true := by
  have listed : ∀ p ∈ mnemonicTable, ∀ q ∈ p.2, ∀ f3 : BitVec 3, q.1 = none ∨ q.1 = some f3 →
      entryHasRows p.1 f3 q.2 = true := by decide
  obtain ⟨p, hp, rfl, q, hq, hkey, rfl⟩ := mem_of_tableEntry h
  exact listed p hp q hq f3 hkey

/-- Each mnemonic of the table has its row. -/
theorem row_of_tableMnemonic (h : tableMnemonic op f3 f7 ≠ .unrecognized) :
    ∃ row ∈ opcodeRows, row.mnemonic = tableMnemonic op f3 f7 ∧ row.MatchesKey op f3 ∧
      row.MatchesFunct7 f7 := by
  unfold tableMnemonic at h ⊢
  rcases he : tableEntry op f3 with _ | m | byFunct7
  · simp [he] at h
  · have hrows := entryHasRows_of_tableEntry he
    simp only [entryHasRows, List.any_eq_true, decide_eq_true_eq] at hrows
    obtain ⟨row, hrow, hm, hkey, hf⟩ := hrows
    exact ⟨row, hrow, hm, hkey, by simp [OpcodeRow.MatchesFunct7, hf]⟩
  · have hrows := entryHasRows_of_tableEntry he
    simp only [entryHasRows, List.any_eq_true, List.all_eq_true, decide_eq_true_eq] at hrows
    rcases hm : byFunct7.lookup f7 with _ | m
    · simp [he, entryMnemonic, hm] at h
    · obtain ⟨row, hrow, hrm, hkey, h7⟩ := hrows _ (mem_of_lookup_eq_some hm)
      exact ⟨row, hrow, by simp [entryMnemonic, hm, hrm], hkey, fun _ => h7⟩

/-! ## The mnemonic of a word -/

/-- A record with the fields that its format and entry consult has the table's mnemonic. -/
theorem lookupMnemonic_eq_table {d : DecodedInstruction} {fmt : Format} (hd : d.format = some fmt)
    (hfmt : formatOf d.opcode = some fmt)
    (h3 : ¬(fmt = .U ∨ fmt = .J) → d.funct3 = some f3)
    (h7 : ∀ byFunct7, tableEntry d.opcode f3 = some (.nested byFunct7) → d.funct7 = some f7) :
    lookupMnemonic d = tableMnemonic d.opcode f3 f7 := by
  have hkey : (if formatOf d.opcode = some .U ∨ formatOf d.opcode = some .J then none else some f3) =
      if fmt = .U ∨ fmt = .J then none else d.funct3 := by
    simp only [hfmt, Option.some.injEq]
    split
    · rfl
    · exact (h3 ‹_›).symm
  unfold tableEntry at h7
  unfold lookupMnemonic tableMnemonic tableEntry
  rw [hd, hkey]
  rcases hkeys : mnemonicTable.lookup d.opcode with _ | keys
  · simp
  · rcases he : keys.lookup (if fmt = .U ∨ fmt = .J then none else d.funct3) with _ | m | byFunct7
    · simp [he]
    · simp [he, entryMnemonic]
    · have hf7 := h7 byFunct7 (by rw [hkeys, hkey]; exact he)
      simp [he, hf7, entryMnemonic]

/-- An opcode without a format is not in the table. -/
theorem tableMnemonic_of_no_format (h : formatOf op = none) :
    tableMnemonic op f3 f7 = .unrecognized := by
  have known : ∀ row ∈ opcodeRows, formatOf (opcodeOf row.pattern) ≠ none := by decide
  by_contra hm
  obtain ⟨row, hrow, -, ⟨hop, -⟩, -⟩ := row_of_tableMnemonic hm
  exact known row hrow (hop ▸ h)

theorem decode_mnemonic (w : Word) :
    (decode w).mnemonic = tableMnemonic (opcodeOf w) (funct3Of w) (funct7Of w) := by
  rcases hfmt : formatOf (opcodeOf w) with _ | fmt
  · rw [tableMnemonic_of_no_format hfmt]
    simp [decode_of_no_format hfmt]
  · have hop := decodeFields_opcode w
    rw [← hop]
    refine lookupMnemonic_eq_table ((decodeFields_format w).trans hfmt) (hop ▸ hfmt) (fun h => ?_)
      fun byFunct7 h => ?_
    · show (decode w).funct3 = some (funct3Of w)
      cases fmt with
      | R => simp [decode_of_R hfmt]
      | I => simp [decode_of_I hfmt]
      | S => simp [decode_of_S hfmt]
      | B => simp [decode_of_B hfmt]
      | U | J => simp at h
    · show (decode w).funct7 = some (funct7Of w)
      rcases hasFunct7_of_nested (hop ▸ h) with hR | ⟨h13, h5⟩
      · simp [decode_of_R hR]
      · have hI : formatOf (opcodeOf w) = some .I := h13 ▸ rfl
        simp [decode_of_I hI, h13, h5]

/-- A recognized word is selected by the row of its mnemonic. -/
theorem row_of_decode (h : (decode w).mnemonic ≠ .unrecognized) :
    ∃ row ∈ opcodeRows, row.mnemonic = (decode w).mnemonic ∧ row.selects w := by
  rw [decode_mnemonic] at h ⊢
  obtain ⟨row, hrow, hm, hmatch⟩ := row_of_tableMnemonic h
  exact ⟨row, hrow, hm, (selects_iff hrow).2 hmatch⟩

/-- A row that selects a word gives its mnemonic. -/
theorem decode_mnemonic_of_selects (hrow : row ∈ opcodeRows) (h : row.selects w) :
    (decode w).mnemonic = row.mnemonic := by
  obtain ⟨hkey, h7⟩ := (selects_iff hrow).1 h
  rw [decode_mnemonic, tableMnemonic_of_row hrow hkey h7]

end Sys2Proof.Machine

/-! PROOF. The instruction that a word is read as, by its mnemonic; decode and encode agree. -/

namespace Sys2Proof.Machine

variable {w : Word} {m : Mnemonic}

/-! ## The row of a mnemonic -/

/-- The row of a mnemonic in the opcode table; the last argument stands for `unrecognized`, which has
none. -/
def rowOf (m : Mnemonic) : OpcodeRow :=
  (opcodeRows.find? fun row => row.mnemonic = m).getD ⟨.unrecognized, 0#32, 0#32⟩

theorem rowOf_mnemonic : ∀ row ∈ opcodeRows, rowOf row.mnemonic = row := by decide

theorem mnemonic_ne_unrecognized : ∀ row ∈ opcodeRows, row.mnemonic ≠ .unrecognized := by decide

/-- The fields of a recognized word are those of its mnemonic's row. -/
theorem rowOf_matches (hm : (decode w).mnemonic = m) (h : m ≠ .unrecognized) :
    (rowOf m).MatchesKey (opcodeOf w) (funct3Of w) ∧ (rowOf m).MatchesFunct7 (funct7Of w) := by
  subst hm
  obtain ⟨row, hrow, hm, hsel⟩ := row_of_decode h
  rw [← hm, rowOf_mnemonic row hrow]
  exact (selects_iff hrow).1 hsel

/-- The format of a recognized word is that of its mnemonic's opcode. -/
theorem formatOf_rowOf (hm : (decode w).mnemonic = m) (h : m ≠ .unrecognized) :
    formatOf (opcodeOf w) = formatOf (opcodeOf (rowOf m).pattern) := by
  obtain ⟨⟨hop, -⟩, -⟩ := rowOf_matches hm h
  rw [hop]

/-! ## The operands of each format -/

theorem withRdRs1Rs2_decode (h : formatOf (opcodeOf w) = some .R) (f : Reg → Reg → Reg → Instr) :
    withRdRs1Rs2 (decode w) f = some (f (rdReg w) (rs1Reg w) (rs2Reg w)) := by
  simp [withRdRs1Rs2, decode_of_R h, rdReg, rs1Reg, rs2Reg]

theorem withRdRs1Rs2Rm_decode (h : formatOf (opcodeOf w) = some .R)
    (f : Reg → Reg → Reg → BitVec 3 → Instr) :
    withRdRs1Rs2Rm (decode w) f = some (f (rdReg w) (rs1Reg w) (rs2Reg w) (funct3Of w)) := by
  simp [withRdRs1Rs2Rm, decode_of_R h, rdReg, rs1Reg, rs2Reg]

theorem withRdRs1Imm_decode (h : formatOf (opcodeOf w) = some .I) (f : Reg → Reg → Word → Instr) :
    withRdRs1Imm (decode w) f = some (f (rdReg w) (rs1Reg w) (immI w)) := by
  simp [withRdRs1Imm, decode_of_I h, rdReg, rs1Reg]

theorem withRs1Rs2Imm_decode_S (h : formatOf (opcodeOf w) = some .S) (f : Reg → Reg → Word → Instr) :
    withRs1Rs2Imm (decode w) f = some (f (rs1Reg w) (rs2Reg w) (immS w)) := by
  simp [withRs1Rs2Imm, decode_of_S h, rs1Reg, rs2Reg]

theorem withRs1Rs2Imm_decode_B (h : formatOf (opcodeOf w) = some .B) (f : Reg → Reg → Word → Instr) :
    withRs1Rs2Imm (decode w) f = some (f (rs1Reg w) (rs2Reg w) (immB w)) := by
  simp [withRs1Rs2Imm, decode_of_B h, rs1Reg, rs2Reg]

theorem withRdImm_decode_U (h : formatOf (opcodeOf w) = some .U) (f : Reg → Word → Instr) :
    withRdImm (decode w) f = some (f (rdReg w) (immU w)) := by
  simp [withRdImm, decode_of_U h, rdReg]

theorem withRdImm_decode_J (h : formatOf (opcodeOf w) = some .J) (f : Reg → Word → Instr) :
    withRdImm (decode w) f = some (f (rdReg w) (immJ w)) := by
  simp [withRdImm, decode_of_J h, rdReg]

/-- The instruction of a mnemonic with a word's operands; `decodeInstr_eq` ties it to the decoder. -/
def instrOf (m : Mnemonic) (w : Word) : Option Instr :=
  match m with
  | .add => some (.add (rdReg w) (rs1Reg w) (rs2Reg w))
  | .sub => some (.sub (rdReg w) (rs1Reg w) (rs2Reg w))
  | .sll => some (.sll (rdReg w) (rs1Reg w) (rs2Reg w))
  | .slt => some (.slt (rdReg w) (rs1Reg w) (rs2Reg w))
  | .sltu => some (.sltu (rdReg w) (rs1Reg w) (rs2Reg w))
  | .xor => some (.xor (rdReg w) (rs1Reg w) (rs2Reg w))
  | .srl => some (.srl (rdReg w) (rs1Reg w) (rs2Reg w))
  | .sra => some (.sra (rdReg w) (rs1Reg w) (rs2Reg w))
  | .or => some (.or (rdReg w) (rs1Reg w) (rs2Reg w))
  | .and => some (.and (rdReg w) (rs1Reg w) (rs2Reg w))
  | .addi => some (.addi (rdReg w) (rs1Reg w) (immI w))
  | .slti => some (.slti (rdReg w) (rs1Reg w) (immI w))
  | .sltiu => some (.sltiu (rdReg w) (rs1Reg w) (immI w))
  | .xori => some (.xori (rdReg w) (rs1Reg w) (immI w))
  | .ori => some (.ori (rdReg w) (rs1Reg w) (immI w))
  | .andi => some (.andi (rdReg w) (rs1Reg w) (immI w))
  | .slli => some (.slli (rdReg w) (rs1Reg w) (immI w))
  | .srli => some (.srli (rdReg w) (rs1Reg w) (immI w))
  | .srai => some (.srai (rdReg w) (rs1Reg w) (immI w))
  | .lui => some (.lui (rdReg w) (immU w))
  | .auipc => some (.auipc (rdReg w) (immU w))
  | .beq => some (.beq (rs1Reg w) (rs2Reg w) (immB w))
  | .bne => some (.bne (rs1Reg w) (rs2Reg w) (immB w))
  | .blt => some (.blt (rs1Reg w) (rs2Reg w) (immB w))
  | .bge => some (.bge (rs1Reg w) (rs2Reg w) (immB w))
  | .bltu => some (.bltu (rs1Reg w) (rs2Reg w) (immB w))
  | .bgeu => some (.bgeu (rs1Reg w) (rs2Reg w) (immB w))
  | .jal => some (.jal (rdReg w) (immJ w))
  | .jalr => some (.jalr (rdReg w) (rs1Reg w) (immI w))
  | .lw => some (.lw (rdReg w) (rs1Reg w) (immI w))
  | .sw => some (.sw (rs2Reg w) (rs1Reg w) (immS w))
  | .flw => some (.flw (rdReg w) (rs1Reg w) (immI w))
  | .fsw => some (.fsw (rs2Reg w) (rs1Reg w) (immS w))
  | .fadd => some (.fadd (rdReg w) (rs1Reg w) (rs2Reg w) (funct3Of w))
  | .fsub => some (.fsub (rdReg w) (rs1Reg w) (rs2Reg w) (funct3Of w))
  | .fmul => some (.fmul (rdReg w) (rs1Reg w) (rs2Reg w) (funct3Of w))
  | .fdiv => some (.fdiv (rdReg w) (rs1Reg w) (rs2Reg w) (funct3Of w))
  | .unrecognized => none

/-- The record of a word has the fields its mnemonic needs (log 11). -/
theorem decodeInstr_eq (w : Word) : decodeInstr w = instrOf (decode w).mnemonic w := by
  have hfmt := formatOf_rowOf (w := w) rfl
  unfold decodeInstr DecodedInstruction.toInstr
  generalize (decode w).mnemonic = m at hfmt ⊢
  cases m with
  | add | sub | sll | slt | sltu | xor | srl | sra | or | and =>
    exact withRdRs1Rs2_decode (hfmt (by decide)) _
  | addi | slti | sltiu | xori | ori | andi | slli | srli | srai | jalr | lw | flw =>
    exact withRdRs1Imm_decode (hfmt (by decide)) _
  | lui | auipc => exact withRdImm_decode_U (hfmt (by decide)) _
  | jal => exact withRdImm_decode_J (hfmt (by decide)) _
  | beq | bne | blt | bge | bltu | bgeu => exact withRs1Rs2Imm_decode_B (hfmt (by decide)) _
  | sw | fsw => exact withRs1Rs2Imm_decode_S (hfmt (by decide)) _
  | fadd | fsub | fmul | fdiv => exact withRdRs1Rs2Rm_decode (hfmt (by decide)) _
  | unrecognized => rfl

theorem instrOf_mnemonic (m : Mnemonic) (w : Word) :
    (instrOf m w).map Instr.mnemonic = if m = .unrecognized then none else some m := by
  cases m <;> rfl

/-- Settles O5: each entry of the lookup has its row and each row its entry, and the row of a mnemonic
is unique. -/
theorem lookupAgreesWithOpcodeTable : Obligations.LookupAgreesWithOpcodeTable := by
  intro w
  have hmap := instrOf_mnemonic (decode w).mnemonic w
  rw [← decodeInstr_eq] at hmap
  refine ⟨fun row hrow => ⟨fun h => ?_, decode_mnemonic_of_selects hrow⟩,
    ⟨fun h row hrow hsel => ?_, fun h => ?_⟩, ⟨fun h => ?_, fun h => ?_⟩, fun i h => ?_⟩
  · obtain ⟨row', hrow', hm, hsel⟩ := row_of_decode (h ▸ mnemonic_ne_unrecognized row hrow)
    rwa [← rowOf_mnemonic row hrow, ← h, ← hm, rowOf_mnemonic row' hrow']
  · exact mnemonic_ne_unrecognized row hrow ((decode_mnemonic_of_selects hrow hsel).symm.trans h)
  · by_contra hm
    obtain ⟨row, hrow, -, hsel⟩ := row_of_decode hm
    exact h row hrow hsel
  · simpa [h] using hmap
  · simpa [h] using hmap
  · rw [h, Option.map_some] at hmap
    split at hmap
    · cases hmap
    · exact Option.some.inj hmap

end Sys2Proof.Machine

/-! PROOF. Encode then decode, and decode then encode (30_encoding.md R71, R76 to R80, R84, R85). -/

namespace Sys2Proof.Machine

variable {w : Word} {op f7 : BitVec 7} {f3 : BitVec 3} {rd rs1 rs2 : Reg} {imm : Word}

/-! ## The decoder on an encoded word, format by format -/

/-- The decoder reads three fields to find the instruction. -/
theorem decodeInstr_of_fields (hop : opcodeOf w = op) (h3 : funct3Of w = f3) (h7 : funct7Of w = f7) :
    decodeInstr w = instrOf (tableMnemonic op f3 f7) w := by
  rw [decodeInstr_eq, decode_mnemonic, hop, h3, h7]

/-- The rounding mode of a floating instruction is its funct3 (R87). -/
theorem decodeInstr_encodeRm {m : Mnemonic} {f : Reg → Reg → Reg → BitVec 3 → Instr}
    (hm : tableMnemonic op f3 f7 = m)
    (h : ∀ w, instrOf m w = some (f (rdReg w) (rs1Reg w) (rs2Reg w) (funct3Of w))) :
    decodeInstr (encodeR f7 f3 op rd rs1 rs2) = some (f rd rs1 rs2 f3) := by
  obtain ⟨hop, hrd, h3, hrs1, hrs2, h7⟩ := encodeR_fields f7 f3 op rd rs1 rs2
  rw [decodeInstr_of_fields hop h3 h7, hm, h]
  simp only [rdReg, rs1Reg, rs2Reg, hrd, h3, hrs1, hrs2, regOf_regBits]

theorem decodeInstr_encodeR {f : Reg → Reg → Reg → Instr}
    (h : ∀ w, instrOf (tableMnemonic op f3 f7) w = some (f (rdReg w) (rs1Reg w) (rs2Reg w))) :
    decodeInstr (encodeR f7 f3 op rd rs1 rs2) = some (f rd rs1 rs2) :=
  decodeInstr_encodeRm (f := fun rd rs1 rs2 _ => f rd rs1 rs2) rfl h

theorem decodeInstr_encodeI {f : Reg → Reg → Word → Instr} (himm : imm12Ok imm)
    (h : ∀ w, instrOf (tableMnemonic op f3 (imm.extractLsb' 5 7)) w =
      some (f (rdReg w) (rs1Reg w) (immI w))) :
    decodeInstr (encodeI f3 op rd rs1 imm) = some (f rd rs1 imm) := by
  obtain ⟨hop, hrd, h3, hrs1, h7, hbits⟩ := encodeI_fields f3 op rd rs1 imm
  rw [decodeInstr_of_fields hop h3 h7, h]
  simp only [rdReg, rs1Reg, immI, hrd, hrs1, hbits, regOf_regBits, signExtend_imm12 himm]

theorem decodeInstr_encodeS {f : Reg → Reg → Word → Instr} (himm : imm12Ok imm)
    (h : ∀ f7 w, instrOf (tableMnemonic op f3 f7) w = some (f (rs1Reg w) (rs2Reg w) (immS w))) :
    decodeInstr (encodeS f3 op rs1 rs2 imm) = some (f rs1 rs2 imm) := by
  obtain ⟨hop, h3, hrs1, hrs2, hbits⟩ := encodeS_fields f3 op rs1 rs2 imm
  rw [decodeInstr_of_fields hop h3 rfl, h]
  simp only [rs1Reg, rs2Reg, immS, hrs1, hrs2, hbits, regOf_regBits, signExtend_imm12 himm]

theorem decodeInstr_encodeB {f : Reg → Reg → Word → Instr} (himm : imm13Ok imm)
    (h : ∀ f7 w, instrOf (tableMnemonic op f3 f7) w = some (f (rs1Reg w) (rs2Reg w) (immB w))) :
    decodeInstr (encodeB f3 op rs1 rs2 imm) = some (f rs1 rs2 imm) := by
  have ⟨_, _, heven⟩ := himm
  obtain ⟨hop, h3, hrs1, hrs2, hbits⟩ := encodeB_fields f3 op rs1 rs2 imm (low_bit_of_even heven)
  rw [decodeInstr_of_fields hop h3 rfl, h]
  simp only [rs1Reg, rs2Reg, immB, hrs1, hrs2, hbits, regOf_regBits, signExtend_imm13 himm]

theorem decodeInstr_encodeU {f : Reg → Word → Instr} (himm : imm20Ok imm)
    (h : ∀ f3 f7 w, instrOf (tableMnemonic op f3 f7) w = some (f (rdReg w) (immU w))) :
    decodeInstr (encodeU op rd imm) = some (f rd imm) := by
  obtain ⟨hop, hrd, hbits⟩ := encodeU_fields op rd imm
  rw [decodeInstr_of_fields hop rfl rfl, h]
  simp only [rdReg, immU, hrd, hbits, regOf_regBits, signExtend_imm20 himm]

theorem decodeInstr_encodeJ {f : Reg → Word → Instr} (himm : imm21Ok imm)
    (h : ∀ f3 f7 w, instrOf (tableMnemonic op f3 f7) w = some (f (rdReg w) (immJ w))) :
    decodeInstr (encodeJ op rd imm) = some (f rd imm) := by
  have ⟨_, _, heven⟩ := himm
  obtain ⟨hop, hrd, hbits⟩ := encodeJ_fields op rd imm (low_bit_of_even heven)
  rw [decodeInstr_of_fields hop rfl rfl, h]
  simp only [rdReg, immJ, hrd, hbits, regOf_regBits, signExtend_imm21 himm]

/-- The keys of opcode OP-FP are the rounding modes that are not reserved (R84, R89). -/
theorem tableMnemonic_opFp : ∀ rm : BitVec 3, rmOk rm →
    tableMnemonic 0x53#7 rm 0x00#7 = .fadd ∧ tableMnemonic 0x53#7 rm 0x04#7 = .fsub ∧
    tableMnemonic 0x53#7 rm 0x08#7 = .fmul ∧ tableMnemonic 0x53#7 rm 0x0C#7 = .fdiv := by decide

/-- Bits 11:5 of an immediate, which are the funct7 of the shifts' words. -/
theorem extract_funct7 (imm : Word) : imm.extractLsb' 5 7 = BitVec.ofNat 7 (imm.toNat / 32) := by
  rw [← BitVec.toNat_inj, toNat_extract, BitVec.toNat_ofNat]
  rfl

theorem imm12Ok_of_lt (h : imm.toNat < 2048) : imm12Ok imm := by
  rw [imm12Ok, BitVec.toInt_eq_toNat_of_lt (by omega)]
  omega

/-- Settles O6: the encoded word has the fields that the table asks of the mnemonic, and the operands
are read back from their places. -/
theorem decodeOfEncodeIsInstruction : Obligations.DecodeOfEncodeIsInstruction := by
  intro i hwf
  cases i with
  | add | sub | sll | slt | sltu | xor | srl | sra | or | and =>
    exact decodeInstr_encodeR fun _ => rfl
  | addi | slti | sltiu | xori | ori | andi | slli | jalr | lw | flw =>
    exact decodeInstr_encodeI (of_decide_eq_true hwf) fun _ => rfl
  | srli rd rs1 imm =>
    have hlt : imm.toNat < 32 := of_decide_eq_true hwf
    refine decodeInstr_encodeI (imm12Ok_of_lt (by omega)) fun _ => ?_
    rw [extract_funct7, show imm.toNat / 32 = 0 by omega]
    rfl
  | srai rd rs1 imm =>
    obtain ⟨hge, hlt⟩ : sraiOk imm := of_decide_eq_true hwf
    refine decodeInstr_encodeI (imm12Ok_of_lt (by omega)) fun _ => ?_
    rw [extract_funct7, show imm.toNat / 32 = 32 by omega]
    rfl
  | lui | auipc => exact decodeInstr_encodeU (of_decide_eq_true hwf) fun _ _ _ => rfl
  | beq | bne | blt | bge | bltu | bgeu =>
    exact decodeInstr_encodeB (of_decide_eq_true hwf) fun _ _ => rfl
  | jal => exact decodeInstr_encodeJ (of_decide_eq_true hwf) fun _ _ _ => rfl
  | sw =>
    exact decodeInstr_encodeS (f := fun rs1 rs2 => .sw rs2 rs1) (of_decide_eq_true hwf)
      fun _ _ => rfl
  | fsw =>
    exact decodeInstr_encodeS (f := fun rs1 rs2 => .fsw rs2 rs1) (of_decide_eq_true hwf)
      fun _ _ => rfl
  | fadd rd rs1 rs2 rm =>
    obtain ⟨hadd, -, -, -⟩ := tableMnemonic_opFp rm (of_decide_eq_true hwf)
    exact decodeInstr_encodeRm hadd fun _ => rfl
  | fsub rd rs1 rs2 rm =>
    obtain ⟨-, hsub, -, -⟩ := tableMnemonic_opFp rm (of_decide_eq_true hwf)
    exact decodeInstr_encodeRm hsub fun _ => rfl
  | fmul rd rs1 rs2 rm =>
    obtain ⟨-, -, hmul, -⟩ := tableMnemonic_opFp rm (of_decide_eq_true hwf)
    exact decodeInstr_encodeRm hmul fun _ => rfl
  | fdiv rd rs1 rs2 rm =>
    obtain ⟨-, -, -, hdiv⟩ := tableMnemonic_opFp rm (of_decide_eq_true hwf)
    exact decodeInstr_encodeRm hdiv fun _ => rfl

end Sys2Proof.Machine

/-! PROOF. Decode then encode: the fields and the immediate of a word give the word back. -/

namespace Sys2Proof.Machine

variable {w : Word} {op f7 : BitVec 7} {f3 : BitVec 3} {m : Mnemonic} {i : Instr}

/-! ## Decoded immediates are in range (R76 to R80) -/

theorem imm12Ok_signExtend (b : BitVec 12) : imm12Ok (b.signExtend 32) := by
  rw [imm12Ok, toInt_signExtend_word (by decide)]
  split <;> omega

theorem imm20Ok_immU (w : Word) : imm20Ok (immU w) := by
  rw [imm20Ok, immU, toInt_signExtend_word (by decide)]
  split <;> omega

theorem imm13Ok_immB (w : Word) : imm13Ok (immB w) := by
  have hbits := bBits_toNat w
  rw [imm13Ok, immB, toInt_signExtend_word (by decide)]
  split <;> omega

theorem imm21Ok_immJ (w : Word) : imm21Ok (immJ w) := by
  have hbits := jBits_toNat w
  rw [imm21Ok, immJ, toInt_signExtend_word (by decide)]
  split <;> omega

/-- An I-immediate with the sign bit clear is 32 times funct7 plus the shift amount (R94). -/
theorem immI_toNat (h : (funct7Of w).toNat < 64) :
    (immI w).toNat = (funct7Of w).toNat * 32 + w.toNat / 2 ^ 20 % 32 := by
  have hval : (immI w).toInt = _ := toInt_signExtend_word (k := 11) (by decide) (iBits w)
  have h7 : (funct7Of w).toNat = w.toNat / 2 ^ 25 := toNat_extract_top w rfl
  rw [iBits_toNat, BitVec.toInt_eq_toNat_cond] at hval
  split at hval <;> split at hval <;> omega

theorem srliOk_immI (h : funct7Of w = 0x00#7) : srliOk (immI w) := by
  have hnum : (funct7Of w).toNat = 0 := h ▸ rfl
  rw [srliOk, immI_toNat (by omega)]
  omega

theorem sraiOk_immI (h : funct7Of w = 0x20#7) : sraiOk (immI w) := by
  have hnum : (funct7Of w).toNat = 32 := h ▸ rfl
  rw [sraiOk, immI_toNat (by omega)]
  omega

/-! ## The encoders on the fields of a word (R71) -/

theorem encodeR_of_fields (hop : opcodeOf w = op) (h3 : funct3Of w = f3) (h7 : funct7Of w = f7) :
    encodeR f7 f3 op (rdReg w) (rs1Reg w) (rs2Reg w) = w := by
  subst hop h3 h7
  rw [encodeR_cast]
  ext i hi
  simp only [rdReg, rs1Reg, rs2Reg, regBits_regOf, opcodeOf, rdOf, funct3Of, rs1Of, rs2Of, funct7Of,
    BitVec.getElem_cast, BitVec.getElem_append, BitVec.getElem_extractLsb']
  grind

/-- The encoder without funct7, as the Direct entries of opcode OP are written (log 9). -/
theorem encodeR_zero_of_fields (hop : opcodeOf w = op) (h3 : funct3Of w = f3) :
    encodeR 0#7 f3 op (rdReg w) (rs1Reg w) (rs2Reg w) = w &&& 0x01FFFFFF#32 := by
  subst hop h3
  have mask : ∀ i, (hi : i < 32) → (0x01FFFFFF#32)[i] = decide (i < 25) := by decide
  rw [encodeR_cast]
  ext i hi
  simp only [rdReg, rs1Reg, rs2Reg, regBits_regOf, opcodeOf, rdOf, funct3Of, rs1Of, rs2Of,
    BitVec.getElem_cast, BitVec.getElem_append, BitVec.getElem_extractLsb', BitVec.getElem_and,
    BitVec.getElem_zero, mask i hi]
  grind

theorem encodeI_of_fields (hop : opcodeOf w = op) (h3 : funct3Of w = f3) :
    encodeI f3 op (rdReg w) (rs1Reg w) (immI w) = w := by
  subst hop h3
  rw [encodeI_cast]
  ext i hi
  simp only [rdReg, rs1Reg, regBits_regOf, opcodeOf, rdOf, funct3Of, rs1Of, immI, iBits,
    BitVec.getElem_cast, BitVec.getElem_append, BitVec.getElem_extractLsb', BitVec.getLsbD_signExtend]
  grind

theorem encodeS_of_fields (hop : opcodeOf w = op) (h3 : funct3Of w = f3) :
    encodeS f3 op (rs1Reg w) (rs2Reg w) (immS w) = w := by
  subst hop h3
  rw [encodeS_cast]
  ext i hi
  simp only [rs1Reg, rs2Reg, regBits_regOf, opcodeOf, funct3Of, rs1Of, rs2Of, immS, sBits_cast,
    BitVec.getElem_cast, BitVec.getElem_append, BitVec.getElem_extractLsb', BitVec.getLsbD_signExtend,
    BitVec.getLsbD_cast, BitVec.getLsbD_append, BitVec.getLsbD_extractLsb']
  grind

theorem encodeB_of_fields (hop : opcodeOf w = op) (h3 : funct3Of w = f3) :
    encodeB f3 op (rs1Reg w) (rs2Reg w) (immB w) = w := by
  subst hop h3
  rw [encodeB_cast]
  ext i hi
  simp only [rs1Reg, rs2Reg, regBits_regOf, opcodeOf, funct3Of, rs1Of, rs2Of, immB, bBits_cast,
    BitVec.getElem_cast, BitVec.getElem_append, BitVec.getElem_extractLsb', BitVec.getLsbD_signExtend,
    BitVec.getLsbD_cast, BitVec.getLsbD_append, BitVec.getLsbD_extractLsb']
  grind

theorem encodeU_of_fields (hop : opcodeOf w = op) : encodeU op (rdReg w) (immU w) = w := by
  subst hop
  rw [encodeU_cast]
  ext i hi
  simp only [rdReg, regBits_regOf, opcodeOf, rdOf, immU, uBits,
    BitVec.getElem_cast, BitVec.getElem_append, BitVec.getElem_extractLsb', BitVec.getLsbD_signExtend]
  grind

theorem encodeJ_of_fields (hop : opcodeOf w = op) : encodeJ op (rdReg w) (immJ w) = w := by
  subst hop
  rw [encodeJ_cast]
  ext i hi
  simp only [rdReg, regBits_regOf, opcodeOf, rdOf, immJ, jBits_cast,
    BitVec.getElem_cast, BitVec.getElem_append, BitVec.getElem_extractLsb', BitVec.getLsbD_signExtend,
    BitVec.getLsbD_cast, BitVec.getLsbD_append, BitVec.getLsbD_extractLsb']
  grind

/-! ## The instruction of a word whose fields are its mnemonic's -/

/-- The six Direct entries of opcode OP (R84, R85). -/
def directOp : List Mnemonic := [.sll, .slt, .sltu, .xor, .or, .and]

theorem directOp_iff : ∀ row ∈ opcodeRows, ∀ f3 : BitVec 3, row.MatchesKey (opcodeOf row.pattern) f3 →
    (opcodeOf row.pattern = 0x33#7 ∧ f3 ≠ 0#3 ∧ f3 ≠ 5#3 ↔ row.mnemonic ∈ directOp) := by decide

theorem wellFormed_instrOf (h : instrOf m w = some i)
    (hkey : (rowOf m).MatchesKey (opcodeOf w) (funct3Of w))
    (h7 : (rowOf m).MatchesFunct7 (funct7Of w)) : i.wellFormed = true := by
  obtain ⟨hop, -, hrm⟩ := hkey
  cases m with
  | unrecognized => cases h
  | add | sub | sll | slt | sltu | xor | srl | sra | or | and =>
    obtain rfl := Option.some.inj h
    rfl
  | addi | slti | sltiu | xori | ori | andi | slli | jalr | lw | flw | sw | fsw =>
    obtain rfl := Option.some.inj h
    exact decide_eq_true (imm12Ok_signExtend _)
  | srli =>
    obtain rfl := Option.some.inj h
    exact decide_eq_true (srliOk_immI (h7 rfl))
  | srai =>
    obtain rfl := Option.some.inj h
    exact decide_eq_true (sraiOk_immI (h7 rfl))
  | lui | auipc =>
    obtain rfl := Option.some.inj h
    exact decide_eq_true (imm20Ok_immU w)
  | beq | bne | blt | bge | bltu | bgeu =>
    obtain rfl := Option.some.inj h
    exact decide_eq_true (imm13Ok_immB w)
  | jal =>
    obtain rfl := Option.some.inj h
    exact decide_eq_true (imm21Ok_immJ w)
  | fadd | fsub | fmul | fdiv =>
    obtain rfl := Option.some.inj h
    exact decide_eq_true (hrm hop)

/-- The row gives the fields that the encoder writes; the operands are the word's other fields. -/
theorem encode_instrOf (h : instrOf m w = some i)
    (hkey : (rowOf m).MatchesKey (opcodeOf w) (funct3Of w))
    (h7 : (rowOf m).MatchesFunct7 (funct7Of w)) :
    encode i = if m ∈ directOp then w &&& 0x01FFFFFF#32 else w := by
  obtain ⟨hop, h3, -⟩ := hkey
  cases m with
  | unrecognized => cases h
  | add | sub | srl | sra =>
    obtain rfl := Option.some.inj h
    exact encodeR_of_fields hop (h3 rfl) (h7 rfl)
  | sll | slt | sltu | xor | or | and =>
    obtain rfl := Option.some.inj h
    exact encodeR_zero_of_fields hop (h3 rfl)
  | addi | slti | sltiu | xori | ori | andi | slli | srli | srai | jalr | lw | flw =>
    obtain rfl := Option.some.inj h
    exact encodeI_of_fields hop (h3 rfl)
  | lui | auipc =>
    obtain rfl := Option.some.inj h
    exact encodeU_of_fields hop
  | beq | bne | blt | bge | bltu | bgeu =>
    obtain rfl := Option.some.inj h
    exact encodeB_of_fields hop (h3 rfl)
  | jal =>
    obtain rfl := Option.some.inj h
    exact encodeJ_of_fields hop
  | sw | fsw =>
    obtain rfl := Option.some.inj h
    exact encodeS_of_fields hop (h3 rfl)
  | fadd | fsub | fmul | fdiv =>
    obtain rfl := Option.some.inj h
    exact encodeR_of_fields hop rfl (h7 rfl)

/-- Settles O7: the fields of the word are those of its mnemonic's row, and bits 31:25 are lost in the
six Direct entries of opcode OP alone. -/
theorem encodeOfDecodeIsWord : Obligations.EncodeOfDecodeIsWord := by
  intro w i h
  have hm : (decode w).mnemonic ≠ .unrecognized := by
    intro hm
    rw [decodeInstr_eq, hm] at h
    cases h
  obtain ⟨row, hrow, hrm, hsel⟩ := row_of_decode hm
  obtain ⟨hkey, h7⟩ := (selects_iff hrow).1 hsel
  have ⟨hop, _, _⟩ := hkey
  rw [decodeInstr_eq, ← hrm] at h
  have hdirect := directOp_iff row hrow (funct3Of w)
  rw [← hop] at hdirect
  simp only [hdirect hkey]
  rw [← rowOf_mnemonic row hrow] at hkey h7
  exact ⟨wellFormed_instrOf h hkey h7, encode_instrOf h hkey h7⟩

end Sys2Proof.Machine

/-! PROOF. The integer instructions (40_integer.md): each decodes by its table key, and its commit is one
register write behind the support gate; an unsupported one is an observation (R111). -/

namespace Sys2Proof.Machine

variable {s : State} {i : Instr} {rd : Reg} {v : Word} {op f7 : BitVec 7} {f3 : BitVec 3}
  {mk : Word → Instr}

/-! ## What a word decodes as, by the kind of its table entry (R83, R85) -/

/-- A nested entry: opcode, funct3 and funct7 are consulted. -/
theorem decodesAs_nested (h : ∀ w, instrOf (tableMnemonic op f3 f7) w = some (mk w)) :
    DecodesAs op (some f3) (some f7) mk := fun w hop h3 h7 =>
  (decodeInstr_of_fields hop (h3 f3 rfl) (h7 f7 rfl)).trans (h w)

/-- A direct entry under a funct3: the table gives its mnemonic for every funct7. -/
theorem decodesAs_direct (h : ∀ f7 w, instrOf (tableMnemonic op f3 f7) w = some (mk w)) :
    DecodesAs op (some f3) none mk := fun w hop h3 _ =>
  (decodeInstr_of_fields hop (h3 f3 rfl) rfl).trans (h (funct7Of w) w)

/-- A direct entry under the sentinel: the table gives its mnemonic for every funct3 and funct7. -/
theorem decodesAs_sentinel (h : ∀ f3 f7 w, instrOf (tableMnemonic op f3 f7) w = some (mk w)) :
    DecodesAs op none none mk := fun w hop _ _ =>
  (decodeInstr_of_fields hop rfl rfl).trans (h (funct3Of w) (funct7Of w) w)

/-! ## The value an instruction writes, in the terms of the statements -/

/-- The low five bits are the value modulo 32 (R134). -/
theorem shiftAmount_eq_mod (v : Word) : shiftAmount v = v.toNat % 32 := by
  simp [shiftAmount]

theorem conditionWord_lessSigned (a b : Word) :
    conditionWord (lessSigned a b) = if a.toInt < b.toInt then 1#32 else 0#32 := by
  simp only [conditionWord, lessSigned, decide_eq_true_eq]

theorem conditionWord_lessUnsigned (a b : Word) :
    conditionWord (lessUnsigned a b) = if a.toNat < b.toNat then 1#32 else 0#32 := by
  simp only [conditionWord, lessUnsigned, decide_eq_true_eq]

/-! ## The support gate (R111) -/

/-- A supported instruction whose meaning is a gated register write commits that write (R110, R111). -/
theorem commitsX_of_gated (hs : supports s.params i.mnemonic = true)
    (h : exec i s = s.gated i.mnemonic (s.writesX rd v)) : CommitsX i s rd v :=
  commitsX_of_writeX (h.trans (State.gated_supported hs))

/-- An extended mnemonic is supported exactly when `EXT_SUPPORTED` lists it. -/
theorem supports_iff_of_extended {p : Params} {m : Mnemonic} (h : m ∈ extendedSet) :
    supports p m = true ↔ m ∈ p.extSupported := by
  simp [supports, h]

/-- An unsupported instruction commits as an unrecognized one: a core instruction is never unsupported,
and every extended one stands behind the gate. -/
theorem exec_unsupported (h : supports s.params i.mnemonic = false) :
    exec i s = .next s.recordUnrecognized := by
  cases i with
  | add | sub | addi | srli | srai | auipc | beq | bne | blt | bge | flw | fsw | fadd | fsub | fmul
  | fdiv => exact absurd (supports_of_core rfl) (Bool.eq_false_iff.1 h)
  | _ => exact State.gated_unsupported h

/-! ## The obligations -/

/-- Settles O10: nested entries of the core set, each one write. -/
theorem addSubCommit : Obligations.AddSubCommit :=
  ⟨decodesAs_nested fun _ => rfl, decodesAs_nested fun _ => rfl, fun _ _ _ _ =>
    ⟨commitsX_of_writeX rfl, commitsX_of_writeX rfl⟩⟩

/-- Settles O11: `sll` is a direct entry, `srl` and `sra` are nested; the amount is the low five bits. -/
theorem registerShiftsCommit : Obligations.RegisterShiftsCommit := by
  refine ⟨decodesAs_direct fun _ _ => rfl, decodesAs_nested fun _ => rfl,
    decodesAs_nested fun _ => rfl, fun rd rs1 rs2 s => ?_⟩
  rw [← shiftAmount_eq_mod]
  exact ⟨fun hs => commitsX_of_gated hs rfl, fun hs => commitsX_of_gated hs rfl,
    fun hs => commitsX_of_gated hs rfl⟩

/-- Settles O12: direct entries; the word written is that of the comparison. -/
theorem registerComparesCommit : Obligations.RegisterComparesCommit := by
  refine ⟨decodesAs_direct fun _ _ => rfl, decodesAs_direct fun _ _ => rfl, fun rd rs1 rs2 s => ?_⟩
  rw [← conditionWord_lessSigned, ← conditionWord_lessUnsigned]
  exact ⟨fun hs => commitsX_of_gated hs rfl, fun hs => commitsX_of_gated hs rfl⟩

/-- Settles O13: direct entries, each one gated write. -/
theorem registerBitwiseCommit : Obligations.RegisterBitwiseCommit :=
  ⟨decodesAs_direct fun _ _ => rfl, decodesAs_direct fun _ _ => rfl, decodesAs_direct fun _ _ => rfl,
    fun _ _ _ _ => ⟨fun hs => commitsX_of_gated hs rfl, fun hs => commitsX_of_gated hs rfl,
      fun hs => commitsX_of_gated hs rfl⟩⟩

/-- Settles O14: `addi` is of the core set; the compares write the word of the comparison. -/
theorem immediateAddAndComparesCommit : Obligations.ImmediateAddAndComparesCommit := by
  refine ⟨decodesAs_direct fun _ _ => rfl, decodesAs_direct fun _ _ => rfl,
    decodesAs_direct fun _ _ => rfl, fun rd rs1 imm s => ?_⟩
  rw [← conditionWord_lessSigned, ← conditionWord_lessUnsigned]
  exact ⟨commitsX_of_writeX rfl, fun hs => commitsX_of_gated hs rfl,
    fun hs => commitsX_of_gated hs rfl⟩

/-- Settles O15: direct entries, each one gated write. -/
theorem immediateBitwiseCommit : Obligations.ImmediateBitwiseCommit :=
  ⟨decodesAs_direct fun _ _ => rfl, decodesAs_direct fun _ _ => rfl, decodesAs_direct fun _ _ => rfl,
    fun _ _ _ _ => ⟨fun hs => commitsX_of_gated hs rfl, fun hs => commitsX_of_gated hs rfl,
      fun hs => commitsX_of_gated hs rfl⟩⟩

/-- Settles O16: `slli` is a direct entry of the extended set, `srli` and `srai` are nested entries of
the core set; the amount is the low five bits. -/
theorem immediateShiftsCommit : Obligations.ImmediateShiftsCommit := by
  refine ⟨decodesAs_direct fun _ _ => rfl, decodesAs_nested fun _ => rfl,
    decodesAs_nested fun _ => rfl, fun rd rs1 imm s => ?_⟩
  rw [← shiftAmount_eq_mod]
  exact ⟨fun hs => commitsX_of_gated hs rfl, commitsX_of_writeX rfl, commitsX_of_writeX rfl⟩

/-- Settles O17: entries under the sentinel; the own address is that of the record in Execute. -/
theorem upperImmediatesCommit : Obligations.UpperImmediatesCommit :=
  ⟨decodesAs_sentinel fun _ _ _ => rfl, decodesAs_sentinel fun _ _ _ => rfl, fun _ _ _ =>
    ⟨fun hs => commitsX_of_gated hs rfl, commitsX_of_writeX rfl,
      fun _ hE => congrArg InFlight.ipc (State.current_eq hE)⟩⟩

/-- Settles O18: outside the extended set every mnemonic is supported, so the gate stands before every
instruction that can be unsupported. -/
theorem unsupportedCommitsAsUnrecognized : Obligations.UnsupportedCommitsAsUnrecognized := fun i s =>
  ⟨fun hcore => supports_of_core (by simpa using hcore), supports_iff_of_extended,
    fun hs => ⟨s.recordUnrecognized, exec_unsupported hs, commitsNothing_record⟩,
    fun _ hE => State.current_eq hE⟩

end Sys2Proof.Machine

/-! PROOF. The branches and jumps (41_control.md): each decodes by its table key, and its commit is the
common branch rule or a transfer behind the support gate; a taken transfer to a misaligned target ends
the run (R151, R184). -/

namespace Sys2Proof.Machine

variable {s : State} {e : InFlight} {i : Instr} {target : Word} {f : Fault}

/-! ## The comparisons, in the terms of the statements (R143 to R146) -/

theorem lessSigned_eq_true_iff {a b : Word} : lessSigned a b = true ↔ a.toInt < b.toInt :=
  decide_eq_true_iff

theorem lessSigned_eq_false_iff {a b : Word} : lessSigned a b = false ↔ b.toInt ≤ a.toInt :=
  decide_eq_false_iff_not.trans not_lt

theorem not_lessSigned_eq_true_iff {a b : Word} : (!lessSigned a b) = true ↔ b.toInt ≤ a.toInt := by
  rw [Bool.not_eq_true', lessSigned_eq_false_iff]

theorem lessUnsigned_eq_true_iff {a b : Word} : lessUnsigned a b = true ↔ a.toNat < b.toNat :=
  decide_eq_true_iff

theorem lessUnsigned_eq_false_iff {a b : Word} : lessUnsigned a b = false ↔ b.toNat ≤ a.toNat :=
  decide_eq_false_iff_not.trans not_lt

theorem not_lessUnsigned_eq_true_iff {a b : Word} : (!lessUnsigned a b) = true ↔ b.toNat ≤ a.toNat := by
  rw [Bool.not_eq_true', lessUnsigned_eq_false_iff]

/-! ## The commits -/

/-- Settles O20: direct entries under a funct3, each the common branch rule on equality. -/
theorem equalityBranchesCommit : Obligations.EqualityBranchesCommit :=
  ⟨decodesAs_direct fun _ _ => rfl, decodesAs_direct fun _ _ => rfl, fun _ _ _ _ =>
    ⟨commitsBranch_of_branch beq_iff_eq rfl, commitsBranch_of_branch bne_iff_ne rfl⟩⟩

/-- Settles O21: as O20, `bge` on the negated comparison. -/
theorem signedBranchesCommit : Obligations.SignedBranchesCommit := by
  refine ⟨decodesAs_direct fun _ _ => rfl, decodesAs_direct fun _ _ => rfl, fun a b imm s => ⟨?_, ?_⟩⟩
  · exact commitsBranch_of_branch lessSigned_eq_true_iff rfl
  · exact commitsBranch_of_branch not_lessSigned_eq_true_iff rfl

/-- Settles O22: as O21 with the unsigned comparison, behind the support gate. -/
theorem unsignedBranchesCommit : Obligations.UnsignedBranchesCommit := by
  refine ⟨decodesAs_direct fun _ _ => rfl, decodesAs_direct fun _ _ => rfl,
    fun a b imm s => ⟨fun hs => ?_, fun hs => ?_⟩⟩
  · exact commitsBranch_of_branch lessUnsigned_eq_true_iff (State.gated_supported hs)
  · exact commitsBranch_of_branch not_lessUnsigned_eq_true_iff (State.gated_supported hs)

/-- Settles O23: an entry under the sentinel; the alignment check comes before the link. -/
theorem jalCommits : Obligations.JalCommits := by
  refine ⟨decodesAs_sentinel fun _ _ _ => rfl, fun rd imm s hs => ⟨fun ha => ?_, fun ha => ?_⟩⟩
  · exact commitsJump_of_transfer (State.gated_supported hs) ha
  · exact (State.gated_supported hs).trans (State.transfer_misaligned ha)

/-- Settles O24: a direct entry; the target is read from the state before the link is written. -/
theorem jalrCommits : Obligations.JalrCommits := by
  refine ⟨decodesAs_direct fun _ _ => rfl, ?_⟩
  rintro rd rs1 imm _ s hs rfl
  refine ⟨fun ha => ?_, fun ha => ?_⟩
  · exact commitsJump_of_transfer (State.gated_supported hs) ha
  · exact (State.gated_supported hs).trans (State.transfer_misaligned ha)

/-! ## Transfers taken and not taken -/

/-- An instruction that takes a transfer commits as that transfer, after its link if it has one. -/
theorem exec_of_takesTransfer (h : TakesTransfer i s target) :
    ∃ link, exec i s = s.transfer target link := by
  have taken {c : Bool} (hc : c = true) : s.branch c target = s.transfer target id := by
    rw [hc, State.branch_taken]
  obtain ⟨hs, h⟩ := h
  cases i with
  | beq => obtain ⟨hc, rfl⟩ := h; exact ⟨id, taken (beq_iff_eq.2 hc)⟩
  | bne => obtain ⟨hc, rfl⟩ := h; exact ⟨id, taken (bne_iff_ne.2 hc)⟩
  | blt => obtain ⟨hc, rfl⟩ := h; exact ⟨id, taken (lessSigned_eq_true_iff.2 hc)⟩
  | bge => obtain ⟨hc, rfl⟩ := h; exact ⟨id, taken (not_lessSigned_eq_true_iff.2 hc)⟩
  | bltu =>
    obtain ⟨hc, rfl⟩ := h
    exact ⟨id, (State.gated_supported hs).trans (taken (lessUnsigned_eq_true_iff.2 hc))⟩
  | bgeu =>
    obtain ⟨hc, rfl⟩ := h
    exact ⟨id, (State.gated_supported hs).trans (taken (not_lessUnsigned_eq_true_iff.2 hc))⟩
  | jal | jalr => obtain rfl := h; exact ⟨_, State.gated_supported hs⟩
  | _ => exact h.elim

/-- A branch that falls through commits as the common branch rule does when the condition fails. -/
theorem exec_of_fallsThrough (h : FallsThrough i s) :
    ∃ target, exec i s = s.branch false target := by
  have failed {c : Bool} {a : Word} (hc : c = false) : s.branch c a = s.branch false a := by rw [hc]
  obtain ⟨hs, h⟩ := h
  cases i with
  | beq => exact ⟨_, failed (beq_eq_false_iff_ne.2 h)⟩
  | bne => exact ⟨_, failed (bne_eq_false_iff_eq.2 h)⟩
  | blt => exact ⟨_, failed (lessSigned_eq_false_iff.2 h)⟩
  | bge => exact ⟨_, failed (congrArg not (lessSigned_eq_true_iff.2 h))⟩
  | bltu => exact ⟨_, (State.gated_supported hs).trans (failed (lessUnsigned_eq_false_iff.2 h))⟩
  | bgeu =>
    exact ⟨_, (State.gated_supported hs).trans (failed (congrArg not (lessUnsigned_eq_true_iff.2 h)))⟩
  | _ => exact h.elim

/-- A branch whose condition fails never faults, whatever its target (R140, R151). -/
theorem State.branch_false_ne_fault : s.branch false target ≠ .fault f := by
  cases hm : s.params.fetchMode with
  | linear => rw [State.branch_linear hm]; exact nofun
  | looping => rw [State.branch_looping hm]; exact nofun

/-! ## The fault of a commit ends the run (R204, R219) -/

theorem State.commit_of_instr (hi : e.dec.toInstr = some i) : s.commit e = exec i s := by
  simp only [State.commit, hi]

/-- A fault of the committed instruction ends the run in the state the cycle began with. -/
theorem step_of_exec_fault (hr : s.status = .running) (hE : s.slotE = some e)
    (hi : e.dec.toInstr = some i) (h : exec i s = .fault f) : step s = .next (s.enterFault f) :=
  step_storeFault hr (State.storeStep_fault hE ((State.commit_of_instr hi).trans h))

/-- Settles O34: a taken transfer checks its target before anything else, and a branch not taken checks
none. -/
theorem misalignedTargetEndsRun : Obligations.MisalignedTargetEndsRun := by
  refine ⟨fun s e i target hr hE hi htakes ha => ⟨?_, rfl, rfl⟩, fun s i f hfalls => ?_⟩
  · obtain ⟨link, hexec⟩ := exec_of_takesTransfer htakes
    exact step_of_exec_fault hr hE hi (hexec.trans (State.transfer_misaligned ha))
  · obtain ⟨target, hexec⟩ := exec_of_fallsThrough hfalls
    rw [hexec]
    exact State.branch_false_ne_fault

end Sys2Proof.Machine

/-! PROOF. The loads and stores (42_loadstore.md): each decodes by its table key, and its commit is one
checked access to data memory, behind the support gate for `lw` and `sw` (R162 to R165). -/

namespace Sys2Proof.Machine

variable {s : State} {i : Instr} {ea v : Word}

/-! ## The checks and the word of an access (R53, R54, R57) -/

/-- An instruction that answers every fault of its access makes the checks in their order. -/
theorem checksAccess_of_fault (h : ∀ f, s.accessFault ea = some f → exec i s = .fault f) :
    ChecksAccess i s ea :=
  ⟨fun hb => h _ (State.accessFault_bounds hb),
    fun hb ha => h _ (State.accessFault_misaligned hb ha)⟩

theorem checksAccess_of_memRead {use : Word → State → State} (h : exec i s = s.memRead ea use) :
    ChecksAccess i s ea :=
  checksAccess_of_fault fun _ hf => h.trans (State.memRead_fault hf)

theorem exec_of_memRead {use : Word → State → State} (h : exec i s = s.memRead ea use)
    (hok : AccessOk s ea) : exec i s = .next (use (s.mem.readWord ea.toNat) s.chargeRead) :=
  h.trans (State.memRead_ok (State.accessFault_none_iff.2 hok))

/-- The word read is the little-endian one of its four bytes. -/
theorem wordAt_readWord (s : State) (a : Nat) : WordAt s a (s.mem.readWord a) := by
  have drop_low {n k : Nat} (hk : 8 ≤ k) (hi : BitVec n) (lo : Byte) :
      (hi ++ lo).extractLsb' k 8 = hi.extractLsb' (k - 8) 8 := BitVec.extractLsb'_append_eq_of_le hk
  unfold WordAt Memory.readWord
  refine ⟨BitVec.extractLsb'_append_eq_right, ?_, ?_, ?_⟩
  · rw [drop_low (by decide)]
    exact BitVec.extractLsb'_append_eq_right
  · rw [drop_low (by decide), drop_low (by decide)]
    exact BitVec.extractLsb'_append_eq_right
  · rw [drop_low (by decide), drop_low (by decide)]
    exact BitVec.extractLsb'_append_eq_left

/-- A word write to canonical memory puts the four bytes and leaves every other one. -/
theorem wroteBytes_storeWord (hm : s.mem.wf = true) (ea v : Word) :
    WroteBytes s (s.storeWord ea v) ea.toNat v := by
  obtain ⟨h0, h1, h2, h3⟩ := Memory.readByte_writeWord_inside hm ea.toNat v
  exact ⟨h0, h1, h2, h3, fun _ hb => Memory.readByte_writeWord_outside s.mem v hb⟩

/-! ## The shapes of the commits, with their frames -/

/-- R162: a read into an integer register. -/
theorem commitsLoadX_of_memRead {rd : Reg}
    (h : exec i s = s.memRead ea (fun v t => t.writeX rd v)) :
    ChecksAccess i s ea ∧
    (AccessOk s ea → ∃ t v, exec i s = .next t ∧ WordAt s ea.toNat v ∧ WroteX s t rd v ∧
      SameF s t ∧ SameBytes s t ∧ AccessKeeps s t ∧ t.stall = s.stall ∧
      t.ticks = s.ticks + s.params.readLatency) :=
  ⟨checksAccess_of_memRead h, fun hok => ⟨_, _, exec_of_memRead h hok, wordAt_readWord s _,
    ⟨fun hr => State.readX_writeX_same s.chargeRead _ hr, State.readX_zero _,
      fun _ hq => State.readX_writeX_other s.chargeRead _ hq⟩,
    fun _ => rfl, fun _ => rfl,
    ⟨⟨rfl, rfl, rfl, rfl⟩, rfl, ⟨rfl, rfl, rfl, rfl, rfl, rfl, rfl⟩⟩, rfl, rfl⟩⟩

/-- R164: a read into a floating register, with one stall cycle. -/
theorem commitsLoadF_of_memRead {rd : Reg}
    (h : exec i s = s.memRead ea (fun v t => (t.writeF rd v).addStall 1)) :
    ChecksAccess i s ea ∧
    (AccessOk s ea → ∃ t v, exec i s = .next t ∧ WordAt s ea.toNat v ∧ WroteF s t rd v ∧
      SameX s t ∧ SameBytes s t ∧ AccessKeeps s t ∧ t.stall = s.stall + 1 ∧
      t.ticks = s.ticks + s.params.readLatency) :=
  ⟨checksAccess_of_memRead h, fun hok => ⟨_, _, exec_of_memRead h hok, wordAt_readWord s _,
    ⟨State.readF_writeF_same s.chargeRead rd _,
      fun _ hq => State.readF_writeF_other s.chargeRead _ hq⟩,
    fun _ => rfl, fun _ => rfl,
    ⟨⟨rfl, rfl, rfl, rfl⟩, rfl, ⟨rfl, rfl, rfl, rfl, rfl, rfl, rfl⟩⟩, rfl, rfl⟩⟩

/-- R163, R165: a write of four bytes. -/
theorem commitsStore_of_memWrite (hm : s.mem.wf = true) (h : exec i s = s.memWrite ea v) :
    ChecksAccess i s ea ∧
    (AccessOk s ea → ∃ t, exec i s = .next t ∧ WroteBytes s t ea.toNat v ∧ SameX s t ∧
      SameF s t ∧ AccessKeeps s t ∧ t.stall = s.stall ∧
      t.ticks = s.ticks + s.params.writeLatency) :=
  ⟨checksAccess_of_fault fun _ hf => h.trans (State.memWrite_fault hf), fun hok =>
    ⟨_, h.trans (State.memWrite_ok (State.accessFault_none_iff.2 hok)), wroteBytes_storeWord hm ea v,
      fun _ => rfl, fun _ => rfl,
      ⟨⟨rfl, rfl, rfl, rfl⟩, rfl, ⟨rfl, rfl, rfl, rfl, rfl, rfl, rfl⟩⟩, rfl, rfl⟩⟩

/-! ## The obligations -/

/-- Settles O25: direct entries under funct3 2; `lw` reads behind the support gate, `flw` is of the core
set. -/
theorem loadsCommit : Obligations.LoadsCommit := by
  refine ⟨decodesAs_direct fun _ _ => rfl, decodesAs_direct fun _ _ => rfl, ?_⟩
  rintro rd rs1 imm s _ rfl
  exact ⟨fun hs => commitsLoadX_of_memRead (exec_lw_supported hs),
    commitsLoadF_of_memRead (exec_flw_eq rd rs1 imm s)⟩

/-- Settles O26: direct entries under funct3 2; `sw` writes behind the support gate, `fsw` is of the core
set. -/
theorem storesCommit : Obligations.StoresCommit := by
  refine ⟨decodesAs_direct fun _ _ => rfl, decodesAs_direct fun _ _ => rfl, ?_⟩
  rintro rs2 rs1 imm s _ hm rfl
  exact ⟨rfl, fun hs => commitsStore_of_memWrite hm (exec_sw_supported hs),
    commitsStore_of_memWrite hm (exec_fsw_eq rs2 rs1 imm s)⟩

end Sys2Proof.Machine

/-! PROOF. Floating arithmetic (43_float.md): what the commit of each mnemonic adds to the stall counter
(R176), and that each arithmetic instruction decodes by its nested table key under every admitted
rounding mode and commits as one register write with two stall cycles (R170 to R175). -/

namespace Sys2Proof.Machine

variable {s t : State} {r : Result} {n : Nat}

/-! ## What a commit adds to the stall counter (R176, R206) -/

/-- Where `r` answers a next state, its stall counter is that of `s` risen by `n`. -/
def AddsStall (s : State) (n : Nat) (r : Result) : Prop := ∀ t, r = .next t → t.stall = s.stall + n

theorem addsStall_next (h : t.stall = s.stall + n) : AddsStall s n (.next t) := by
  rintro _ ⟨⟩
  exact h

/-- An unsupported mnemonic injects nothing, as every supported one behind the gate does. -/
theorem addsStall_gated {m : Mnemonic} (h : AddsStall s 0 r) : AddsStall s 0 (s.gated m r) := by
  intro t ht
  rcases State.gated_cases ht with ⟨-, hr⟩ | ⟨-, hr⟩
  · exact h t hr
  · cases hr; rfl

theorem addsStall_memRead {ea : Word} {use : Word → State → State}
    (h : ∀ v (u : State), (use v u).stall = u.stall + n) : AddsStall s n (s.memRead ea use) := by
  intro t ht
  rw [State.memRead_next ht]
  exact h _ s.chargeRead

theorem addsStall_memWrite {ea v : Word} : AddsStall s 0 (s.memWrite ea v) := by
  intro t ht
  rw [State.memWrite_next ht, State.storeWord_stall, Nat.add_zero]

theorem addsStall_transfer {target : Word} {link : State → State} (h : (link s).stall = s.stall) :
    AddsStall s 0 (s.transfer target link) := by
  intro t ht
  rcases State.transfer_cases ht with ⟨-, hr⟩ | ⟨-, hr⟩
  · cases hr; exact h
  · cases hr

theorem addsStall_branch {taken : Bool} {target : Word} :
    AddsStall s 0 (s.branch taken target) := by
  intro t ht
  rcases State.branch_cases ht with ⟨-, -, hr⟩ | ⟨-, -, hr⟩ | ⟨-, -, hr⟩ | ⟨-, -, hr⟩
  · cases hr; rfl
  · cases hr
  · cases hr; rfl
  · cases hr; rfl

/-- Every commit injects the stall cycles of its mnemonic, whatever its operands. -/
theorem exec_addsStall (i : Instr) (s : State) : AddsStall s (stallOf i.mnemonic) (exec i s) := by
  cases i with
  | add | sub | addi | srli | srai | auipc => exact addsStall_next rfl
  | fadd | fsub | fmul | fdiv => exact addsStall_next rfl
  | beq | bne | blt | bge => exact addsStall_branch
  | bltu | bgeu => exact addsStall_gated addsStall_branch
  | jal | jalr => exact addsStall_gated (addsStall_transfer rfl)
  | lw => exact addsStall_gated (addsStall_memRead fun _ _ => rfl)
  | flw rd =>
    exact addsStall_memRead (use := fun v u => (u.writeF rd v).addStall 1) fun _ _ => rfl
  | sw => exact addsStall_gated addsStall_memWrite
  | fsw => exact addsStall_memWrite
  | _ => exact addsStall_gated (addsStall_next rfl)

/-! ## The steps that end in a fault (R219) -/

/-- The termination check makes no fault. -/
theorem State.finishCycle_notFaulted (hr : s.status = .running) : NotFaulted s.finishCycle := by
  intro f hf
  rw [State.finishCycle_status] at hf
  rcases s.countCycle.checkedStatus_cases with ⟨h, -⟩ | ⟨h, -⟩ | ⟨h, -⟩ <;> rw [h] at hf
  · cases hf
  · cases hf
  · exact nomatch hr.symm.trans hf

/-- A running state whose step ends in a fault is left as it was but for the status. -/
theorem step_faulted {f : Fault} (hr : s.status = .running) (h : step s = .next t)
    (hf : t.status = .faulted f) : t = s.enterFault f := by
  cases step_cases h with
  | ended hn => exact absurd hr hn
  | storeFault _ f' => cases hf; rfl
  | fetchFault _ f' => cases hf; rfl
  | completed _ u v hu hv =>
    obtain ⟨-, -, -, -, hus⟩ := State.storeStep_keeps hu
    obtain ⟨-, -, -, -, -, -, -, -, -, -, hvs⟩ := (State.gatedSteps_flowOnly hv).keeps
    exact absurd hf (State.finishCycle_notFaulted (hvs.trans (hus.trans hr)) f)

/-- Settles O29: the gate stands only before mnemonics that inject no stall cycle, and a fault leaves
the state of the start of the cycle. -/
theorem stallPerMnemonic : Obligations.StallPerMnemonic := by
  refine ⟨fun s t e hc => ⟨fun i hi _ => ?_, fun i hi hs => ?_, fun hnone => ?_⟩,
    fun s t f hr hstep hf => ?_⟩
  · rw [State.commit_of_instr hi] at hc
    exact exec_addsStall i s t hc
  · rw [State.commit_of_instr hi, exec_unsupported hs] at hc
    cases hc; rfl
  · simp only [State.commit, hnone] at hc
    cases hc; rfl
  · rw [step_faulted hr hstep hf, State.enterFault_stall]

/-! ## The arithmetic instructions (R170 to R175) -/

/-- A nested entry under opcode OP-FP, whose key is the rounding mode (R84, R87). -/
theorem decodesAs_opFp {rm : BitVec 3} {f7 : BitVec 7} {m : Mnemonic}
    {mk : Reg → Reg → Reg → BitVec 3 → Instr} (hm : tableMnemonic 0x53#7 rm f7 = m)
    (h : ∀ w, instrOf m w = some (mk (rdReg w) (rs1Reg w) (rs2Reg w) (funct3Of w))) :
    DecodesAs 0x53#7 (some rm) (some f7) (fun w => mk (rdReg w) (rs1Reg w) (rs2Reg w) rm) := by
  intro w hop h3 h7
  rw [decodeInstr_of_fields hop (h3 rm rfl) (h7 f7 rfl), hm, h w, h3 rm rfl]

/-- Each commit writes what the run's `FP_OPS` gives for the rounding mode and the two patterns. -/
theorem commitsFloat_of_fpOps {o : FpInstance} (ho : s.params.fpOps = o) (rd rs1 rs2 : Reg)
    (rm : BitVec 3) :
    CommitsFloat (.fadd rd rs1 rs2 rm) s rd (fpAdd o rm (s.readF rs1) (s.readF rs2)) ∧
    CommitsFloat (.fsub rd rs1 rs2 rm) s rd (fpSub o rm (s.readF rs1) (s.readF rs2)) ∧
    CommitsFloat (.fmul rd rs1 rs2 rm) s rd (fpMul o rm (s.readF rs1) (s.readF rs2)) ∧
    CommitsFloat (.fdiv rd rs1 rs2 rm) s rd (fpDiv o rm (s.readF rs1) (s.readF rs2)) := by
  cases ho
  exact ⟨commitsFloat_of_writeF rfl, commitsFloat_of_writeF rfl, commitsFloat_of_writeF rfl,
    commitsFloat_of_writeF rfl⟩

/-- Settles O28: nested entries under each admitted rounding mode; the two forms of `FP_OPS` are the
two cases of one commit. -/
theorem floatArithmeticCommits : Obligations.FloatArithmeticCommits := by
  refine ⟨fun rm h5 h6 => ?_, ?_⟩
  · obtain ⟨hadd, hsub, hmul, hdiv⟩ := tableMnemonic_opFp rm ⟨h5, h6⟩
    exact ⟨decodesAs_opFp hadd fun _ => rfl, decodesAs_opFp hsub fun _ => rfl,
      decodesAs_opFp hmul fun _ => rfl, decodesAs_opFp hdiv fun _ => rfl⟩
  · rintro rd rs1 rs2 rm s _ _ rfl rfl
    exact ⟨fun _ hk => commitsFloat_of_fpOps hk rd rs1 rs2 rm,
      fun href => commitsFloat_of_fpOps href rd rs1 rs2 rm⟩

end Sys2Proof.Machine

/-! PROOF. The ends of a run by a fault (60_exceptions.md): where a fault comes from (R181), what each
failed check ends the run with (R182 to R185), what the faulting cycle leaves (R186, R219), and the
commit that is an observation only (R188). -/

namespace Sys2Proof.Machine

variable {s t u v : State} {e : InFlight} {i : Instr} {ea target : Word} {f : Fault}

/-! ## Where a fault comes from (R181) -/

/-- A cycle that is completed does not end the run by a fault. -/
theorem completed_notFaulted (hr : s.status = .running) (hu : s.storeStep = .next u)
    (hv : u.gatedSteps = .next v) : NotFaulted v.finishCycle := by
  obtain ⟨-, -, -, -, hus⟩ := State.storeStep_keeps hu
  obtain ⟨-, -, -, -, -, -, -, -, -, -, hvs⟩ := (State.gatedSteps_flowOnly hv).keeps
  exact State.finishCycle_notFaulted (hvs.trans (hus.trans hr))

/-- The fault that ends a run is that of the Store step or, after a Store step without one, that of the
gated steps. -/
theorem step_fault_source (hr : s.status = .running) (h : step s = .next t)
    (hf : t.status = .faulted f) :
    s.storeStep = .fault f ∨ ∃ u, s.storeStep = .next u ∧ u.gatedSteps = .fault f := by
  cases step_cases h with
  | ended hn => exact absurd hr hn
  | storeFault _ _ hs => cases hf; exact .inl hs
  | fetchFault _ _ u hu hg => cases hf; exact .inr ⟨u, hu, hg⟩
  | completed _ u v hu hv => exact absurd hf (completed_notFaulted hr hu hv f)

/-- A fault of the Store step is the fault of the instruction in Execute. -/
theorem State.storeStep_fault_cases (h : s.storeStep = .fault f) :
    ∃ e i, s.slotE = some e ∧ e.dec.toInstr = some i ∧ exec i s = .fault f := by
  unfold State.storeStep at h
  split at h
  · cases h
  · split at h
    · cases h
    · rename_i hc
      cases h
      unfold State.commit at hc
      split at hc
      · exact ⟨_, _, ‹_›, ‹_›, hc⟩
      · cases hc
    · cases h

/-- A failed access is one of the two faults of R182 and R183. -/
theorem State.accessFault_some_cases (h : s.accessFault ea = some f) :
    f = .bounds ea ∨ f = .misalignedAccess ea := by
  unfold State.accessFault at h
  split at h
  · cases h; exact .inl rfl
  · split at h
    · cases h; exact .inr rfl
    · cases h

/-- No commit raises the fault of the Fetch step. -/
theorem exec_ne_fetchOutOfStream {a : Word} : exec i s ≠ .fault (.fetchOutOfStream a) := by
  intro h
  rcases exec_fault_cases h with ⟨ea, hacc⟩ | ⟨target, -, htarget⟩
  · rcases State.accessFault_some_cases hacc with hf | hf <;> cases hf
  · cases htarget

/-- Settles O36: the faulting cycle is abandoned, and the fault is of one of its two parts. -/
theorem faultAbandonsCycle : Obligations.FaultAbandonsCycle := fun _ _ _ hr h hf =>
  ⟨step_faulted hr h hf, step_fault_source hr h hf⟩

/-! ## A failed access (R182, R183) -/

theorem checksAccess_of_memWrite {w : Word} (h : exec i s = s.memWrite ea w) :
    ChecksAccess i s ea :=
  checksAccess_of_fault fun _ hf => h.trans (State.memWrite_fault hf)

/-- Each of the four memory instructions, supported, checks its effective address. -/
theorem checksAccess_of_memoryInstr {r rs1 : Reg} {imm : Word}
    (hi : i ∈ [.lw r rs1 imm, .sw r rs1 imm, .flw r rs1 imm, .fsw r rs1 imm])
    (hs : supports s.params i.mnemonic = true) : ChecksAccess i s (s.readX rs1 + imm) := by
  simp only [List.mem_cons, List.not_mem_nil, or_false] at hi
  rcases hi with rfl | rfl | rfl | rfl
  · exact checksAccess_of_memRead (exec_lw_supported hs)
  · exact checksAccess_of_memWrite (exec_sw_supported hs)
  · exact checksAccess_of_memRead (exec_flw_eq r rs1 imm s)
  · exact checksAccess_of_memWrite (exec_fsw_eq r rs1 imm s)

/-- Settles O33: the commit's fault, in the order of its two checks, ends the run. -/
theorem failedAccessEndsRun : Obligations.FailedAccessEndsRun := by
  rintro s e i r rs1 imm _ hr hE hi hmem hs rfl
  obtain ⟨hbounds, hmisaligned⟩ := checksAccess_of_memoryInstr hmem hs
  exact ⟨fun hb => ⟨step_of_exec_fault hr hE hi (hbounds hb), rfl, rfl⟩,
    fun hb ha => ⟨step_of_exec_fault hr hE hi (hmisaligned hb ha), rfl, rfl⟩⟩

/-! ## A taken transfer to an aligned target (R207) -/

/-- A branch does not both take its transfer and fall through. -/
theorem TakesTransfer.not_fallsThrough (h : TakesTransfer i s target) : ¬FallsThrough i s := by
  rintro ⟨-, hfalls⟩
  obtain ⟨-, htakes⟩ := h
  cases i with
  | beq => exact hfalls htakes.1
  | bne => exact htakes.1 hfalls
  | blt | bltu => exact hfalls.not_gt htakes.1
  | bge | bgeu => exact htakes.1.not_gt hfalls
  | _ => exact hfalls

theorem TakesTransfer.stallOf_eq_zero (h : TakesTransfer i s target) : stallOf i.mnemonic = 0 := by
  obtain ⟨-, htakes⟩ := h
  cases i with
  | beq | bne | blt | bge | bltu | bgeu | jal | jalr => rfl
  | _ => exact htakes.elim

/-- The commit of a taken transfer to an aligned target: the redirect, with the halt flag and the stall
counter unchanged. -/
theorem exec_redirects (h : TakesTransfer i s target) (ha : targetAligned target) :
    ∃ t, exec i s = .next t ∧ RedirectedTo s t target ∧ t.stall = s.stall := by
  obtain ⟨link, hx⟩ := exec_of_takesTransfer h
  rw [State.transfer_aligned ha] at hx
  have hhalt : (link s).halt = s.halt := by
    rcases exec_flow hx with ⟨-, hh⟩ | ⟨_, -, -, hh⟩ | ⟨-, hfalls, -⟩
    · exact hh
    · exact hh
    · exact absurd hfalls h.not_fallsThrough
  have hstall : (link s).stall = s.stall := by
    have hadds := exec_addsStall i s _ hx
    rwa [h.stallOf_eq_zero, Nat.add_zero] at hadds
  exact ⟨_, hx, ⟨rfl, rfl, rfl, hhalt⟩, hstall⟩

/-! ## A fetch out of the stream (R185) -/

/-- In Looping mode a Fetch step that is not suppressed faults at a pc that indexes no entry. -/
theorem State.fetchStep_outOfStream (hh : s.halt = false) (hmode : s.params.fetchMode = .looping)
    (hw : s.streamWord s.pc = none) : s.fetchStep = .fault (.fetchOutOfStream s.pc) := by
  simp only [State.fetchStep, hh, hw, hmode, Bool.false_eq_true, if_false]

/-- The Execute and Decode steps before it change nothing that the Fetch step's check reads. -/
theorem State.gatedSteps_outOfStream (hst : s.stall = 0) (hh : s.halt = false)
    (hmode : s.params.fetchMode = .looping) (hw : s.streamWord s.pc = none) :
    s.gatedSteps = .fault (.fetchOutOfStream s.pc) := by
  obtain ⟨hp, hg, -, -, hpc, -, -, hhalt, -⟩ := s.moved_keeps
  rw [State.gatedSteps_open hst, State.fetchStep_outOfStream (hhalt.trans hh), hpc]
  · rw [hp, hmode]
  · rw [hpc, State.streamWord_congr hg, hw]

/-- The cycle whose Store step leaves the pc outside the stream ends the run, if it fetches. -/
theorem step_fetchOutOfStream (hr : s.status = .running) (hmode : s.params.fetchMode = .looping)
    (hu : s.storeStep = .next u) (hh : u.halt = false) (hst : u.stall = 0)
    (hout : ¬(u.pc.toNat % 4 = 0 ∧ u.pc.toNat / 4 < s.prog.length)) :
    step s = .next (s.enterFault (.fetchOutOfStream u.pc)) := by
  obtain ⟨hp, hg, -⟩ := State.storeStep_keeps hu
  rw [← hp] at hmode
  rw [← hg] at hout
  exact step_fetchFault hr hu
    (State.gatedSteps_outOfStream hst hh hmode (State.streamWord_none_iff.2 hout))

/-- In Linear mode no step raises the fault: no commit does, and no gated step faults. -/
theorem step_linear_ne_fetchOutOfStream {a : Word} (hr : s.status = .running)
    (hmode : s.params.fetchMode = .linear) (h : step s = .next t) :
    t.status ≠ .faulted (.fetchOutOfStream a) := by
  intro hf
  rcases step_fault_source hr h hf with hs | ⟨u, hu, hg⟩
  · obtain ⟨_, _, -, -, hx⟩ := State.storeStep_fault_cases hs
    exact exec_ne_fetchOutOfStream hx
  · obtain ⟨hp, -⟩ := State.storeStep_keeps hu
    obtain ⟨v, hv⟩ := State.gatedSteps_linear (s := u) (hp ▸ hmode)
    exact nomatch hg.symm.trans hv

/-- Settles O35: a redirect outside the stream is a Store step that leaves the pc there. -/
theorem fetchOutOfStreamEndsRun : Obligations.FetchOutOfStreamEndsRun := by
  refine ⟨fun s u hr hmode hu hh hst hout => step_fetchOutOfStream hr hmode hu hh hst hout,
    fun s e i target hr hmode hh hst hE hi htakes ha hlen => ?_,
    fun s t a hr hmode h => step_linear_ne_fetchOutOfStream hr hmode h, fun _ => ⟨rfl, rfl⟩⟩
  obtain ⟨t, hx, ⟨rfl, -, -, hhalt⟩, hstall⟩ := exec_redirects htakes ha
  have hu := State.storeStep_next hE ((State.commit_of_instr hi).trans hx)
  exact step_fetchOutOfStream (u := t.retire e) hr hmode hu (hhalt.trans hh) (hstall.trans hst)
    fun hin => Nat.not_lt.2 hlen hin.2

/-! ## A commit that is an observation only (R188) -/

theorem toInstr_unrecognized {d : DecodedInstruction}
    (h : d.mnemonic = .unrecognized) : d.toInstr = none := by
  simp only [DecodedInstruction.toInstr, h]

/-- An unrecognized record, and one of an unsupported instruction, commits as the observation. -/
theorem State.commit_eq_recordUnrecognized (h : e.dec.mnemonic = .unrecognized ∨
      ∃ i, e.dec.toInstr = some i ∧ supports s.params i.mnemonic = false) :
    s.commit e = .next s.recordUnrecognized := by
  rcases h with hm | ⟨i, hi, hs⟩
  · simp only [State.commit, toInstr_unrecognized hm]
  · rw [State.commit_of_instr hi, exec_unsupported hs]

theorem logEvent_getLast? {trace : List TraceEvent} {k c : Nat} {g : Stage} :
    (logEvent trace k g c).getLast? = some ⟨k, g, c⟩ := List.getLast?_concat

/-- The observation of the record in Execute. -/
theorem State.recordUnrecognized_of_slotE (hE : s.slotE = some e) :
    s.recordUnrecognized.unrec = s.unrec ++ [(e.idx, e.word, s.cycle)] := by
  rw [State.recordUnrecognized_unrec, State.current_eq hE]

/-- Settles O37: the commit is the observation, and the gated steps that complete the cycle in Linear
mode keep what it left. -/
theorem unrecognizedCommitsAsNoOp : Obligations.UnrecognizedCommitsAsNoOp := by
  intro s e hr hE hnoOp
  have hu := State.storeStep_next hE (State.commit_eq_recordUnrecognized hnoOp)
  have hunrec := State.recordUnrecognized_of_slotE hE
  refine ⟨⟨_, hu, rfl, rfl, rfl, rfl, rfl, rfl, rfl, hunrec, rfl, rfl, rfl, logEvent_getLast?⟩,
    fun hmode => ?_⟩
  obtain ⟨v, hv⟩ := State.gatedSteps_linear (s := s.recordUnrecognized.retire e) hmode
  obtain ⟨-, -, hx, hf, hS, -, -, hticks, hmem, hobs, -⟩ := (State.gatedSteps_flowOnly hv).keeps
  exact ⟨_, step_completed hr hu hv, completed_notFaulted hr hu hv, hx, hf, hmem, hticks,
    hobs.trans hunrec, hS⟩

end Sys2Proof.Machine

/-! PROOF. The cycle, part by part (R203 to R222): what the Store step and the gated steps do to the slots
and the trace, the fetch in either mode, the end of a cycle, and the launch state (R200). -/

namespace Sys2Proof.Machine

variable {s t u : State} {e d : InFlight} {i : Instr} {w : Word}

/-- A cycle that ends the run by no fault is completed. -/
theorem step_notFaulted_completed (hr : s.status = .running) (h : step s = .next t)
    (hn : NotFaulted t) : ∃ u v, s.storeStep = .next u ∧ u.gatedSteps = .next v ∧ t = v.finishCycle := by
  cases step_cases h with
  | ended hend => exact absurd hr hend
  | storeFault _ f | fetchFault _ f => exact absurd rfl (hn f)
  | completed _ u v hu hv => exact ⟨u, v, hu, hv, rfl⟩

/-! ## The slots after the Store step (R204, R207, R208) -/

/-- The record in Execute moves to Store. -/
theorem State.storeStep_slotS (h : s.storeStep = .next u) :
    u.slotS = s.slotE.map (fun d => { d with enter := s.cycle }) := by
  rcases State.storeStep_next_cases h with ⟨hE, rfl⟩ | ⟨e, w, hE, hc, rfl⟩ <;> rw [hE]
  · rfl
  · obtain ⟨-, -, -, -, hcy, -⟩ := (State.commit_next_cases hc).keeps
    rw [State.retire_slotS, hcy]
    rfl

/-- A record behind Execute after the Store step stood in its slot before it: the step flushes records
and moves none. -/
theorem State.storeStep_holds (h : s.storeStep = .next u) :
    (u.slotF = some d → s.slotF = some d) ∧ (u.slotD = some d → s.slotD = some d) := by
  rcases State.storeStep_next_cases h with ⟨-, rfl⟩ | ⟨e, w, -, hc, rfl⟩
  · exact ⟨id, id⟩
  · rw [State.retire_slotF, State.retire_slotD]
    rcases (State.commit_next_cases hc).fetched_kept_or_flushed with ⟨-, hF, hD⟩ | ⟨hF, hD⟩ <;>
      rw [hF, hD]
    · exact ⟨id, id⟩
    · exact ⟨nofun, nofun⟩

/-! ## The slots after the gated steps (R209 to R213) -/

/-- The Fetch step leaves Decode and Execute; it fills the Fetch slot from the stream or leaves it. -/
theorem State.fetchStep_slots (h : s.fetchStep = .next t) :
    t.slotE = s.slotE ∧ t.slotD = s.slotD ∧
    (t.slotF = s.slotF ∨ ∃ w, s.streamWord s.pc = some w ∧ t.slotF = some (s.fetched w)) := by
  rcases State.fetchStep_next_cases h with
    ⟨-, rfl⟩ | ⟨-, w, hw, rfl⟩ | ⟨-, -, -, ⟨-, -, rfl⟩ | ⟨-, rfl⟩⟩
  · exact ⟨rfl, rfl, .inl rfl⟩
  · exact ⟨rfl, rfl, .inr ⟨w, hw, rfl⟩⟩
  · exact ⟨rfl, rfl, .inl rfl⟩
  · exact ⟨rfl, rfl, .inl rfl⟩

theorem State.moved_fetched (s : State) (w : Word) :
    s.executeStep.decodeStep.fetched w = s.fetched w := by
  obtain ⟨-, -, -, -, hpc, -, -, -, hcy, -⟩ := s.moved_keeps
  simp only [State.fetched, hpc, hcy]

theorem State.moved_streamWord (s : State) (a : Word) :
    s.executeStep.decodeStep.streamWord a = s.streamWord a := by
  obtain ⟨-, hg, -⟩ := s.moved_keeps
  exact State.streamWord_congr hg a

/-- In a cycle that is not stalled each record moves one stage. -/
theorem State.gatedSteps_slots (hE : s.slotE = none) (hst : s.stall = 0)
    (h : s.gatedSteps = .next t) :
    t.slotE = s.slotD.map (fun d => { d with enter := s.cycle }) ∧
    t.slotD = s.slotF.map (fun d => { d with enter := s.cycle }) ∧
    (t.slotF = none ∨ ∃ w, s.streamWord s.pc = some w ∧ t.slotF = some (s.fetched w)) := by
  rw [State.gatedSteps_open hst] at h
  obtain ⟨hE', hD', hF'⟩ := State.moved_slots hE
  obtain ⟨-, -, -, -, hpc, -⟩ := s.moved_keeps
  have hfetch := State.fetchStep_slots h
  simp only [State.moved_fetched, State.moved_streamWord, hE', hD', hF', hpc] at hfetch
  exact hfetch

/-! ## The events of the gated steps (R220, R222) -/

theorem mem_logEvent_of_ne {trace : List TraceEvent} {ev : TraceEvent} {k c : Nat} {g : Stage}
    (h : ev ∈ trace) (hg : ev.stage ≠ g) : ev ∈ logEvent trace k g c :=
  mem_logEvent.2 (.inl ⟨h, fun ⟨_, hsame⟩ => hg hsame⟩)

theorem State.executeStep_logs (hD : s.slotD = some d) :
    ⟨d.idx, .execute, s.cycle⟩ ∈ s.executeStep.trace := by
  rw [State.executeStep_moves hD]
  exact mem_logEvent.2 (.inr rfl)

theorem State.decodeStep_logs (hF : s.slotF = some d) :
    ⟨d.idx, .decode, s.cycle⟩ ∈ s.decodeStep.trace := by
  rw [State.decodeStep_moves hF]
  exact mem_logEvent.2 (.inr rfl)

theorem State.decodeStep_keeps_event {ev : TraceEvent} (h : ev ∈ s.trace) (hg : ev.stage ≠ .decode) :
    ev ∈ s.decodeStep.trace := by
  cases hF : s.slotF with
  | none => rwa [State.decodeStep_empty hF]
  | some d =>
    rw [State.decodeStep_moves hF]
    exact mem_logEvent_of_ne h hg

theorem State.fetchStep_keeps_event {ev : TraceEvent} (hs : s.fetchStep = .next t)
    (h : ev ∈ s.trace) (hg : ev.stage ≠ .fetch) : ev ∈ t.trace := by
  rcases State.fetchStep_next_cases hs with
    ⟨-, rfl⟩ | ⟨-, w, -, rfl⟩ | ⟨-, -, -, ⟨-, -, rfl⟩ | ⟨-, rfl⟩⟩
  · exact h
  · exact mem_logEvent_of_ne h hg
  · exact h
  · exact h

theorem State.executeStep_slotF (s : State) : s.executeStep.slotF = s.slotF := by
  cases hD : s.slotD with
  | none => rw [State.executeStep_empty hD]
  | some d => rw [State.executeStep_moves hD]; rfl

/-- Each record that moves in a cycle has its event in the trace after it. -/
theorem State.gatedSteps_events (hst : s.stall = 0) (h : s.gatedSteps = .next t) :
    (∀ d, s.slotD = some d → ⟨d.idx, .execute, s.cycle⟩ ∈ t.trace) ∧
    (∀ d, s.slotF = some d → ⟨d.idx, .decode, s.cycle⟩ ∈ t.trace) := by
  rw [State.gatedSteps_open hst] at h
  obtain ⟨-, -, -, -, -, -, hcy, -⟩ := s.executeStep_flowOnly.keeps
  refine ⟨fun d hD => ?_, fun d hF => ?_⟩
  · exact State.fetchStep_keeps_event h
      (State.decodeStep_keeps_event (State.executeStep_logs hD) nofun) nofun
  · rw [← s.executeStep_slotF] at hF
    rw [← hcy]
    exact State.fetchStep_keeps_event h (State.decodeStep_logs hF) nofun

/-- Settles O40: the stalled cycle ends in the state of its Store step but for the bookkeeping; in any
other the Execute and Decode steps move the two records. -/
theorem stallGatesStages : Obligations.StallGatesStages := by
  intro s u hr hu
  obtain ⟨-, -, huE, hcy, -⟩ := State.storeStep_keeps hu
  have hstalled : s.stalled = (u.stall != 0) := by simp only [State.stalled, hu]
  refine ⟨fun hst => ⟨hstalled.trans (bne_iff_ne.2 hst), u.finishCycle,
    step_completed hr hu (State.gatedSteps_stalled hst), rfl, rfl, huE, rfl, rfl, rfl, rfl, rfl, rfl,
    rfl⟩, fun hst => ⟨by rw [hstalled, hst]; rfl, fun t hstep hn => ?_⟩⟩
  obtain ⟨u', v, hu', hv, rfl⟩ := step_notFaulted_completed hr hstep hn
  cases hu.symm.trans hu'
  obtain ⟨hE, hD, -⟩ := State.gatedSteps_slots huE hst hv
  obtain ⟨hexecute, hdecode⟩ := State.gatedSteps_events hst hv
  rw [← hcy]
  exact ⟨hE, hD, hexecute, hdecode⟩

/-- Settles O41: a stalled cycle holds the records that its Store step has not flushed, and in any other
each one moves. -/
theorem noStageIsSkipped : Obligations.NoStageIsSkipped := by
  intro s t hr hstep hn
  obtain ⟨u, v, hu, hv, rfl⟩ := step_notFaulted_completed hr hstep hn
  obtain ⟨-, hg, huE, hcy, -⟩ := State.storeStep_keeps hu
  obtain ⟨-, -, -, -, hvS, -⟩ := (State.gatedSteps_flowOnly hv).keeps
  have heldF {d} : u.slotF = some d → s.slotF = some d := (State.storeStep_holds hu).1
  have heldD {d} : u.slotD = some d → s.slotD = some d := (State.storeStep_holds hu).2
  refine ⟨fun e he => ?_, ?_⟩
  · rw [State.finishCycle_slotS, hvS, State.storeStep_slotS hu] at he
    obtain ⟨d, hd, rfl⟩ := Option.map_eq_some_iff.1 he
    exact ⟨d, hd, rfl⟩
  by_cases hst : u.stall = 0
  · obtain ⟨hE, hD, hF⟩ := State.gatedSteps_slots huE hst hv
    rw [hcy] at hE hD
    refine ⟨fun e he => ?_, fun e he => .inr ?_, fun e he => .inr ?_⟩
    · obtain ⟨d, hd, rfl⟩ := Option.map_eq_some_iff.1 (hE.symm.trans he)
      exact ⟨d, heldD hd, rfl⟩
    · obtain ⟨d, hd, rfl⟩ := Option.map_eq_some_iff.1 (hD.symm.trans he)
      exact ⟨d, heldF hd, rfl⟩
    · rcases hF with hF | ⟨w, hw, hF⟩
      · exact nomatch hF.symm.trans he
      · cases hF.symm.trans he
        obtain ⟨-, hword⟩ := State.streamWord_some_iff.1 hw
        exact ⟨hg ▸ hword, rfl, hcy, rfl⟩
  · cases (State.gatedSteps_stalled hst).symm.trans hv
    exact ⟨fun e he => (nomatch huE.symm.trans he), fun e he => .inl (heldD he),
      fun e he => .inl (heldF he)⟩

/-! ## A step runs the instruction in Execute (R203, R204, R219) -/

theorem State.storeStep_of_exec (hE : s.slotE = some e) (hi : e.dec.toInstr = some i)
    (h : exec i s = .next t) : s.storeStep = .next (t.retire e) :=
  State.storeStep_next hE ((State.commit_of_instr hi).trans h)

/-- Settles O30: the step, from its parts. -/
theorem stepCommitsDecodedInstruction : Obligations.StepCommitsDecodedInstruction := by
  intro s e i hr hE hi
  exact ⟨fun f h => step_of_exec_fault hr hE hi h,
    fun t f h hg => step_fetchFault hr (State.storeStep_of_exec hE hi h) hg,
    fun t u h hg => step_completed hr (State.storeStep_of_exec hE hi h) hg⟩

/-! ## A valid fetch (R211, R212) -/

theorem State.advance_linear (hmode : s.params.fetchMode = .linear) (a : Word) :
    s.advance a = a + 4#32 := by
  simp only [State.advance, hmode]

theorem State.advance_looping (hmode : s.params.fetchMode = .looping) (a : Word) :
    s.advance a = BitVec.ofNat 32 ((a.toNat + 4) % (4 * s.prog.length)) := by
  simp only [State.advance, hmode]

theorem State.fetchStep_valid (hh : s.halt = false) (hw : s.streamWord s.pc = some w) :
    s.fetchStep = .next (s.fetchWord w) := by
  simp only [State.fetchStep, hh, hw, Bool.false_eq_true, if_false]

/-- The fetch of a cycle whose Store step leaves it neither stalled nor halted. -/
theorem State.gatedSteps_fetches (hst : s.stall = 0) (hh : s.halt = false)
    (hw : s.streamWord s.pc = some w) :
    ∃ t, s.gatedSteps = .next t ∧ t.slotF = some (s.fetched w) ∧ t.pc = s.advance s.pc ∧
      t.trace.getLast? = some ⟨s.pc.toNat / 4, .fetch, s.cycle⟩ := by
  obtain ⟨hp, hg, -, -, hpc, -, -, hhalt, hcy, -⟩ := s.moved_keeps
  have hfetch : s.executeStep.decodeStep.fetchStep = _ :=
    State.fetchStep_valid (hhalt.trans hh) ((s.moved_streamWord _).trans (hpc.symm ▸ hw))
  refine ⟨_, (State.gatedSteps_open hst).trans hfetch, congrArg some (s.moved_fetched w), ?_, ?_⟩
  · rw [State.fetchWord_pc, State.advance_congr hp hg, hpc]
  · rw [State.fetchWord_trace, logEvent_getLast?, hpc, hcy]

/-- Settles O31: the fetch at a valid pc, and the fault of Looping mode at any other. -/
theorem validFetchAdvances : Obligations.ValidFetchAdvances := by
  intro s u hr hu hst hh
  obtain ⟨hp, hg, -, hcy, -⟩ := State.storeStep_keeps hu
  refine ⟨fun w ha hword => ?_, fun hmode hout => step_fetchOutOfStream hr hmode hu hh hst hout⟩
  obtain ⟨v, hv, hF, hpc, hlast⟩ :=
    State.gatedSteps_fetches hst hh (State.streamWord_some_iff.2 ⟨ha, hg.symm ▸ hword⟩)
  rw [State.advance_congr hp hg] at hpc
  refine ⟨_, step_completed hr hu hv, completed_notFaulted hr hu hv, ?_, hcy ▸ hlast,
    fun hmode => hpc.trans (State.advance_linear hmode _),
    fun hmode => hpc.trans (State.advance_looping hmode _)⟩
  rw [State.finishCycle_slotF, hF, State.fetched, hcy]

/-- Settles O38: the commit's redirect, then the fetch at the target with nothing left to move. -/
theorem redirectFetchesTarget : Obligations.RedirectFetchesTarget := by
  intro s e i target hr hE hi htakes ha
  obtain ⟨t, hx, ⟨rfl, hF, hD, hhalt⟩, hstall⟩ := exec_redirects htakes ha
  obtain ⟨hp, hg, -, -, hcy, -⟩ := (exec_next_cases hx).keeps
  have hu := State.storeStep_of_exec hE hi hx
  have hS : (t.retire e).slotS = some { e with enter := s.cycle } := by rw [State.retire_slotS, hcy]
  refine ⟨⟨_, hu, rfl, hF, hD, rfl, hS, hhalt, hstall⟩, fun w hword hh hst => ?_⟩
  have hst' : (t.retire e).stall = 0 := hstall.trans hst
  obtain ⟨v, hv, hvF, hpc, -⟩ := State.gatedSteps_fetches hst' (hhalt.trans hh)
    (State.streamWord_some_iff.2 ⟨ha, (congrArg (·[t.pc.toNat / 4]?) hg).trans hword⟩)
  obtain ⟨hvE, hvD, -⟩ := State.gatedSteps_slots rfl hst' hv
  obtain ⟨-, -, -, -, hvS, -⟩ := (State.gatedSteps_flowOnly hv).keeps
  refine ⟨_, step_completed hr hu hv, completed_notFaulted hr hu hv, ?_, ?_, ?_, hvS.trans hS,
    hpc.trans (State.advance_congr hp hg _)⟩
  · rw [State.finishCycle_slotF, hvF, State.fetched, State.retire_cycle, hcy]; rfl
  · rw [State.finishCycle_slotD, hvD, State.retire_slotF, hF]; rfl
  · rw [State.finishCycle_slotE, hvE, State.retire_slotD, hD]; rfl

/-! ## The end of the stream and the halt of a branch (R208, R213, R214) -/

/-- At the end of the stream in Linear mode the Fetch step sets the halt flag if the other two gated steps
had nothing to move. -/
theorem State.gatedSteps_endOfStream (hmode : s.params.fetchMode = .linear) (hE : s.slotE = none)
    (hst : s.stall = 0) (hh : s.halt = false) (hw : s.streamWord s.pc = none) :
    ∃ t, s.gatedSteps = .next t ∧ t.pc = s.pc ∧ t.slotF = none ∧
      (t.halt = true ↔ s.slotF = none ∧ s.slotD = none) := by
  obtain ⟨t, ht⟩ := State.gatedSteps_linear hmode
  obtain ⟨hE', hD', hF'⟩ := State.moved_slots hE
  obtain ⟨-, -, -, -, hpc, -, -, hhalt, -⟩ := s.moved_keeps
  have hempty : s.executeStep.decodeStep.slotD = none ∧ s.executeStep.decodeStep.slotE = none ↔
      s.slotF = none ∧ s.slotD = none := by
    rw [hD', hE', Option.map_eq_none_iff, Option.map_eq_none_iff]
  refine ⟨t, ht, ?_⟩
  rw [State.gatedSteps_open hst] at ht
  rcases State.fetchStep_next_cases ht with
    ⟨hset, -⟩ | ⟨-, w, hword, -⟩ | ⟨-, -, -, ⟨hD, hE, rfl⟩ | ⟨hbusy, rfl⟩⟩
  · exact nomatch hh.symm.trans (hhalt.symm.trans hset)
  · rw [hpc, State.moved_streamWord, hw] at hword
    cases hword
  · exact ⟨hpc, hF', fun _ => hempty.1 ⟨hD, hE⟩, fun _ => rfl⟩
  · exact ⟨hpc, hF', fun hset => (nomatch hh.symm.trans (hhalt.symm.trans hset)),
      fun hidle => absurd (hempty.2 hidle) hbusy⟩

/-- Settles O42: the Fetch step at a pc that indexes no entry. -/
theorem linearEndOfStream : Obligations.LinearEndOfStream := by
  intro s u hr hmode hu hst hh hout
  obtain ⟨hp, -, hE, -⟩ := State.storeStep_keeps hu
  obtain ⟨v, hv, hpc, hF, hhalt⟩ := State.gatedSteps_endOfStream (hp.symm ▸ hmode) hE hst hh
    (State.streamWord_none_iff.2 hout)
  exact ⟨_, step_completed hr hu hv, completed_notFaulted hr hu hv, hpc, hF, hhalt⟩

/-- A halted pipeline with nothing fetched does not move. -/
theorem State.gatedSteps_halted (hh : s.halt = true) (hF : s.slotF = none) (hD : s.slotD = none) :
    s.gatedSteps = .next s := by
  by_cases hst : s.stall = 0
  · rw [State.gatedSteps_open hst, State.executeStep_empty hD, State.decodeStep_empty hF,
      State.fetchStep, if_pos hh]
  · exact State.gatedSteps_stalled hst

theorem State.drained_iff : s.drained = true ↔
    s.slotF = none ∧ s.slotD = none ∧ s.slotE = none ∧ s.slotS = none := by
  simp only [State.drained, Bool.and_eq_true, Option.isNone_iff_eq_none, and_assoc]

theorem State.finishCycle_halted (hh : s.halt = true) (hd : s.drained = true) :
    s.finishCycle.status = .halted := by
  have hdone : (s.countCycle.halt && s.countCycle.drained) = true := Bool.and_eq_true_iff.2 ⟨hh, hd⟩
  rw [State.finishCycle_status, State.checkedStatus, if_pos hdone]

/-- A halted pipeline in which only the Store slot is full ends its run in one cycle (R208, R231). -/
theorem step_halted_drains (hr : s.status = .running) (hh : s.halt = true) (hF : s.slotF = none)
    (hD : s.slotD = none) (hE : s.slotE = none) :
    ∃ t, step s = .next t ∧ t.status = .halted ∧ t.pc = s.pc ∧ t.x = s.x ∧ t.f = s.f ∧
      t.mem = s.mem :=
  ⟨_, step_completed hr (State.storeStep_empty hE) (State.gatedSteps_halted hh hF hD),
    State.finishCycle_halted hh (State.drained_iff.2 ⟨hF, hD, hE, rfl⟩), rfl, rfl, rfl, rfl⟩

/-- Settles O39: the halt flushes all but the branch itself, which leaves the Store slot in the next
cycle. -/
theorem loopingHaltDrains : Obligations.LoopingHaltDrains := by
  intro s e i hr hE hi hfalls hmode
  obtain ⟨target, hx⟩ := exec_of_fallsThrough hfalls
  rw [State.branch_looping hmode] at hx
  exact ⟨_, step_completed hr (State.storeStep_of_exec hE hi hx) (State.gatedSteps_halted rfl rfl rfl),
    rfl, rfl, rfl, rfl, rfl, rfl, fun hrunning => step_halted_drains hrunning rfl rfl rfl rfl⟩

/-! ## The end of a cycle (R215 to R218) -/

/-- The three statuses that the check gives a running state, in their order of precedence. -/
theorem State.checkedStatus_iff (hr : s.status = .running) :
    (s.checkedStatus = .halted ↔ s.halt = true ∧ s.drained = true) ∧
    (s.checkedStatus = .limitReached ↔ s.checkedStatus ≠ .halted ∧
      0 < s.params.cycleLimit ∧ s.params.cycleLimit ≤ s.cycle) ∧
    (s.checkedStatus = .running ↔ s.checkedStatus ≠ .halted ∧ s.checkedStatus ≠ .limitReached) := by
  rcases s.checkedStatus_cases with ⟨hc, hdone⟩ | ⟨hc, hgoes, hlimit⟩ | ⟨hc, hgoes, hbelow⟩
  · rw [hc]
    exact ⟨iff_of_true rfl hdone, iff_of_false nofun fun ⟨hne, _⟩ => hne rfl,
      iff_of_false nofun fun ⟨hne, _⟩ => hne rfl⟩
  · rw [hc]
    exact ⟨iff_of_false nofun hgoes, iff_of_true rfl ⟨nofun, hlimit⟩,
      iff_of_false nofun fun ⟨_, hne⟩ => hne rfl⟩
  · rw [hc, hr]
    exact ⟨iff_of_false nofun hgoes, iff_of_false nofun fun ⟨_, hlimit⟩ => hbelow hlimit,
      iff_of_true rfl ⟨nofun, nofun⟩⟩

/-- Settles O43: the bookkeeping of `finishCycle`, with the status that its check gives. -/
theorem cycleBookkeeping : Obligations.CycleBookkeeping := by
  intro s t u hr hu hstep hn
  obtain ⟨u', v, hu', hv, rfl⟩ := step_notFaulted_completed hr hstep hn
  cases hu.symm.trans hu'
  obtain ⟨hp, -, -, hcy, hus⟩ := State.storeStep_keeps hu
  obtain ⟨hp', -, -, -, -, hst, hcy', -, -, -, hvs⟩ := (State.gatedSteps_flowOnly hv).keeps
  refine ⟨congrArg (· - 1) hst, congrArg (· + 1) (hcy'.trans hcy), ?_⟩
  rw [← hp, ← hp', ← State.drained_iff (s := v.finishCycle), State.finishCycle_status]
  exact State.checkedStatus_iff (s := v.countCycle) (hvs.trans (hus.trans hr))

/-- Settles O44: only a running state makes a cycle. -/
theorem endedRunStays : Obligations.EndedRunStays := fun _ => step_ended

/-- Settles O45: the events kept are those that the filter of `logEvent` passes. -/
theorem traceLogPurges : Obligations.TraceLogPurges := by
  intro trace idx stage c
  refine ⟨_, rfl, List.filter_sublist, fun ev => ?_⟩
  rw [List.mem_filter, Bool.not_eq_true', ← Bool.not_eq_true, Bool.and_eq_true, beq_iff_eq,
    beq_iff_eq]

/-! ## The placed word (log 6) -/

theorem getElem?_putWord (l : List Word) (k : Nat) (w : Word) : (putWord l k w)[k]? = some w := by
  induction k generalizing l with
  | zero => cases l <;> rfl
  | succ k ih => cases l <;> exact ih _

theorem State.withFetchWord_toNat (s : State) (w : Word) :
    s.withFetchWord 32 w.toNat = s.placeWord w := by
  rw [State.withFetchWord, Nat.mod_eq_of_lt w.isLt, BitVec.ofNat_toNat, BitVec.setWidth_eq]

/-- In Linear mode a commit that answers a next state completes its cycle, and nothing after the commit
changes what it answers. -/
theorem step_linear_keeps_commit (hr : s.status = .running) (hmode : s.params.fetchMode = .linear)
    (hE : s.slotE = some e) (hi : e.dec.toInstr = some i) (hx : exec i s = .next t) :
    ∃ u, step s = .next u ∧ u.x = t.x ∧ u.f = t.f ∧ u.mem = t.mem ∧ u.ticks = t.ticks ∧
      u.unrec = t.unrec ∧ NotFaulted u := by
  obtain ⟨hp, -⟩ := (exec_next_cases hx).keeps
  have hu := State.storeStep_of_exec hE hi hx
  obtain ⟨v, hv⟩ := State.gatedSteps_linear (s := t.retire e) (hp.symm ▸ hmode)
  obtain ⟨-, -, hvx, hvf, -, -, -, hticks, hmem, hunrec, -⟩ := (State.gatedSteps_flowOnly hv).keeps
  exact ⟨_, step_completed hr hu hv, hvx, hvf, hmem, hticks, hunrec, completed_notFaulted hr hu hv⟩

/-- Settles O32: the placed word stands in the stream at the pc and in the Execute slot of a running
state. -/
theorem placedWordRunsNext : Obligations.PlacedWordRunsNext := by
  intro s p w i hplaced hi
  rw [State.withFetchWord_toNat] at hplaced
  subst hplaced
  exact ⟨fun ha => State.streamWord_some_iff.2 ⟨ha, getElem?_putWord _ _ _⟩,
    fun f hx => step_of_exec_fault (e := s.fetched w) rfl rfl hi hx,
    fun t hx hmode => step_linear_keeps_commit (e := s.fetched w) rfl hmode rfl hi hx⟩

/-! ## The launch state (R200) -/

/-- The memory of a launch holds the bytes it is given, at their places. -/
theorem Memory.readByte_ofBytesAt {b : Byte} (a k : Nat) (bytes : List Byte)
    (h : bytes[k]? = some b) : (Memory.ofBytesAt a bytes).readByte (a + k) = b := by
  induction bytes generalizing a k with
  | nil => cases h
  | cons c rest ih =>
    rw [Memory.ofBytesAt, Memory.readByte_cons]
    cases k with
    | zero =>
      cases h
      split
      · rename_i hunlisted
        obtain ⟨-, habove⟩ := Memory.ofBytesAt_wf (a + 1) rest
        rw [hunlisted]
        exact Memory.readByte_of_below habove le_rfl
      · exact if_pos rfl
    | succ k =>
      have hrest := ih (a + 1) k h
      rw [Nat.add_right_comm, Nat.add_assoc] at hrest
      have hne : a ≠ a + (k + 1) := by omega
      rw [if_neg hne, ite_self, hrest]

theorem State.launch_readX {p : Params} {prog : List Word} {initX initF : Vector Word 32}
    {initMem : List Byte} {q : Reg} (h : q ≠ 0) :
    (State.launch p prog initX initF initMem).readX q = initX.get q :=
  (if_neg h).trans (setReg_get_other initX 0#32 h)

/-- Settles O50: all fields are as written, but register 0 and the canonical form of `INIT_MEM`. -/
theorem launchState : Obligations.LaunchState := by
  rintro p prog ix fx im _ rfl
  refine ⟨rfl, fun _ => State.launch_readX, fun _ => rfl, rfl, rfl, rfl, rfl, rfl, rfl, rfl, rfl, rfl,
    fun a b hb => ?_, rfl, rfl, rfl, rfl, rfl⟩
  have hread := Memory.readByte_ofBytesAt 0 a im hb
  rwa [Nat.zero_add] at hread

/-- Settles O52: reset is the launch with the inputs of log 3 to log 6, whose empty `INIT_MEM` fits. -/
theorem resetMeetsInv : Obligations.ResetMeetsInv := by
  have hreset : State.reset = State.launch resetParams [] (Vector.replicate 32 0#32)
      (Vector.replicate 32 0#32) [] := rfl
  unfold Obligations.ResetMeetsInv
  rw [hreset]
  exact inv_launch _ _ _ (Nat.zero_le _)

end Sys2Proof.Machine

/-! PROOF. The pipeline and the sequential machine (R224): one commit is one same update, or one same
fault, in the pipeline and in the sequential machine. -/

namespace Sys2Proof.Machine

variable {s t : State} {e : InFlight} {r r' : Result} {g : State → State}

/-! ## A commit as an update of the state -/

/-- The state `b` with what a commit computes from, but for the address of the instruction in Execute,
taken from `s`. -/
def State.withInputsOf (b s : State) : State :=
  { b with params := s.params, prog := s.prog, x := s.x, f := s.f, mem := s.mem, ticks := s.ticks }

/-- The updates that commits make, as functions of the state: `CommitCase` with its values fixed. -/
inductive CommitUpdate (p : Params) : (State → State) → Prop where
  | record : CommitUpdate p State.recordUnrecognized
  | writesX (rd : Reg) (v : Word) : CommitUpdate p fun s => s.writeX rd v
  | writesF (rd : Reg) (v : Word) : CommitUpdate p fun s => (s.writeF rd v).addStall 2
  | loadsX (rd : Reg) (v : Word) : CommitUpdate p fun s => s.chargeRead.writeX rd v
  | loadsF (rd : Reg) (v : Word) :
      CommitUpdate p fun s => (s.chargeRead.writeF rd v).addStall 1
  | stores (ea v : Word) : CommitUpdate p fun s => s.storeWord ea v
  | branches (target : Word) : CommitUpdate p fun s => s.redirect target
  | jumps (rd : Reg) (link target : Word) :
      CommitUpdate p fun s => (s.writeX rd link).redirect target
  | halts (mode : p.fetchMode = .looping) : CommitUpdate p State.haltFlush
  | keeps : CommitUpdate p id

/-- Two states answer a commit by one same update or by one same fault. -/
inductive SameCommit (s s' : State) : Result → Result → Prop where
  | next {g : State → State} (update : CommitUpdate s.params g) :
      SameCommit s s' (.next (g s)) (.next (g s'))
  | fault (f : Fault) : SameCommit s s' (.fault f) (.fault f)

theorem sameCommit_gated {b : State} {m : Mnemonic} (h : SameCommit s (b.withInputsOf s) r r') :
    SameCommit s (b.withInputsOf s) (s.gated m r) ((b.withInputsOf s).gated m r') := by
  cases hs : supports s.params m with
  | true =>
    have hs' : supports (b.withInputsOf s).params m = true := hs
    rwa [State.gated_supported hs, State.gated_supported hs']
  | false =>
    have hs' : supports (b.withInputsOf s).params m = false := hs
    rw [State.gated_unsupported hs, State.gated_unsupported hs']
    exact .next .record

theorem sameCommit_transfer {s' : State} {target : Word}
    (h : CommitUpdate s.params fun u => (g u).redirect target) :
    SameCommit s s' (s.transfer target g) (s'.transfer target g) := by
  by_cases ha : targetAligned target
  · rw [State.transfer_aligned ha, State.transfer_aligned ha]
    exact .next h
  · rw [State.transfer_misaligned ha, State.transfer_misaligned ha]
    exact .fault _

theorem sameCommit_branch (b s : State) (taken : Bool) (target : Word) :
    SameCommit s (b.withInputsOf s) (s.branch taken target)
      ((b.withInputsOf s).branch taken target) := by
  cases taken with
  | true => exact sameCommit_transfer (g := id) (.branches target)
  | false =>
    cases hm : s.params.fetchMode with
    | looping =>
      have hm' : (b.withInputsOf s).params.fetchMode = .looping := hm
      rw [State.branch_looping hm, State.branch_looping hm']
      exact .next (.halts hm)
    | linear =>
      have hm' : (b.withInputsOf s).params.fetchMode = .linear := hm
      rw [State.branch_linear hm, State.branch_linear hm']
      exact .next .keeps

theorem sameCommit_memRead (b : State) (ea : Word) {use : Word → State → State}
    (h : ∀ v, CommitUpdate s.params fun u => use v u.chargeRead) :
    SameCommit s (b.withInputsOf s) (s.memRead ea use)
      ((b.withInputsOf s).memRead ea use) := by
  have hacc : (b.withInputsOf s).accessFault ea = s.accessFault ea := rfl
  cases hf : s.accessFault ea with
  | none =>
    rw [State.memRead_ok hf, State.memRead_ok (hacc.trans hf)]
    exact .next (h (s.mem.readWord ea.toNat))
  | some f =>
    rw [State.memRead_fault hf, State.memRead_fault (hacc.trans hf)]
    exact .fault f

theorem sameCommit_memWrite (b s : State) (ea v : Word) :
    SameCommit s (b.withInputsOf s) (s.memWrite ea v)
      ((b.withInputsOf s).memWrite ea v) := by
  have hacc : (b.withInputsOf s).accessFault ea = s.accessFault ea := rfl
  cases hf : s.accessFault ea with
  | none =>
    rw [State.memWrite_ok hf, State.memWrite_ok (hacc.trans hf)]
    exact .next (.stores ea v)
  | some f =>
    rw [State.memWrite_fault hf, State.memWrite_fault (hacc.trans hf)]
    exact .fault f

/-- A commit computes from those inputs and from the instruction's own address only. -/
theorem exec_sameCommit {b : State} (hipc : (b.withInputsOf s).ipc = s.ipc) (i : Instr) :
    SameCommit s (b.withInputsOf s) (exec i s) (exec i (b.withInputsOf s)) := by
  cases i with
  | add rd | sub rd | addi rd | srli rd | srai rd => exact .next (.writesX rd _)
  | auipc rd imm =>
    simp only [exec, execAuipc, hipc]
    exact .next (.writesX rd _)
  | fadd rd | fsub rd | fmul rd | fdiv rd => exact .next (.writesF rd _)
  | beq | bne | blt | bge =>
    simp only [exec, execBeq, execBne, execBlt, execBge, State.relativeTarget, hipc]
    exact sameCommit_branch b s _ _
  | bltu | bgeu =>
    simp only [exec, execBltu, execBgeu, State.relativeTarget, hipc]
    exact sameCommit_gated (sameCommit_branch b s _ _)
  | jal rd =>
    simp only [exec, execJal, State.relativeTarget, State.linkValue, hipc]
    exact sameCommit_gated (sameCommit_transfer (.jumps rd _ _))
  | jalr rd =>
    simp only [exec, execJalr, State.linkValue, hipc]
    exact sameCommit_gated (sameCommit_transfer (.jumps rd _ _))
  | lw rd => exact sameCommit_gated (sameCommit_memRead b _ fun v => .loadsX rd v)
  | flw rd =>
    exact sameCommit_memRead b _ (use := fun v u => (u.writeF rd v).addStall 1) fun v => .loadsF rd v
  | sw => exact sameCommit_gated (sameCommit_memWrite b s _ _)
  | fsw => exact sameCommit_memWrite b s _ _
  | sll rd | slt rd | sltu rd | xor rd | srl rd | sra rd | or rd | and rd | slti rd | sltiu rd
  | xori rd | ori rd | andi rd | slli rd | lui rd =>
    exact sameCommit_gated (.next (.writesX rd _))

theorem commit_sameCommit {b : State} {e' : InFlight}
    (hipc : (b.withInputsOf s).ipc = s.ipc) (hdec : e'.dec = e.dec) :
    SameCommit s (b.withInputsOf s) (s.commit e) ((b.withInputsOf s).commit e') := by
  unfold State.commit
  rw [hdec]
  cases e.dec.toInstr with
  | some i => exact exec_sameCommit hipc i
  | none => exact .next .record

/-- What an update does to the fetch, in every state: nothing, a redirect with its flush, or a halt with
its flush. -/
theorem CommitUpdate.flow {p : Params} (h : CommitUpdate p g) :
    (∀ s, (g s).pc = s.pc ∧ (g s).halt = s.halt ∧ (g s).slotF = s.slotF ∧ (g s).slotD = s.slotD) ∨
    (∃ target, ∀ s, RedirectedTo s (g s) target) ∨
    (p.fetchMode = .looping ∧ g = State.haltFlush) := by
  cases h with
  | branches target => exact .inr (.inl ⟨target, fun _ => ⟨rfl, rfl, rfl, rfl⟩⟩)
  | jumps _ _ target => exact .inr (.inl ⟨target, fun _ => ⟨rfl, rfl, rfl, rfl⟩⟩)
  | halts mode => exact .inr (.inr ⟨mode, rfl⟩)
  | _ => exact .inl fun _ => ⟨rfl, rfl, rfl, rfl⟩

theorem CommitUpdate.params_eq {p : Params} (h : CommitUpdate p g) (s : State) :
    (g s).params = s.params := by
  cases h <;> rfl

/-! ## The architecture as the sequential machine sees it -/

/-- What the sequential machine has of a state beside the address and the stop. -/
def State.architecture (s : State) : State := { s with pc := 0#32, halt := false }.sequentialPart

theorem State.sequentialPart_eq (s : State) :
    s.sequentialPart = { s.architecture with
      pc := if s.stoppedByBranch then 0#32 else s.pc, halt := s.stoppedByBranch } := rfl

theorem State.sequentialPart_congr (ha : s.architecture = t.architecture)
    (hstop : s.stoppedByBranch = t.stoppedByBranch)
    (hpc : s.stoppedByBranch = false → s.pc = t.pc) : s.sequentialPart = t.sequentialPart := by
  rw [s.sequentialPart_eq, t.sequentialPart_eq, ha, ← hstop]
  cases hs : s.stoppedByBranch with
  | true => rfl
  | false => rw [hpc hs]

theorem State.recordUnrecognized_architecture (s : State) :
    s.recordUnrecognized.architecture =
      { s.architecture with
        unrec := s.architecture.unrec ++ [(s.current.idx, s.current.word, 0)] } := by
  simp [State.architecture, State.sequentialPart, State.recordUnrecognized, State.stoppedByBranch]

/-- An update makes equal architectures equal again, where the observed index and word are equal. -/
theorem CommitUpdate.architecture_congr {p : Params} (h : CommitUpdate p g)
    (ha : s.architecture = t.architecture) (hidx : s.current.idx = t.current.idx)
    (hword : s.current.word = t.current.word) : (g s).architecture = (g t).architecture := by
  cases h with
  | record =>
    rw [s.recordUnrecognized_architecture, t.recordUnrecognized_architecture, ha, hidx, hword]
  | writesX rd v => exact congrArg (State.writeX · rd v) ha
  | writesF rd v => exact congrArg (State.writeF · rd v) ha
  | loadsX rd v => exact congrArg (fun a => (State.chargeRead a).writeX rd v) ha
  | loadsF rd v => exact congrArg (fun a => (State.chargeRead a).writeF rd v) ha
  | stores ea v => exact congrArg (State.storeWord · ea v) ha
  | jumps rd link => exact congrArg (State.writeX · rd link) ha
  | branches | halts | keeps => exact ha

end Sys2Proof.Machine

/-! PROOF. The simulation of the sequential machine (R224): the gated steps leave the sequential view, a
commit steps it, and a fault is its fault. -/

namespace Sys2Proof.Machine

variable {s t : State} {e : InFlight} {w : Word} {f : Fault} {g : State → State}

/-! ## The step of the sequential machine (R224) -/

/-- The state in which the sequential machine commits the word `w` at its address. -/
def State.sequentialIssue (s : State) (w : Word) : State :=
  { s with slotE := some (s.fetched w), pc := s.advance s.pc }

theorem State.sequentialStep_next (hstop : s.sequentialStopped = false)
    (hw : s.streamWord s.pc = some w)
    (hc : (s.sequentialIssue w).commit (s.fetched w) = .next t) :
    s.sequentialStep = .next t.sequentialPart := by
  unfold State.sequentialIssue at hc
  simp [State.sequentialStep, hstop, hw, hc]

theorem State.sequentialStep_fault (hstop : s.sequentialStopped = false)
    (hw : s.streamWord s.pc = some w)
    (hc : (s.sequentialIssue w).commit (s.fetched w) = .fault f) : s.sequentialStep = .fault f := by
  unfold State.sequentialIssue at hc
  simp [State.sequentialStep, hstop, hw, hc]

theorem State.sequentialStep_outOfStream (hstop : s.sequentialStopped = false)
    (hw : s.streamWord s.pc = none) : s.sequentialStep = .fault (.fetchOutOfStream s.pc) := by
  simp [State.sequentialStep, hstop, hw]

/-! ## The sequential view of a pipeline state -/

theorem State.sequentialStopped_view (s : State) :
    s.sequentialView.sequentialStopped = (s.stoppedByBranch ||
      (s.params.fetchMode == .linear && (s.streamWord s.sequentialView.pc).isNone)) := rfl

theorem State.stoppedByBranch_of_not_halted (hh : s.halt = false) : s.stoppedByBranch = false := by
  simp only [State.stoppedByBranch, hh, Bool.false_and]

/-- Only Looping mode has the halt of a branch (R140). -/
theorem State.stoppedByBranch_of_linear (hmode : s.params.fetchMode = .linear) :
    s.stoppedByBranch = false := by
  rw [State.stoppedByBranch, hmode]
  exact Bool.and_false _

theorem State.sequentialView_pc (hstop : s.stoppedByBranch = false) :
    s.sequentialView.pc = s.oldestAddress := by
  have hview : s.sequentialView.pc = if s.stoppedByBranch then 0#32 else s.oldestAddress := rfl
  rw [hview, hstop]; rfl

theorem State.oldestAddress_of_slotE (hE : s.slotE = some e) : s.oldestAddress = e.ipc := by
  simp only [State.oldestAddress, hE]

theorem FromStream.idx_eq (h : FromStream s e) : e.ipc.toNat / 4 = e.idx := by
  obtain ⟨hipc, -⟩ := h
  omega

theorem FromStream.ipc_aligned (h : FromStream s e) : e.ipc.toNat % 4 = 0 := by
  obtain ⟨hipc, -⟩ := h
  omega

theorem FromStream.streamWord (h : FromStream s e) : s.streamWord e.ipc = some e.word := by
  have ⟨_, hword, _⟩ := h
  exact State.streamWord_some_iff.2 ⟨h.ipc_aligned, h.idx_eq ▸ hword⟩

/-! ## The gated steps leave the sequential view -/

/-- The Execute and Decode steps move records only. -/
theorem State.moved_oldestAddress (hE : s.slotE = none) :
    s.executeStep.decodeStep.oldestAddress = s.oldestAddress := by
  obtain ⟨hE', hD', hF'⟩ := State.moved_slots hE
  obtain ⟨-, -, -, -, hpc, -⟩ := s.moved_keeps
  simp only [State.oldestAddress, hE', hD', hF', hpc, hE]
  cases s.slotD <;> cases s.slotF <;> rfl

/-- A fetch takes the word at the pc, which was the oldest address if nothing else was in flight. -/
theorem State.fetchStep_oldestAddress (hF : s.slotF = none) (h : s.fetchStep = .next t) :
    t.oldestAddress = s.oldestAddress := by
  rcases State.fetchStep_next_cases h with
    ⟨-, rfl⟩ | ⟨-, w, -, rfl⟩ | ⟨-, -, -, ⟨-, -, rfl⟩ | ⟨-, rfl⟩⟩
  · rfl
  · simp only [State.oldestAddress, State.fetchWord_slotE, State.fetchWord_slotD,
      State.fetchWord_slotF, hF]
    cases s.slotE <;> cases s.slotD <;> rfl
  · rfl
  · rfl

theorem State.gatedSteps_oldestAddress (hE : s.slotE = none) (h : s.gatedSteps = .next t) :
    t.oldestAddress = s.oldestAddress := by
  rcases State.gatedSteps_next_cases h with ⟨-, rfl⟩ | ⟨-, h⟩
  · rfl
  · obtain ⟨-, -, hF⟩ := State.moved_slots hE
    rw [State.fetchStep_oldestAddress hF h, State.moved_oldestAddress hE]

/-- They set the halt flag in Linear mode only, where it stops no sequential machine. -/
theorem State.gatedSteps_stoppedByBranch (h : s.gatedSteps = .next t) :
    t.stoppedByBranch = s.stoppedByBranch := by
  obtain ⟨hp, -⟩ := (State.gatedSteps_flowOnly h).keeps
  rcases State.gatedSteps_flow h with ⟨hh, -⟩ | ⟨-, -, hmode, -⟩
  · simp only [State.stoppedByBranch, hp, hh]
  · rw [State.stoppedByBranch_of_linear hmode, State.stoppedByBranch_of_linear (hp ▸ hmode)]

theorem ChangesFlowOnly.architecture (h : ChangesFlowOnly s t) : t.architecture = s.architecture := by
  unfold ChangesFlowOnly at h
  rw [h]; rfl

theorem State.gatedSteps_view (hE : s.slotE = none) (h : s.gatedSteps = .next t) :
    t.sequentialView = s.sequentialView :=
  State.sequentialPart_congr (s := { t with pc := t.oldestAddress })
    (t := { s with pc := s.oldestAddress }) (State.gatedSteps_flowOnly h).architecture
    (show t.stoppedByBranch = s.stoppedByBranch from State.gatedSteps_stoppedByBranch h)
    fun _ => State.gatedSteps_oldestAddress hE h

theorem State.finishCycle_view (s : State) : s.finishCycle.sequentialView = s.sequentialView := rfl

/-! ## A commit is one step of the sequential machine -/

theorem CycleInv.halt_eq_false (h : CycleInv s) (hE : s.slotE = some e) : s.halt = false := by
  refine Bool.eq_false_iff.2 fun hh => ?_
  obtain ⟨-, -, hE', -⟩ := h.haltDrains hh
  exact nomatch hE.symm.trans hE'

/-- What follows the record in Execute is at the next fetch address. -/
theorem CycleInv.next_address (h : CycleInv s) (hE : s.slotE = some e) :
    { s with slotE := none }.oldestAddress = s.advance e.ipc := by
  have horder := h.inFetchOrder
  simp only [State.uncommitted, hE] at horder
  simp only [State.oldestAddress]
  revert horder
  cases s.slotD <;> cases s.slotF <;> exact fun ⟨hnext, _⟩ => hnext

/-- The sequential machine is about to commit the record in Execute. -/
theorem CycleInv.view_in_execute (h : CycleInv s) (hE : s.slotE = some e) :
    s.sequentialView.pc = e.ipc ∧ s.sequentialView.sequentialStopped = false ∧
      s.sequentialView.streamWord s.sequentialView.pc = some e.word ∧
      s.sequentialView.halt = s.halt := by
  have hstop := State.stoppedByBranch_of_not_halted (h.halt_eq_false hE)
  have hpc := (State.sequentialView_pc hstop).trans (State.oldestAddress_of_slotE hE)
  have hword : s.streamWord s.sequentialView.pc = some e.word :=
    hpc ▸ (h.slotsFromStream e (.inr (.inr (.inl hE)))).streamWord
  refine ⟨hpc, ?_, hword, hstop.trans (h.halt_eq_false hE).symm⟩
  rw [State.sequentialStopped_view, hstop, hword]
  simp

theorem State.sequentialIssue_architecture (s : State) (w : Word) :
    (s.sequentialView.sequentialIssue w).architecture = s.architecture := by
  simp [State.architecture, State.sequentialIssue, State.sequentialView, State.sequentialPart,
    State.stoppedByBranch]

/-- The two machines commit the record in Execute by one same update or by one same fault. -/
theorem CycleInv.sameCommit (h : CycleInv s) (hE : s.slotE = some e) :
    SameCommit s (s.sequentialView.sequentialIssue e.word) (s.commit e)
      ((s.sequentialView.sequentialIssue e.word).commit (s.sequentialView.fetched e.word)) := by
  obtain ⟨hpc, -⟩ := h.view_in_execute hE
  obtain ⟨-, -, hdec⟩ := h.slotsFromStream e (.inr (.inr (.inl hE)))
  refine commit_sameCommit (b := s.sequentialView.sequentialIssue e.word) ?_ hdec.symm
  rw [State.ipc, State.ipc, State.current_eq hE]
  exact hpc

theorem CommitUpdate.stoppedByBranch_congr (hg : CommitUpdate s.params g)
    (hp : t.params = s.params) (hh : t.halt = s.halt) :
    (g t).stoppedByBranch = (g s).stoppedByBranch := by
  have hhalt : (g t).halt = (g s).halt := by
    rcases hg.flow with hkeeps | ⟨target, hmoves⟩ | ⟨-, rfl⟩
    · obtain ⟨-, ht, -⟩ := hkeeps t
      obtain ⟨-, hs, -⟩ := hkeeps s
      rw [ht, hs, hh]
    · obtain ⟨-, -, -, ht⟩ := hmoves t
      obtain ⟨-, -, -, hs⟩ := hmoves s
      rw [ht, hs, hh]
    · rfl
  rw [State.stoppedByBranch, State.stoppedByBranch, hg.params_eq, hg.params_eq, hp, hhalt]

/-- After the update the sequential machine is at the address of what the pipeline commits next. -/
theorem CycleInv.update_pc (h : CycleInv s) (hE : s.slotE = some e)
    (hg : CommitUpdate s.params g) (hgo : (g s).stoppedByBranch = false) :
    (g (s.sequentialView.sequentialIssue e.word)).pc = ((g s).retire e).oldestAddress := by
  obtain ⟨hpc, -⟩ := h.view_in_execute hE
  rcases hg.flow with hkeeps | ⟨target, hmoves⟩ | ⟨hmode, rfl⟩
  · obtain ⟨hpc', -⟩ := hkeeps (s.sequentialView.sequentialIssue e.word)
    obtain ⟨hpcs, -, hF, hD⟩ := hkeeps s
    have hold : ((g s).retire e).oldestAddress = { s with slotE := none }.oldestAddress := by
      simp only [State.oldestAddress, State.retire_slotE, State.retire_slotD, State.retire_slotF,
        State.retire_pc, hF, hD, hpcs]
    rw [hpc', hold, h.next_address hE]
    exact congrArg s.advance hpc
  · obtain ⟨hpc', -⟩ := hmoves (s.sequentialView.sequentialIssue e.word)
    obtain ⟨hpcs, hF, hD, -⟩ := hmoves s
    simp only [State.oldestAddress, State.retire_slotE, State.retire_slotD, State.retire_slotF,
      State.retire_pc, hF, hD, hpcs, hpc']
  · simp [State.stoppedByBranch, hmode] at hgo

theorem CycleInv.update_view (h : CycleInv s) (hE : s.slotE = some e)
    (hg : CommitUpdate s.params g) :
    (g (s.sequentialView.sequentialIssue e.word)).sequentialPart =
      ((g s).retire e).sequentialView := by
  obtain ⟨hpc, -, -, hh⟩ := h.view_in_execute hE
  have hstream := h.slotsFromStream e (.inr (.inr (.inl hE)))
  have hstop := hg.stoppedByBranch_congr (t := s.sequentialView.sequentialIssue e.word) rfl hh
  refine State.sequentialPart_congr (t := { (g s).retire e with pc := _ })
    (hg.architecture_congr (t := s) (s.sequentialIssue_architecture e.word) ?_ ?_) hstop
    fun hgo => h.update_pc hE hg (hstop.symm.trans hgo)
  · rw [State.current_eq hE]
    show s.sequentialView.pc.toNat / 4 = e.idx
    rw [hpc, hstream.idx_eq]
  · rw [State.current_eq hE]
    rfl

/-- The commit of the pipeline is the step of the sequential machine from its view. -/
theorem CycleInv.commit_sequentialStep (h : CycleInv s) (hE : s.slotE = some e)
    (hc : s.commit e = .next t) :
    s.sequentialView.sequentialStep = .next (t.retire e).sequentialView := by
  obtain ⟨-, hstop, hword, -⟩ := h.view_in_execute hE
  have hsame := h.sameCommit hE
  rw [hc] at hsame
  generalize hq : (s.sequentialView.sequentialIssue e.word).commit _ = q at hsame
  cases hsame with
  | next hg => rw [State.sequentialStep_next hstop hword hq, h.update_view hE hg]

theorem CycleInv.commit_sequentialFault (h : CycleInv s) (hE : s.slotE = some e)
    (hc : s.commit e = .fault f) : s.sequentialView.sequentialStep = .fault f := by
  obtain ⟨-, hstop, hword, -⟩ := h.view_in_execute hE
  have hsame := h.sameCommit hE
  rw [hc] at hsame
  generalize hq : (s.sequentialView.sequentialIssue e.word).commit _ = q at hsame
  cases hsame with
  | fault => exact State.sequentialStep_fault hstop hword hq

/-- Settles O57: the gated steps and the end of the cycle leave the sequential view, and so does a Store
step with nothing to commit; one that commits makes the update that the sequential machine makes. -/
theorem pipelineRefinesSequential : Obligations.PipelineRefinesSequential := by
  intro s t hinv hr hstep hn
  obtain ⟨u, v, hu, hv, rfl⟩ := step_notFaulted_completed hr hstep hn
  obtain ⟨-, -, huE, -⟩ := State.storeStep_keeps hu
  have h := CycleInv.of_inv hinv hr
  rw [State.finishCycle_view, State.gatedSteps_view huE hv]
  rcases State.storeStep_next_cases hu with ⟨hE, rfl⟩ | ⟨e, w, hE, hc, rfl⟩
  · exact ⟨fun _ => rfl, fun hne => absurd hE hne⟩
  · obtain ⟨-, hstop, -⟩ := h.view_in_execute hE
    exact ⟨fun hE' => (nomatch hE.symm.trans hE'), fun _ => ⟨hstop, h.commit_sequentialStep hE hc⟩⟩

/-! ## A fault is the fault of the sequential machine -/

/-- In Looping mode the fetch stays in a stream that is not empty (R212). -/
theorem State.streamWord_advance_looping {a : Word} (hmode : s.params.fetchMode = .looping)
    (hne : 0 < s.prog.length) (ha : a.toNat % 4 = 0) : s.streamWord (s.advance a) ≠ none := by
  rw [Ne, State.streamWord_none_iff, not_not]
  refine ⟨State.advance_aligned ha, ?_⟩
  have hlt : (a.toNat + 4) % (4 * s.prog.length) < 4 * s.prog.length := Nat.mod_lt _ (by omega)
  have hle : (s.advance a).toNat ≤ (a.toNat + 4) % (4 * s.prog.length) := by
    simp only [State.advance, hmode, BitVec.toNat_ofNat]
    exact Nat.mod_le _ _
  omega

/-- A fetch out of the stream happens with nothing older in flight: behind a record the pc is the next
address of the stream. -/
theorem CycleInv.oldestAddress_outOfStream (h : CycleInv s) (hE : s.slotE = none)
    (hmode : s.params.fetchMode = .looping) (hw : s.streamWord s.pc = none) :
    s.oldestAddress = s.pc := by
  have behind {d : InFlight} (hd : FromStream s d) : s.pc ≠ s.advance d.ipc := fun hpc =>
    State.streamWord_advance_looping hmode (Nat.zero_lt_of_lt hd.idx_lt) hd.ipc_aligned (hpc ▸ hw)
  have horder := h.inFetchOrder
  simp only [State.uncommitted, hE] at horder
  rcases hF : s.slotF with _ | i
  · rcases hD : s.slotD with _ | d
    · simp only [State.oldestAddress, hE, hD, hF]
    · simp only [hD, hF] at horder
      exact absurd horder.1 (behind (h.slotsFromStream d (.inr (.inl hD))))
  · have hlast : s.pc = s.advance i.ipc := by
      rcases hD : s.slotD with _ | d <;> simp only [hD, hF] at horder
      · exact horder.1
      · exact horder.2.1
    exact absurd hlast (behind (h.slotsFromStream i (.inl hF)))

/-- The fault of the gated steps, with what it says of the state before them (R185). -/
theorem State.gatedSteps_fault_cases (h : s.gatedSteps = .fault f) :
    s.halt = false ∧ s.streamWord s.pc = none ∧ s.params.fetchMode = .looping ∧
      f = .fetchOutOfStream s.pc := by
  by_cases hst : s.stall = 0
  · rw [State.gatedSteps_open hst] at h
    obtain ⟨hp, hg, -, -, hpc, -, -, hh, -⟩ := s.moved_keeps
    obtain ⟨hhalt, hw, hmode, hf⟩ := State.fetchStep_fault_cases h
    rw [hpc] at hf
    rw [hpc, State.streamWord_congr hg] at hw
    exact ⟨hh ▸ hhalt, hw, hp ▸ hmode, hf⟩
  · rw [State.gatedSteps_stalled hst] at h
    cases h

theorem CycleInv.gatedSteps_sequentialFault (h : CycleInv s) (hE : s.slotE = none)
    (hs : s.gatedSteps = .fault f) :
    s.sequentialView.sequentialStep = .fault f ∧ ∃ a, f = .fetchOutOfStream a := by
  obtain ⟨hh, hw, hmode, rfl⟩ := State.gatedSteps_fault_cases hs
  have hstop := State.stoppedByBranch_of_not_halted hh
  have hpc := (State.sequentialView_pc hstop).trans (h.oldestAddress_outOfStream hE hmode hw)
  refine ⟨?_, _, rfl⟩
  have hword : s.sequentialView.streamWord s.sequentialView.pc = none := hpc ▸ hw
  rw [State.sequentialStep_outOfStream ?_ hword, hpc]
  rw [State.sequentialStopped_view, hstop, hmode]
  rfl

/-- Settles O58: the commit's fault is the sequential machine's, and a fetch out of the stream is the
fault of its next instruction, which it reaches after the commit of the same cycle if there was one. -/
theorem pipelineFaultsAsSequential : Obligations.PipelineFaultsAsSequential := by
  intro s t f hinv hr hstep hf
  have h := CycleInv.of_inv hinv hr
  obtain rfl := step_faulted hr hstep hf
  refine ⟨rfl, ?_⟩
  rcases step_fault_source hr hstep hf with hs | ⟨u, hu, hg⟩
  · obtain ⟨e, i, hE, hi, hx⟩ := State.storeStep_fault_cases hs
    exact .inl (h.commit_sequentialFault hE ((State.commit_of_instr hi).trans hx))
  · obtain ⟨-, -, huE, -⟩ := State.storeStep_keeps hu
    obtain ⟨hfault, ha⟩ := (h.storeStep hu).gatedSteps_sequentialFault huE hg
    rcases State.storeStep_next_cases hu with ⟨-, rfl⟩ | ⟨e, w, hE, hc, rfl⟩
    · exact .inl hfault
    · exact .inr ⟨fun hE' => (nomatch hE.symm.trans hE'), _, h.commit_sequentialStep hE hc, hfault, ha⟩

/-! ## A halted run (R231) -/

/-- Settles O59: in Looping mode the halt flag stops the sequential machine, in Linear mode its address is
the pc, at the end of the stream. -/
theorem haltedRunIsSequentialStop : Obligations.HaltedRunIsSequentialStop := by
  intro s h hhalted
  obtain ⟨hh, hdrained⟩ := h.haltedDrained hhalted
  obtain ⟨-, -, -, hstall⟩ := h.haltDrains hh
  obtain ⟨hF, hD, hE, hS⟩ := State.drained_iff.1 hdrained
  refine ⟨?_, hh, hstall, hF, hD, hE, hS, h.linearHaltAtEnd hh⟩
  rw [State.sequentialStopped_view]
  cases hmode : s.params.fetchMode with
  | looping =>
    have hstop : s.stoppedByBranch = true := by rw [State.stoppedByBranch, hh, hmode]; rfl
    rw [hstop]; rfl
  | linear =>
    have hstop := State.stoppedByBranch_of_linear hmode
    have hold : s.oldestAddress = s.pc := by simp only [State.oldestAddress, hE, hD, hF]
    rw [State.sequentialView_pc hstop, hold, h.linearHaltAtEnd hh hmode, Bool.or_eq_true]
    exact .inr rfl

end Sys2Proof.Machine
